-- ==== Sys2Proof/Word.lean ====
section
/-!
DEFINITION. The word types of RLEC-v7 (00_scope.md R6, R10; 10_state.md R21, R50).
-/

namespace Sys2Proof

/-- A byte: 8 bits (R6). -/
abbrev Byte := BitVec 8

/-- A register or a bus address: 32 bits (R21, R70). -/
abbrev Word := BitVec 32

/-- A canonical pixel, a 32-bit BGRA word (R10). -/
abbrev Pixel := BitVec 32

/-- A cursor register of the BMP RLE decoder: signed, `P_CURSOR_BITS` = 64 bits (R50, R51). -/
abbrev Cursor := BitVec 64

end Sys2Proof
end

