-- ==== Sys2Proof/Syntax.lean ====
section
/-!
DEFINITION. The instructions of RLEC-v7: one constructor per row of the opcode table, the ten commands
(30_encoding.md R100) and the fourteen tokens of the compressed streams (R102, R106, R107).

A constructor carries the fields of the bits the engine fetches to know the token: the command word, the
two bytes of a BMP token, the one byte of a PCX token or TGA packet. The bytes that follow them in the
stream (a delta's two bytes, an absolute run's indices and padding, the value of a repeat, the samples of
a packet) are operands in memory that the token's own rule reads at SRC_POS (41 R187-R189, 43 R243, R253,
R254), since cutting them off there raises an error of that token (assumption log 15).
-/

namespace Sys2Proof

inductive Instr where
  /-- PAL_LOAD (R300): `arg` is CMD.ARG, the entry format (R127). -/
  | palLoad (arg : BitVec 8)
  /-- PCX_EGA_LOAD (R304). -/
  | pcxEgaLoad
  /-- BMP_DECODE_RAW (R289). -/
  | bmpDecodeRaw
  /-- BMP_DECODE_RLE8 (R180). -/
  | bmpDecodeRle8
  /-- BMP_DECODE_RLE4 (R181). -/
  | bmpDecodeRle4
  /-- BMP_ENCODE (R220). -/
  | bmpEncode
  /-- TGA_DECODE_RAW (R250). -/
  | tgaDecodeRaw
  /-- TGA_DECODE_RLE (R251). -/
  | tgaDecodeRle
  /-- TGA_ENCODE (R260). -/
  | tgaEncode
  /-- PCX_DECODE (R240). -/
  | pcxDecode
  /-- EOL of an RLE8 stream, `00 00` (R185). -/
  | eolRle8
  /-- EOB of an RLE8 stream, `00 01` (R186). -/
  | eobRle8
  /-- DELTA of an RLE8 stream, `00 02`; `dx dy` follow (R187). -/
  | deltaRle8
  /-- ABS8, `00 n`; `n` indices and the padding follow (R188). -/
  | abs8 (n : BitVec 8)
  /-- RUN8, `c v` (R183). -/
  | run8 (c v : BitVec 8)
  /-- EOL of an RLE4 stream (R185). -/
  | eolRle4
  /-- EOB of an RLE4 stream (R186). -/
  | eobRle4
  /-- DELTA of an RLE4 stream; `dx dy` follow (R187). -/
  | deltaRle4
  /-- ABS4, `00 n`; the packed indices and the padding follow (R189). -/
  | abs4 (n : BitVec 8)
  /-- RUN4, `c v` with `v = hi lo` (R184). -/
  | run4 (c : BitVec 8) (hi lo : BitVec 4)
  /-- PCX.REP: `k` is the raw six-bit count; the value byte follows (R243). -/
  | pcxRep (k : BitVec 6)
  /-- PCX.LIT: the sample `b` (R244). -/
  | pcxLit (b : BitVec 8)
  /-- TGA.RUN: `n` is the raw field `h[6:0]`, the count less one; one sample follows (R253). -/
  | tgaRun (n : BitVec 7)
  /-- TGA.RAW: `n` is the raw field `h[6:0]`, the count less one; the samples follow (R254). -/
  | tgaRaw (n : BitVec 7)
deriving DecidableEq, Repr

end Sys2Proof
end

