-- ==== Sys2Proof/WellFormed.lean ====
section
/-!
DEFINITION. Which instructions have an encoding: the operand ranges of 30_encoding.md R102-R107.
-/

namespace Sys2Proof

/-- A run's count is 1 to 255, since a first byte 0 is an escape (R102, R103). -/
def wfRunCount (c : BitVec 8) : Bool := c != 0

/-- An absolute run's count is 3 to 255, since 0, 1 and 2 are EOL, EOB and DELTA (R102, R103). -/
def wfAbsCount (n : BitVec 8) : Bool := decide (3 ≤ n.toNat)

/-- A literal PCX sample is below 0xC0, since the top two bits set mark a repeat (R106). -/
def wfLiteral (b : BitVec 8) : Bool := decide (b.toNat < 0xC0)

/-- An instruction is well formed when some command word or some stream bytes encode it. -/
def Instr.wf : Instr → Bool
  | .palLoad _ | .pcxEgaLoad | .bmpDecodeRaw | .bmpDecodeRle8 | .bmpDecodeRle4 | .bmpEncode => true
  | .tgaDecodeRaw | .tgaDecodeRle | .tgaEncode | .pcxDecode => true
  | .eolRle8 | .eobRle8 | .deltaRle8 | .eolRle4 | .eobRle4 | .deltaRle4 => true
  | .abs8 n => wfAbsCount n
  | .abs4 n => wfAbsCount n
  | .run8 c _ => wfRunCount c
  | .run4 c _ _ => wfRunCount c
  | .pcxRep _ => true
  | .pcxLit b => wfLiteral b
  | .tgaRun _ | .tgaRaw _ => true

end Sys2Proof
end

