-- ==== Sys2Proof/Decode.lean ====
section
/-!
DEFINITION. Decoding and encoding (30_encoding.md). A command is decoded from the command word (R100);
a token from the first bytes of the stream it stands in (R102, R106, R107). Which stream it is decides
between words that coincide (the EOL of RLE8 and of RLE4 are the same two bytes).
-/

namespace Sys2Proof

/-- Where an instruction stands: the CMD register, or one of the four kinds of token stream. -/
inductive Stream where
  | command | rle8 | rle4 | pcx | tga
deriving DecidableEq, Repr

/-- Why bytes are no instruction. -/
inductive Reject where
  /-- A reserved OP (R100): the started command ends with Generic (R101). -/
  | reservedOp (op : BitVec 8)
  /-- Fewer bytes than the instruction's first bytes: a fetch past SRC_LEN (R113). -/
  | truncated (stream : Stream)
deriving DecidableEq, Repr

/-- The command word: `OP = CMD[7:0]`, `ARG = CMD[15:8]`, `CMD[31:16]` ignored (R100, R101). -/
def decodeCommand (w : Word) : Except Reject Instr :=
  match (w.extractLsb' 0 8).toNat with
  | 0x01 => .ok (.palLoad (w.extractLsb' 8 8))
  | 0x02 => .ok .pcxEgaLoad
  | 0x10 => .ok .bmpDecodeRaw
  | 0x11 => .ok .bmpDecodeRle8
  | 0x12 => .ok .bmpDecodeRle4
  | 0x18 => .ok .bmpEncode
  | 0x20 => .ok .tgaDecodeRaw
  | 0x21 => .ok .tgaDecodeRle
  | 0x28 => .ok .tgaEncode
  | 0x30 => .ok .pcxDecode
  | _ => .error (.reservedOp (w.extractLsb' 0 8))

/-- An RLE8 token from its first two bytes (R102, R104); every pair is a token. -/
def decodeRle8 (b0 b1 : Byte) : Instr :=
  if b0 = 0 then
    match b1.toNat with
    | 0 => .eolRle8
    | 1 => .eobRle8
    | 2 => .deltaRle8
    | _ => .abs8 b1
  else .run8 b0 b1

/-- An RLE4 token from its first two bytes (R102, R105); every pair is a token. -/
def decodeRle4 (b0 b1 : Byte) : Instr :=
  if b0 = 0 then
    match b1.toNat with
    | 0 => .eolRle4
    | 1 => .eobRle4
    | 2 => .deltaRle4
    | _ => .abs4 b1
  else .run4 b0 (b1.extractLsb' 4 4) (b1.extractLsb' 0 4)

/-- A PCX token from its first byte (R106); every byte is a token. -/
def decodePcx (b : Byte) : Instr :=
  if b.extractLsb' 6 2 = 3 then .pcxRep (b.extractLsb' 0 6) else .pcxLit b

/-- A TGA packet from its header byte (R107); every header is a packet. -/
def decodeTga (h : Byte) : Instr :=
  if h.extractLsb' 7 1 = 1 then .tgaRun (h.extractLsb' 0 7) else .tgaRaw (h.extractLsb' 0 7)

/-- The command word whose bytes, lowest first, are `b0 b1 b2 b3`. -/
def wordOfBytes (b0 b1 b2 b3 : Byte) : Word :=
  BitVec.ofNat 32 (b0.toNat + 2 ^ 8 * b1.toNat + 2 ^ 16 * b2.toNat + 2 ^ 24 * b3.toNat)

/-- The instruction at the head of a byte list and the bytes after it. -/
def decode : Stream → List Byte → Except Reject (Instr × List Byte)
  | .command, b0 :: b1 :: b2 :: b3 :: rest =>
    match decodeCommand (wordOfBytes b0 b1 b2 b3) with
    | .ok i => .ok (i, rest)
    | .error e => .error e
  | .rle8, b0 :: b1 :: rest => .ok (decodeRle8 b0 b1, rest)
  | .rle4, b0 :: b1 :: rest => .ok (decodeRle4 b0 b1, rest)
  | .pcx, b :: rest => .ok (decodePcx b, rest)
  | .tga, h :: rest => .ok (decodeTga h, rest)
  | st, _ => .error (.truncated st)

/-- The stream an instruction stands in. -/
def Instr.stream : Instr → Stream
  | .palLoad _ | .pcxEgaLoad | .bmpDecodeRaw | .bmpDecodeRle8 | .bmpDecodeRle4 | .bmpEncode => .command
  | .tgaDecodeRaw | .tgaDecodeRle | .tgaEncode | .pcxDecode => .command
  | .eolRle8 | .eobRle8 | .deltaRle8 | .abs8 _ | .run8 _ _ => .rle8
  | .eolRle4 | .eobRle4 | .deltaRle4 | .abs4 _ | .run4 _ _ _ => .rle4
  | .pcxRep _ | .pcxLit _ => .pcx
  | .tgaRun _ | .tgaRaw _ => .tga

/-- The first bytes of an instruction in stream order: the four bytes of the command word, lowest first
(its ignored bits 0), or the bytes of the token that select it (R100-R107). -/
def encode : Instr → List Byte
  | .palLoad arg => [0x01, arg, 0, 0]
  | .pcxEgaLoad => [0x02, 0, 0, 0]
  | .bmpDecodeRaw => [0x10, 0, 0, 0]
  | .bmpDecodeRle8 => [0x11, 0, 0, 0]
  | .bmpDecodeRle4 => [0x12, 0, 0, 0]
  | .bmpEncode => [0x18, 0, 0, 0]
  | .tgaDecodeRaw => [0x20, 0, 0, 0]
  | .tgaDecodeRle => [0x21, 0, 0, 0]
  | .tgaEncode => [0x28, 0, 0, 0]
  | .pcxDecode => [0x30, 0, 0, 0]
  | .eolRle8 | .eolRle4 => [0, 0]
  | .eobRle8 | .eobRle4 => [0, 1]
  | .deltaRle8 | .deltaRle4 => [0, 2]
  | .abs8 n | .abs4 n => [0, n]
  | .run8 c v => [c, v]
  | .run4 c hi lo => [c, hi ++ lo]
  | .pcxRep k => [(3 : BitVec 2) ++ k]
  | .pcxLit b => [b]
  | .tgaRun n => [(1 : BitVec 1) ++ n]
  | .tgaRaw n => [(0 : BitVec 1) ++ n]

/-- A count rounded up to an even one: the data bytes of an absolute run with their padding. -/
def evenUp (n : Nat) : Nat := n + n % 2

/-- The length in bytes of a token with everything that follows it (R113); `S` is the TGA sample size. A
command word is four bytes. -/
def tokenLength (S : Nat) : Instr → Nat
  | .eolRle8 | .eobRle8 | .eolRle4 | .eobRle4 => 2
  | .deltaRle8 | .deltaRle4 => 4
  | .abs8 n => 2 + evenUp n.toNat
  | .abs4 n => 2 + evenUp ((n.toNat + 1) / 2)
  | .run8 _ _ | .run4 _ _ _ => 2
  | .pcxRep _ => 2
  | .pcxLit _ => 1
  | .tgaRun _ => 1 + S
  | .tgaRaw n => 1 + (n.toNat + 1) * S
  | _ => 4

/-- The instruction the decoder reads from a word numbered as the opcode table numbers it (assumption log
3). A table word of up to 8 bits is a command's OP, else a PCX repeat (top bits 11) or a TGA header; one of
9 to 16 bits is a BMP RLE8 token `(b0 << 8) | b1` (the RLE4 rows have the same words); a longer one is a
command word. -/
def decodeTableWord (nbits w : Nat) : Option Instr :=
  if nbits ≤ 8 then
    match decodeCommand (BitVec.ofNat 32 (w % 256)) with
    | .ok i => some i
    | .error _ =>
      match decodePcx (BitVec.ofNat 8 w) with
      | .pcxRep k => some (.pcxRep k)
      | _ => some (decodeTga (BitVec.ofNat 8 w))
  else if nbits ≤ 16 then some (decodeRle8 (BitVec.ofNat 8 (w / 256)) (BitVec.ofNat 8 w))
  else (decodeCommand (BitVec.ofNat 32 w)).toOption

/-! ### The assembler notation (R130) and its pseudo-instructions (R131) -/

/-- A whole token with all its operands, in the notation of R130. -/
inductive Asm where
  | eol | eob
  | delta (dx dy : Byte)
  | run8 (c v : Byte)
  | abs8 (data : List Byte)
  | run4 (c : Byte) (hi lo : BitVec 4)
  | abs4 (data : List (BitVec 4))
  | pcxRep (k : BitVec 6) (v : Byte)
  | pcxLit (b : Byte)
  | tgaRun (n : BitVec 7) (sample : List Byte)
  | tgaRaw (samples : List (List Byte))
deriving DecidableEq, Repr

/-- Bytes followed by a zero byte when their number is odd (R104, R105). -/
def padEven (d : List Byte) : List Byte := if d.length % 2 = 1 then d ++ [0] else d

/-- Indices packed two a byte, the high nibble first; a missing last one is 0 (R105). -/
def packNibbles : List (BitVec 4) → List Byte
  | [] => []
  | [h] => [h ++ (0 : BitVec 4)]
  | h :: l :: rest => (h ++ l) :: packNibbles rest

/-- The bytes of a token (R130). -/
def asmBytes : Asm → List Byte
  | .eol => [0, 0]
  | .eob => [0, 1]
  | .delta dx dy => [0, 2, dx, dy]
  | .run8 c v => [c, v]
  | .abs8 d => 0 :: BitVec.ofNat 8 d.length :: padEven d
  | .run4 c hi lo => [c, hi ++ lo]
  | .abs4 d => 0 :: BitVec.ofNat 8 d.length :: padEven (packNibbles d)
  | .pcxRep k v => [(3 : BitVec 2) ++ k, v]
  | .pcxLit b => [b]
  | .tgaRun n s => ((1 : BitVec 1) ++ n) :: s
  | .tgaRaw ss => BitVec.ofNat 8 (ss.length - 1) :: ss.flatten

/-- `RUN8* c, v`: `(c-1)/255` full runs and the rest (R131). -/
def runStar8 (c : Nat) (v : Byte) : List Asm :=
  List.replicate ((c - 1) / 255) (.run8 255 v) ++ [.run8 (BitVec.ofNat 8 (c - 255 * ((c - 1) / 255))) v]

/-- `LIT8* b0, ...`: an absolute run of 3 or more bytes, else runs of one (R131). -/
def litStar8 (d : List Byte) : List Asm :=
  if 3 ≤ d.length then [.abs8 d] else d.map (fun b => .run8 1 b)

/-- `SKIP dx, dy` (R131). -/
def skipTo (dx dy : Byte) : Asm := .delta dx dy

/-- `END` (R131). -/
def endOfBitmap : Asm := .eob

/-- `RUN4* c, hi, lo`: `(c-1)/254` runs of 254, which keep the nibble phase, and the rest (R131). -/
def runStar4 (c : Nat) (hi lo : BitVec 4) : List Asm :=
  List.replicate ((c - 1) / 254) (.run4 254 hi lo) ++
    [.run4 (BitVec.ofNat 8 (c - 254 * ((c - 1) / 254))) hi lo]

end Sys2Proof
end

