-- ==== Sys2Proof/Config.lean ====
section
/-!
DEFINITION. The implementation parameters of 00_scope.md R5 and the free values of the model.
The parameter `P_EGA_DEFAULT` is the table `Sys2Proof.Machine.egaDefault` (Machine/Palette.lean).
-/

namespace Sys2Proof

/-- The two readings of the direction of a DELTA's `dy` in a top-down image (R5, R187). -/
inductive DeltaDir where
  /-- Toward the image top: the canonical row decreases (the literal text; the default). -/
  | towardTop
  /-- In stream order: the canonical row increases. -/
  | streamOrder
deriving DecidableEq, Repr

/-- `P_ADDR_BITS`: the width of a bus address (R5, R70). -/
def Config.addrBits : Nat := 32

/-- `P_PAL_MAX`: the number of entries of palette RAM (R5, R45). -/
def Config.palMax : Nat := 65536

/-- `P_CURSOR_BITS`: the width of X and Y (R5, R50); the type `Cursor` has this width. -/
def Config.cursorBits : Nat := 64

/-- `P_DELTA_TOPDOWN`, which RLEC-v7 fixes at TOWARD_TOP (R5, 90_conflicts.md C11). -/
def Config.deltaTopdown : DeltaDir := .towardTop

/-- FREE VALUE (assumption log 9): the unspecified 32-bit value number `n` that the model draws: a
register read that R49 leaves unspecified, or a PAL_DATA read of an unwritten entry (R57). -/
opaque Config.freeWord (n : Nat) : Word

/-- FREE VALUE (assumption log 10): the unspecified count number `n` that the model draws: how many of
an aborted command's writes a reset leaves in memory (R371). -/
opaque Config.freeNat (n : Nat) : Nat

end Sys2Proof
end

