-- ==== Sys2Proof/Machine/State.lean ====
section
/-!
DEFINITION. The state of one block instance (10_state.md R20), the reasons a step can stop, and the state
after reset (70_reset_and_hazards.md R370).
-/

namespace Sys2Proof.Machine

/-- The codes of STATUS.ERR (R340). -/
inductive Code where
  | success | generic | readError | unsupportedFile | fileCorrupted
deriving DecidableEq, Repr

/-- The direction of a bus access. -/
inductive BusKind where
  | read | write
deriving DecidableEq, Repr

/-- One engine access of the bus, always of one byte (R72, R73). -/
structure BusEvent where
  kind : BusKind
  addr : Nat
  value : Byte
deriving DecidableEq, Repr

/-- Why the machine stops outside the modelled behaviour. `made` is what the command did on the bus up to there, newest
first: its `history` at the stop, which a reset of the command needs (R371, assumption log 10). -/
inductive Fault where
  /-- The engine looked up palette entry `i`, which nothing has written since reset (R57); raised by the
  lookups of Machine/Palette.lean. SAFE: the model stops where the hardware goes on with an unknown value. -/
  | unwrittenPaletteEntry (i : Nat) (made : List BusEvent)
  /-- The engine reached for bus address `a` at or above 2^32, which does not exist (R70); raised by
  `memRead` and `memWrite`. No command that passed its gates does so (R71). SAFE. -/
  | noSuchBusAddress (a : Nat) (made : List BusEvent)
deriving DecidableEq, Repr

/-- Why the model gives a program no meaning. -/
inductive Refusal where
  /-- An instruction that has no meaning yet; raised by an arm of `exec` only. SAFE. -/
  | notModelled (mnemonic : String)
  /-- A host register access that is not an aligned 32-bit access (R84); raised by the host port. SAFE. -/
  | badRegisterAccess
  /-- A command was started with regions that overlap (R86), whatever its gates say; raised by `runCommand`. SAFE. -/
  | overlappingRegions
  /-- A command was started with a region on a device (R85), whatever its gates say; raised by `runCommand`. SAFE. -/
  | deviceRegion
  /-- The host accessed a region of the running command (R380); raised by the host port. SAFE. -/
  | hostTouchesRegion
  /-- A second host accessed this instance (R354); raised by the host port. SAFE. -/
  | secondHost
deriving DecidableEq, Repr

/-- What the engine does when it is given a move (R20 (6), R140). -/
inductive Phase where
  /-- Idle: waiting for a START. -/
  | idle
  /-- A START was written; the command word is taken next (R140, R141). -/
  | start
  /-- In the token loop of BMP_DECODE_RLE8 (R180). -/
  | rle8
  /-- In the token loop of BMP_DECODE_RLE4 (R181). -/
  | rle4
  /-- In the packet loop of TGA_DECODE_RLE (R251). -/
  | tga
  /-- In the scanline loop of PCX_DECODE (R240). -/
  | pcx
deriving DecidableEq, Repr

/-- The width of a host access to the register window (R84). -/
inductive Width where
  | byte | half | word
deriving DecidableEq, Repr

/-- One move of an agent (R11): the engine's, the host's or the platform's. -/
inductive Turn where
  /-- The engine takes a step. -/
  | engine
  /-- The host writes `v` at an offset of the register window (R21). -/
  | regWrite (off : BitVec 8) (width : Width) (v : Word)
  /-- The host reads at an offset of the register window (R21). -/
  | regRead (off : BitVec 8) (width : Width)
  /-- The host writes a byte of bus memory. -/
  | poke (a : Word) (v : Byte)
  /-- The host reads a byte of bus memory. -/
  | peek (a : Word)
  /-- The platform resets the block (R370). -/
  | reset
  /-- A second host accesses the register window of this instance (R354). -/
  | secondHost
deriving DecidableEq, Repr

/-- The registers that only the host writes (R22). Each is held whole, 32 bits; reserved bits are kept 0
by `writeReg`. -/
structure HostRegs where
  cmd : Word        -- R24
  srcBase : Word    -- R26
  srcLen : Word     -- R27
  pixBase : Word    -- R29
  pixCap : Word     -- R30
  outBase : Word    -- R31
  outCap : Word     -- R32
  width : Word      -- R34
  height : Word     -- R35
  fmt : Word        -- R36
  maskR : Word      -- R37
  maskG : Word      -- R37
  maskB : Word      -- R37
  maskA : Word      -- R37
  palOrigin : Word  -- R39
  palIndex : Word   -- R40
  fill : Word       -- R41
  pcxCfg : Word     -- R42
  pcxAux : Word     -- R43
  encCfg : Word     -- R44
deriving DecidableEq, Repr

/-- Bus memory: (address, byte) pairs, addresses strictly rising, no byte 0 (`Memory.wf`); an address not
listed reads 0 (assumption log 4). -/
abbrev Memory := List Host.Cell

/-- Palette RAM (R45): (index, pixel) pairs, indices strictly rising; an index not listed is *unwritten*
(R57). -/
abbrev PaletteRam := List (Nat × Pixel)

/-- The whole machine. CTRL always reads 0 (R23) and PAL_DATA is a window (R40): neither has storage. -/
structure State where
  /-- The registers that only the host writes. -/
  csr : HostRegs
  /-- SRC_POS (R28), the program counter of the token machines (R52). -/
  srcPos : Word
  /-- PAL_COUNT (R38). -/
  palCount : Word
  /-- STATUS (R25). -/
  status : Word
  /-- OUT_LEN (R33). -/
  outLen : Word
  /-- CUR_X (R46). -/
  curX : Word
  /-- CUR_Y (R46). -/
  curY : Word
  /-- PIX_DONE (R47). -/
  pixDone : Word
  /-- RESULT_DEPTH (R48). -/
  resultDepth : Word
  /-- PAL (R45). -/
  pal : PaletteRam
  /-- X (R50). -/
  x : Cursor
  /-- Y (R51). -/
  y : Cursor
  /-- LINE (R53): the bytes of the current scanline produced so far, `LINE[0]` first (assumption log 14). -/
  line : List Byte
  /-- Idle or running, and where in the running command (R20 (6)). -/
  phase : Phase
  /-- `n`, the output byte counter (R80). -/
  outN : Nat
  /-- `k`, the decoded pixel counter (R252). -/
  pixK : Nat
  /-- `fy`, the current PCX scanline (R240). -/
  row : Nat
  /-- `exhausted` (R240, R243). -/
  exhausted : Bool
  /-- Bus memory (R70 (2)). -/
  mem : Memory
  /-- MODEL'S OWN: the bus events of the running or last command, newest first (R73). -/
  history : List BusEvent
  /-- MODEL'S OWN: bus memory less the writes of the running or last command (for R371). -/
  memStart : Memory
  /-- MODEL'S OWN: the moves to come; when there is none the engine moves (assumption log 1). -/
  turns : List Turn
  /-- MODEL'S OWN: what the host's last read returned. -/
  hostData : Word
  /-- MODEL'S OWN: how many free values have been drawn. -/
  draws : Nat
  /-- MODEL'S OWN: the (base, size) bus ranges the platform gives to devices (R85, log 8). No command may use them; a host
  access there is one of ordinary memory (log 27). -/
  devices : List (Nat × Nat)
deriving DecidableEq, Repr

/-- The reset column of R22 for the registers only the host writes: all 0 but FILL. -/
def HostRegs.reset : HostRegs where
  cmd := 0
  srcBase := 0
  srcLen := 0
  pixBase := 0
  pixCap := 0
  outBase := 0
  outCap := 0
  width := 0
  height := 0
  fmt := 0
  maskR := 0
  maskG := 0
  maskB := 0
  maskA := 0
  palOrigin := 0
  palIndex := 0
  fill := 0xFF000000
  pcxCfg := 0
  pcxAux := 0
  encCfg := 0

/-- The machine right after reset (R370, R56). X, Y and LINE are unspecified there: the values here are a
DESIGN CHOICE (assumption log 5), as are those of the internal counters (18) and of the model's own fields
(4, 8, 9, 10, 19, 23). -/
def State.reset : State where
  csr := HostRegs.reset
  srcPos := 0
  palCount := 0
  status := 0
  outLen := 0
  curX := 0
  curY := 0
  pixDone := 0
  resultDepth := 0
  pal := []
  x := 0
  y := 0
  line := []
  phase := .idle
  outN := 0
  pixK := 0
  row := 0
  exhausted := false
  mem := []
  history := []
  memStart := []
  turns := []
  hostData := 0
  draws := 0
  devices := []

end Sys2Proof.Machine
end

