-- ==== Sys2Proof/Machine/Operands.lean ====
section
/-!
DEFINITION. Operands: bit fields and byte order (00_scope.md R6, R8, R10), the fields of the registers
(10_state.md R24-R44), and the parts of samples (30_encoding.md R114-R127).
-/

namespace Sys2Proof.Machine

/-! ### Bit fields and byte order -/

/-- `v[lo+len-1 : lo]` as a number (R6). -/
def bits {n : Nat} (v : BitVec n) (lo len : Nat) : Nat := v.toNat / 2 ^ lo % 2 ^ len

/-- `LE16(b0, b1)` (R8). -/
def le16 (b0 b1 : Byte) : BitVec 16 := BitVec.ofNat 16 (b0.toNat + 256 * b1.toNat)

/-- `LE32(b0, b1, b2, b3)` (R8). -/
def le32 (b0 b1 b2 b3 : Byte) : Word :=
  BitVec.ofNat 32 (b0.toNat + 2 ^ 8 * b1.toNat + 2 ^ 16 * b2.toNat + 2 ^ 24 * b3.toNat)

/-- `BGRA(b, g, r, a)` (R10). -/
def bgra (b g r a : Byte) : Pixel :=
  BitVec.ofNat 32 (b.toNat + 2 ^ 8 * g.toNat + 2 ^ 16 * r.toNat + 2 ^ 24 * a.toNat)

/-- Byte `i` of a word, `v[8i+7 : 8i]` (R72). -/
def byteOf (v : Word) (i : Nat) : Byte := v.extractLsb' (8 * i) 8

/-- The four bytes of a word in increasing address order: B, G, R, A of a pixel (R10, R72, R322). -/
def wordBytes (v : Word) : List Byte := [byteOf v 0, byteOf v 1, byteOf v 2, byteOf v 3]

/-- The word whose bytes in increasing address order are listed; a missing byte counts 0 (R72). -/
def wordFromBytes (bs : List Byte) : Word :=
  le32 (bs.getD 0 0) (bs.getD 1 0) (bs.getD 2 0) (bs.getD 3 0)

/-- OPAQUE_BLACK (R10). -/
def opaqueBlack : Pixel := 0xFF000000

/-- OPAQUE_WHITE (R10). -/
def opaqueWhite : Pixel := 0xFFFFFFFF

/-- `ceil(a / b)` (R7). -/
def ceilDiv (a b : Nat) : Nat := (a + b - 1) / b

/-- `tz(m)`: the trailing zero bits of a nonzero value, looked for in at most `fuel` bits (R8). -/
def trailingZeros : Nat → Nat → Nat
  | 0, _ => 0
  | fuel + 1, m => if m % 2 = 1 then 0 else 1 + trailingZeros fuel (m / 2)

/-! ### Register fields -/

/-- The registers as numbers: SRC_BASE, SRC_LEN, SRC_POS (R26-R28). -/
def srcBase (s : State) : Nat := s.csr.srcBase.toNat
@[inherit_doc srcBase] def srcLen (s : State) : Nat := s.csr.srcLen.toNat
@[inherit_doc srcBase] def srcOff (s : State) : Nat := s.srcPos.toNat

/-- PIX_BASE and PIX_CAP (R29, R30). -/
def pixBase (s : State) : Nat := s.csr.pixBase.toNat
@[inherit_doc pixBase] def pixCap (s : State) : Nat := s.csr.pixCap.toNat

/-- OUT_BASE and OUT_CAP (R31, R32). -/
def outBase (s : State) : Nat := s.csr.outBase.toNat
@[inherit_doc outBase] def outCap (s : State) : Nat := s.csr.outCap.toNat

/-- WIDTH and HEIGHT (R34, R35). -/
def width (s : State) : Nat := s.csr.width.toNat
@[inherit_doc width] def height (s : State) : Nat := s.csr.height.toNat

/-- FMT.DEPTH (R36). -/
def depth (s : State) : Nat := bits s.csr.fmt 0 6

/-- FMT.KIND: 0 DIRECT, 1 INDEXED, 2 GRAY, 3 reserved (R36). -/
def kind (s : State) : Nat := bits s.csr.fmt 6 2

/-- FMT.TOPDOWN (R36). -/
def topdown (s : State) : Bool := bits s.csr.fmt 8 1 = 1

/-- FMT.RTL (R36). -/
def rtl (s : State) : Bool := bits s.csr.fmt 9 1 = 1

/-- FMT.INTERLEAVE (R36). -/
def interleave (s : State) : Nat := bits s.csr.fmt 10 2

/-- FMT.ALPHA_BITS (R36). -/
def alphaBits (s : State) : Nat := bits s.csr.fmt 12 4

/-- FMT.BITFIELDS (R36). -/
def bitfields (s : State) : Bool := bits s.csr.fmt 16 1 = 1

/-- FMT.CMAP_DEPTH (R36). -/
def cmapDepth (s : State) : Nat := bits s.csr.fmt 17 6

/-- PAL_COUNT, bits 16:0 (R38). -/
def palEntries (s : State) : Nat := bits s.palCount 0 17

/-- PAL_ORIGIN, bits 15:0 (R39). -/
def palOrigin (s : State) : Nat := bits s.csr.palOrigin 0 16

/-- PAL_INDEX, bits 15:0 (R40). -/
def palIndex (s : State) : Nat := bits s.csr.palIndex 0 16

/-- PCX_CFG.BPL (R42). -/
def pcxBpl (s : State) : Nat := bits s.csr.pcxCfg 0 16

/-- PCX_CFG.NPLANES (R42). -/
def pcxPlanes (s : State) : Nat := bits s.csr.pcxCfg 16 8

/-- PCX_CFG.ENCODING (R42). -/
def pcxEncoding (s : State) : Nat := bits s.csr.pcxCfg 24 8

/-- PCX_AUX.PAL_INFO (R43). -/
def palInfo (s : State) : Nat := bits s.csr.pcxAux 0 16

/-- PCX_AUX.VERSION (R43). -/
def pcxVersion (s : State) : Nat := bits s.csr.pcxAux 16 8

/-- ENC_CFG.OUT_DEPTH (R44). -/
def outDepth (s : State) : Nat := bits s.csr.encCfg 0 6

/-- ENC_CFG.RLE (R44). -/
def encRle (s : State) : Bool := bits s.csr.encCfg 8 1 = 1

/-! ### Addresses and sample sizes -/

/-- The bus address of canonical pixel `(x, y)` (R78); the stride is `WIDTH*4` (R79). -/
def pixAddr (s : State) (x y : Nat) : Nat := pixBase s + y * (width s * 4) + x * 4

/-- The bytes of one BMP row at a depth, padded to four: `ceil(WIDTH*depth/32)*4` (R114, R128). -/
def bmpStride (w d : Nat) : Nat := ceilDiv (w * d) 32 * 4

/-- `S = ceil(DEPTH/8)`, the bytes of one TGA sample (R107). -/
def sampleSize (s : State) : Nat := ceilDiv (depth s) 8

/-- `BPL*NPLANES`, the bytes of one PCX scanline (R124). -/
def pcxStride (s : State) : Nat := pcxBpl s * pcxPlanes s

/-- The `d`-bit field at bit offset `x*d` of a byte row, most significant bits first (R115, R125). -/
def packedIndex (byte : Byte) (d x : Nat) : Nat :=
  byte.toNat >>> (8 - d - (x * d) % 8) % 2 ^ d

/-- The bytes of one PAL_LOAD entry of format `arg` (R127). -/
def entrySize (arg : Byte) : Nat :=
  match arg.toNat with
  | 0 => 3
  | 1 => 4
  | 2 => 2
  | 3 => 2
  | 4 => 3
  | 5 => 4
  | _ => 3

end Sys2Proof.Machine
end

