-- ==== Sys2Proof/Machine/Convert.lean ====
section
/-!
DEFINITION. The conversions between samples and canonical pixels that read no memory (44_convert.md). All
arithmetic is exact, with floor division (00_scope.md R7).
-/

namespace Sys2Proof.Machine

/-- `Chan(v, m)`: the field of `v` under the nonzero mask `m`, scaled to 0..255 (R284). -/
def chan (v m : Word) : Nat :=
  let t := trailingZeros 32 m.toNat
  ((v &&& m).toNat >>> t) * 255 / (m.toNat >>> t)

/-- A channel with the value it takes when its mask is zero (R284). -/
def chanOr (dflt : Nat) (v m : Word) : Byte := BitVec.ofNat 8 (if m = 0 then dflt else chan v m)

/-- `Bitfield(v, mr, mg, mb, ma)` (R284). -/
def bitfield (v mr mg mb ma : Word) : Pixel :=
  bgra (chanOr 0 v mb) (chanOr 0 v mg) (chanOr 0 v mr) (chanOr 255 v ma)

/-- A BMP 16-bit sample without bitfields (R285). -/
def bmp555 (v : BitVec 16) : Pixel := bitfield (v.setWidth 32) 0x7C00 0x03E0 0x001F 0

/-- A five-bit channel scaled by `*255/31` (R291, R301). -/
def scale5 (c : Nat) : Byte := BitVec.ofNat 8 (c * 255 / 31)

/-- A 5-5-5 sample with the alpha given (R291, R301). -/
def rgb555 (v : BitVec 16) (a : Byte) : Pixel :=
  bgra (scale5 (bits v 0 5)) (scale5 (bits v 5 5)) (scale5 (bits v 10 5)) a

/-- A TGA true-color 15- or 16-bit sample (R291). -/
def tgaDirect16 (s : State) (v : BitVec 16) : Pixel :=
  rgb555 v (if depth s = 16 ∧ alphaBits s > 0 then (if bits v 15 1 = 1 then 255 else 0) else 255)

/-- A TGA DIRECT sample of the bytes `bs` (R291, R292). -/
def tgaDirect (s : State) (bs : List Byte) : Pixel :=
  if depth s ≤ 16 then tgaDirect16 s (le16 (bs.getD 0 0) (bs.getD 1 0))
  else if depth s = 24 then bgra (bs.getD 0 0) (bs.getD 1 0) (bs.getD 2 0) 255
  else bgra (bs.getD 0 0) (bs.getD 1 0) (bs.getD 2 0) (bs.getD 3 0)

/-- A TGA GRAY sample of the bytes `bs` (R293). -/
def tgaGray (s : State) (bs : List Byte) : Pixel :=
  bgra (bs.getD 0 0) (bs.getD 0 0) (bs.getD 0 0) (if depth s = 8 then 255 else bs.getD 1 0)

/-- The index of a TGA INDEXED sample of the bytes `bs` (R122, R297). -/
def tgaIndex (s : State) (bs : List Byte) : Nat :=
  if depth s = 8 then (bs.getD 0 0).toNat else (le16 (bs.getD 0 0) (bs.getD 1 0)).toNat

/-- `G(k) = ceil((h - k) / 4)`, the number of rows `ly < h` with `ly mod 4 = k` (R298). -/
def quarterRows (h k : Nat) : Nat := (h - k + 3) / 4

/-- The logical row of file row `fy` of an image of `h` rows under an interleave mode (R298). -/
def logicalRow (mode h fy : Nat) : Nat :=
  match mode with
  | 0 => fy
  | 1 =>
    let h0 := ceilDiv h 2
    if fy < h0 then 2 * fy else 2 * (fy - h0) + 1
  | _ =>
    let g0 := quarterRows h 0
    let g1 := g0 + quarterRows h 1
    let g2 := g1 + quarterRows h 2
    if fy < g0 then 4 * fy
    else if fy < g1 then 4 * (fy - g0) + 1
    else if fy < g2 then 4 * (fy - g1) + 2
    else 4 * (fy - g2) + 3

/-- `TgaMap(fx, fy)`: the canonical position of a file pixel (R298). -/
def tgaMap (s : State) (fx fy : Nat) : Nat × Nat :=
  let ly := logicalRow (interleave s) (height s) fy
  (if rtl s then width s - 1 - fx else fx, if topdown s then ly else height s - 1 - ly)

/-- `AlphaDepth()` (R299). -/
def alphaDepth (s : State) : Word :=
  if kind s = 0 ∧ depth s = 32 then 32
  else if kind s = 0 ∧ depth s = 16 ∧ alphaBits s > 0 then 32
  else if kind s = 2 ∧ depth s = 16 ∧ alphaBits s > 0 then 32
  else if kind s = 1 ∧ cmapDepth s = 32 then 32
  else 24

/-- `Entry(ARG, e)`: one palette entry of the bytes `e` (R301). -/
def paletteEntry (arg : Byte) (e : List Byte) : Pixel :=
  match arg.toNat with
  | 0 => bgra (e.getD 0 0) (e.getD 1 0) (e.getD 2 0) 255
  | 1 => bgra (e.getD 0 0) (e.getD 1 0) (e.getD 2 0) 255
  | 2 => rgb555 (le16 (e.getD 0 0) (e.getD 1 0)) 255
  | 3 => rgb555 (le16 (e.getD 0 0) (e.getD 1 0)) 255
  | 4 => bgra (e.getD 0 0) (e.getD 1 0) (e.getD 2 0) 255
  | 5 => bgra (e.getD 0 0) (e.getD 1 0) (e.getD 2 0) (e.getD 3 0)
  | _ => bgra (e.getD 2 0) (e.getD 1 0) (e.getD 0 0) 255

/-- `Luma(p)` (R320). -/
def luma (p : Pixel) : Byte :=
  BitVec.ofNat 8 ((bits p 16 8 * 299 + bits p 8 8 * 587 + bits p 0 8 * 114) / 1000)

/-- `Pack24(p)` (R321). -/
def pack24 (p : Pixel) : List Byte := [byteOf p 0, byteOf p 1, byteOf p 2]

/-- `Pack32(p)` (R322). -/
def pack32 (p : Pixel) : List Byte := wordBytes p

/-- The packed sample of a pixel at an output depth: `Luma`, `Pack24` or `Pack32` (R222); at 24 and 32 it is
`TgaPack` (R323). -/
def packAt (d : Nat) (p : Pixel) : List Byte :=
  if d = 8 then [luma p] else if d = 24 then pack24 p else pack32 p

end Sys2Proof.Machine
end

