-- ==== Sys2Proof/Machine/Flags.lean ====
section
/-!
DEFINITION. The fields of STATUS (10_state.md R25), the only flags of the block (R55).
-/

namespace Sys2Proof.Machine

/-- The number of an error code (R340). -/
def codeNumber : Code → Nat
  | .success => 0
  | .generic => 1
  | .readError => 2
  | .unsupportedFile => 3
  | .fileCorrupted => 4

/-- STATUS at a start: `BUSY <- 1, DONE <- 0, ERR <- 0` (R25). -/
def statusBusy : Word := 1

/-- STATUS at an end: `BUSY <- 0, DONE <- 1, ERR <- code` (R25). -/
def statusDone (c : Code) : Word := BitVec.ofNat 32 (2 + 256 * codeNumber c)

/-- STATUS.BUSY, bit 0. -/
def busy (s : State) : Bool := s.status.getLsbD 0

/-- STATUS.DONE, bit 1. -/
def done (s : State) : Bool := s.status.getLsbD 1

/-- STATUS.ERR, bits 10:8. -/
def errField (s : State) : BitVec 3 := s.status.extractLsb' 8 3

end Sys2Proof.Machine
end

