-- ==== Sys2Proof/Machine/Memory.lean ====
section
/-!
DEFINITION. Sparse storage in one canonical form (keys strictly rising), and bus memory and palette RAM
over it.
-/

namespace Sys2Proof.Machine

/-- What key `a` holds, if it is listed. -/
def cellGet? {α : Type} : List (Nat × α) → Nat → Option α
  | [], _ => none
  | (b, v) :: rest, a => if b = a then some v else cellGet? rest a

/-- List `v` at key `a`, in order. -/
def cellPut {α : Type} : List (Nat × α) → Nat → α → List (Nat × α)
  | [], a, v => [(a, v)]
  | (b, w) :: rest, a, v =>
    if a < b then (a, v) :: (b, w) :: rest
    else if a = b then (a, v) :: rest
    else (b, w) :: cellPut rest a v

/-- Take key `a` off the list. -/
def cellDrop {α : Type} : List (Nat × α) → Nat → List (Nat × α)
  | [], _ => []
  | (b, w) :: rest, a => if b = a then cellDrop rest a else (b, w) :: cellDrop rest a

/-- Keys strictly rise, each above `lo`. -/
def risingFrom {α : Type} : Nat → List (Nat × α) → Bool
  | _, [] => true
  | lo, (b, _) :: rest => decide (lo < b) && risingFrom b rest

/-- Keys strictly rise. -/
def rising {α : Type} : List (Nat × α) → Bool
  | [] => true
  | (b, _) :: rest => risingFrom b rest

/-- The byte an address not listed reads as (assumption log 4). -/
def unlistedByte : Byte := 0

/-- The byte at a bus address. -/
def Memory.read (m : Memory) (a : Nat) : Byte := (cellGet? m a).getD unlistedByte

/-- Bus memory with the byte `v` at address `a`, in canonical form. -/
def Memory.write (m : Memory) (a : Nat) (v : Byte) : Memory :=
  if v = unlistedByte then cellDrop m a else cellPut m a v

/-- The canonical form: addresses strictly rise and no listed byte is what an unlisted address reads as. -/
def Memory.wf (m : Memory) : Bool := rising m && m.all (fun c => c.2 != unlistedByte)

/-- Bus memory with the bytes `vs` at consecutive addresses from `a`. -/
def Memory.writeBytes (m : Memory) (a : Nat) : List Byte → Memory
  | [] => m
  | v :: vs => (m.write a v).writeBytes (a + 1) vs

/-- Bus memory with the writes among `evs` (oldest first) made in order. -/
def Memory.replay (m : Memory) : List BusEvent → Memory
  | [] => m
  | e :: evs =>
    match e.kind with
    | .write => (m.write e.addr e.value).replay evs
    | .read => m.replay evs

/-- The write events of a history. -/
def writesOf (evs : List BusEvent) : List BusEvent := evs.filter (fun e => e.kind = .write)

/-- Palette RAM is in canonical form and has no entry past its size (R45). -/
def PaletteRam.wf (p : PaletteRam) : Bool := rising p && p.all (fun c => decide (c.1 < Config.palMax))

end Sys2Proof.Machine
end

