-- ==== Sys2Proof/Machine/Ops.lean ====
section
/-!
DEFINITION. The shared operations of the engine: the bus primitives (20_memory.md R72-R80), palette RAM
(10_state.md R45, R57), `raise` and the end of a command (60_exceptions.md R341, 40_commands.md R145), and
what every command does around its body (40_commands.md R140-R143, R150-R154).
-/

namespace Sys2Proof.Machine

/-! ### The engine's sequential operations (R9)

An operation runs on a state and ends with a value, or stops: with `raise E` (R341), or outside the
modelled behaviour. A raise keeps the state reached (R147: it is precise). -/

/-- How an operation stops before its end. -/
inductive Stop where
  /-- `raise E` (R341). -/
  | raised (c : Code)
  | fault (f : Fault)
  | refused (r : Refusal)
deriving DecidableEq, Repr

/-- An engine operation with a result of type `α`. -/
abbrev Eng (α : Type) := EStateM Stop State α

/-- `raise E` (R341). -/
def raise {α : Type} (c : Code) : Eng α := fun s => .error (.raised c) s

/-- Read the state. -/
def readState : Eng State := fun s => .ok s s

/-- Change the state. -/
def update (f : State → State) : Eng Unit := fun s => .ok () (f s)

/-- `for i in 0 .. n-1: body i`, in increasing `i` (R9). -/
def forUpTo : Nat → (Nat → Eng Unit) → Eng Unit
  | 0, _ => pure ()
  | n + 1, body => do
    forUpTo n body
    body n

/-! ### The bus (R72-R80) -/

/-- A bus read, recorded in the command's history (R73). -/
def State.logRead (s : State) (a : Nat) : State :=
  { s with history := ⟨.read, a, s.mem.read a⟩ :: s.history }

/-- A bus write, recorded in the command's history (R73). -/
def State.busWrite (s : State) (a : Nat) (v : Byte) : State :=
  { s with mem := s.mem.write a v, history := ⟨.write, a, v⟩ :: s.history }

/-- `MemRead(a, 1)` (R72). -/
def memRead (a : Nat) : Eng Byte := fun s =>
  if a < 2 ^ Config.addrBits then .ok (s.mem.read a) (s.logRead a)
  else .error (.fault (.noSuchBusAddress a s.history)) s

/-- `MemWrite(a, 1, v)` (R72). -/
def memWrite (a : Nat) (v : Byte) : Eng Unit := fun s =>
  if a < 2 ^ Config.addrBits then .ok () (s.busWrite a v)
  else .error (.fault (.noSuchBusAddress a s.history)) s

/-- The bytes of `MemRead(a, n)`, in increasing address order (R72). -/
def memReadBytes (a : Nat) : Nat → Eng (List Byte)
  | 0 => pure []
  | n + 1 => do
    let b ← memRead a
    let bs ← memReadBytes (a + 1) n
    pure (b :: bs)

/-- `MemWrite` of the listed bytes, in increasing address order (R72). -/
def memWriteBytes (a : Nat) : List Byte → Eng Unit
  | [] => pure ()
  | v :: vs => do
    memWrite a v
    memWriteBytes (a + 1) vs

/-- `SrcByte(off)` (R75). -/
def srcByte (off : Nat) : Eng Byte := do
  let s ← readState
  memRead (srcBase s + off)

/-- `SRC_POS <- SRC_POS + n` (R28). -/
def State.advance (s : State) (n : Nat) : State := { s with srcPos := BitVec.ofNat 32 (s.srcPos.toNat + n) }

/-- The next `n` bytes of the source, consumed; no bound is tested. -/
def takeSrc (n : Nat) : Eng (List Byte) := do
  let s ← readState
  let bs ← memReadBytes (srcBase s + srcOff s) n
  update (·.advance n)
  pure bs

/-- `ReadSrc(n)` (R76): all `n` bytes, or ReadError with nothing read. -/
def readSrc (n : Nat) : Eng (List Byte) := do
  let s ← readState
  if srcOff s + n > srcLen s then raise .readError else takeSrc n

/-- `PixWrite(x, y, p)` (R78). -/
def pixWrite (x y : Nat) (p : Pixel) : Eng Unit := do
  let s ← readState
  memWriteBytes (pixAddr s x y) (wordBytes p)

/-- `PixRead(x, y)` (R78). -/
def pixRead (x y : Nat) : Eng Pixel := do
  let s ← readState
  let bs ← memReadBytes (pixAddr s x y) 4
  pure (wordFromBytes bs)

/-- `OutByte(b)` (R80): Generic when the output region is full. -/
def outByte (b : Byte) : Eng Unit := do
  let s ← readState
  if s.outN ≥ outCap s then raise .generic
  else do
    memWrite (outBase s + s.outN) b
    update (fun t => { t with outN := t.outN + 1 })

/-- `OutByte` of every listed byte, in order. -/
def outBytes : List Byte → Eng Unit
  | [] => pure ()
  | b :: bs => do
    outByte b
    outBytes bs

/-! ### Palette RAM (R45, R57) -/

/-- `PAL[i] <- v`. -/
def State.palPut (s : State) (i : Nat) (v : Pixel) : State := { s with pal := cellPut s.pal i v }

/-- `PAL[i]` as the engine looks it up: an unwritten entry is outside the modelled behaviour (R57). -/
def palLookup (i : Nat) : Eng Pixel := fun s =>
  match cellGet? s.pal i with
  | some p => .ok p s
  | none => .error (.fault (.unwrittenPaletteEntry i s.history)) s

/-- `PAL[i] <- v` as an engine step. -/
def palWrite (i : Nat) (v : Pixel) : Eng Unit := update (·.palPut i v)

/-! ### Commands (R100, R150) -/

/-- The ten commands. -/
inductive Op where
  | palLoad | pcxEgaLoad | bmpDecodeRaw | bmpDecodeRle8 | bmpDecodeRle4 | bmpEncode
  | tgaDecodeRaw | tgaDecodeRle | tgaEncode | pcxDecode
deriving DecidableEq, Repr

/-- The command an instruction is, or whose token it is. -/
def opOf : Instr → Op
  | .palLoad _ => .palLoad
  | .pcxEgaLoad => .pcxEgaLoad
  | .bmpDecodeRaw => .bmpDecodeRaw
  | .bmpDecodeRle8 | .eolRle8 | .eobRle8 | .deltaRle8 | .abs8 _ | .run8 _ _ => .bmpDecodeRle8
  | .bmpDecodeRle4 | .eolRle4 | .eobRle4 | .deltaRle4 | .abs4 _ | .run4 _ _ _ => .bmpDecodeRle4
  | .bmpEncode => .bmpEncode
  | .tgaDecodeRaw => .tgaDecodeRaw
  | .tgaDecodeRle | .tgaRun _ | .tgaRaw _ => .tgaDecodeRle
  | .tgaEncode => .tgaEncode
  | .pcxDecode | .pcxRep _ | .pcxLit _ => .pcxDecode

/-- Commands that use the SRC region (R150). -/
def usesSrc : Op → Bool
  | .bmpEncode | .tgaEncode => false
  | _ => true

/-- Commands that use the PIX region (R150). -/
def usesPix : Op → Bool
  | .palLoad | .pcxEgaLoad => false
  | _ => true

/-- Commands that use the OUT region: the encoders (R150). -/
def usesOut : Op → Bool
  | .bmpEncode | .tgaEncode => true
  | _ => false

/-- The SRC, PIX and OUT regions as (base, size) (R71). -/
def srcRegion (s : State) : Nat × Nat := (srcBase s, srcLen s)
@[inherit_doc srcRegion] def pixRegion (s : State) : Nat × Nat := (pixBase s, pixCap s)
@[inherit_doc srcRegion] def outRegion (s : State) : Nat × Nat := (outBase s, outCap s)

/-- The regions a command uses (R150). -/
def regionsOf (op : Op) (s : State) : List (Nat × Nat) :=
  (if usesSrc op then [srcRegion s] else []) ++ (if usesPix op then [pixRegion s] else []) ++
    (if usesOut op then [outRegion s] else [])

/-- A region is well formed when it does not wrap past the top of the bus (R71). -/
def regionFits (r : Nat × Nat) : Bool := decide (r.1 + r.2 ≤ 2 ^ Config.addrBits)

/-- An address lies in a region. -/
def inRegion (a : Nat) (r : Nat × Nat) : Bool := decide (r.1 ≤ a) && decide (a < r.1 + r.2)

/-- Two regions share an address. -/
def overlap (r q : Nat × Nat) : Bool :=
  decide (0 < r.2) && decide (0 < q.2) && decide (r.1 < q.1 + q.2) && decide (q.1 < r.1 + r.2)

/-- Some two regions of the list share an address. -/
def anyOverlap : List (Nat × Nat) → Bool
  | [] => false
  | r :: rest => rest.any (overlap r) || anyOverlap rest

/-! ### The gates (R143, R151-R154) -/

/-- The error of the first condition that holds, in order (R143, R344). -/
def firstFailing : List (Bool × Code) → Option Code
  | [] => none
  | (bad, c) :: rest => if bad then some c else firstFailing rest

/-- Gates 2 to 7 of R143; gate 1 is the decoder's (`Reject.reservedOp`). -/
def commonGates (op : Op) (arg : Byte) (s : State) : List (Bool × Code) :=
  [ (decide (op = .palLoad) && decide (arg.toNat > 6), .generic),
    ((regionsOf op s).any (fun r => !regionFits r), .generic),
    (usesSrc op && decide (srcOff s > srcLen s), .generic),
    (usesPix op && decide (width s * height s * 4 > pixCap s), .generic),
    (usesOut op && (decide (width s = 0) || decide (height s = 0)), .generic),
    (decide (op = .palLoad) && decide (palEntries s > 65536), .generic) ]

/-- The BMP decode gates (R151). -/
def bmpGates (op : Op) (s : State) : List (Bool × Code) :=
  [ (!([1, 4, 8, 16, 24, 32].contains (depth s)), .unsupportedFile),
    ((decide (op = .bmpDecodeRle8) && decide (depth s ≠ 8)) ||
      (decide (op = .bmpDecodeRle4) && decide (depth s ≠ 4)), .fileCorrupted),
    (decide (op = .bmpDecodeRaw) && bitfields s && !([16, 32].contains (depth s)), .fileCorrupted),
    (decide (width s = 0) || decide (height s = 0), .fileCorrupted),
    (decide (depth s ≤ 8) && (decide (palEntries s = 0) || decide (palEntries s > 2 ^ depth s)),
      .fileCorrupted) ]

/-- The TGA decode gates (R152). -/
def tgaGates (s : State) : List (Bool × Code) :=
  [ (decide (kind s = 3), .unsupportedFile),
    (decide (interleave s = 3), .unsupportedFile),
    (decide (kind s = 1) && !([15, 16, 24, 32].contains (cmapDepth s)), .unsupportedFile),
    ((decide (kind s = 1) && !([8, 16].contains (depth s))) ||
      (decide (kind s = 2) && !([8, 16].contains (depth s))) ||
      (decide (kind s = 0) && !([15, 16, 24, 32].contains (depth s))), .unsupportedFile),
    (decide (width s = 0) || decide (height s = 0), .fileCorrupted) ]

/-- The (DEPTH, NPLANES) pairs PCX_DECODE accepts (R153 gate d). -/
def pcxPairs : List (Nat × Nat) :=
  [(1, 1), (1, 2), (1, 3), (1, 4), (2, 1), (4, 1), (8, 1), (8, 3), (8, 4)]

/-- The PCX decode gates (R153). -/
def pcxGates (s : State) : List (Bool × Code) :=
  [ (!([0, 1].contains (pcxEncoding s)), .unsupportedFile),
    (decide (width s = 0) || decide (height s = 0) || decide (width s > 32768) ||
      decide (height s > 32768), .fileCorrupted),
    (decide (depth s = 0) || decide (pcxPlanes s = 0) || decide (pcxBpl s = 0), .fileCorrupted),
    (!(pcxPairs.contains (depth s, pcxPlanes s)), .unsupportedFile) ]

/-- The encoder gates (R154). -/
def encodeGates (op : Op) (s : State) : List (Bool × Code) :=
  match op with
  | .bmpEncode =>
    [ (!([8, 24, 32].contains (outDepth s)), .unsupportedFile),
      (encRle s && decide (outDepth s ≠ 8), .unsupportedFile) ]
  | _ => [ (!([24, 32].contains (outDepth s)), .unsupportedFile) ]

/-- Gate 8 of R143: the format gates of the command's family. -/
def formatGates (op : Op) (s : State) : List (Bool × Code) :=
  match op with
  | .palLoad | .pcxEgaLoad => []
  | .bmpDecodeRaw | .bmpDecodeRle8 | .bmpDecodeRle4 => bmpGates op s
  | .tgaDecodeRaw | .tgaDecodeRle => tgaGates s
  | .pcxDecode => pcxGates s
  | .bmpEncode | .tgaEncode => encodeGates op s

/-- `Check(op, arg)` (R143): the error of the first gate that fails, if one does. -/
def check (op : Op) (arg : Byte) (s : State) : Option Code :=
  firstFailing (commonGates op arg s ++ formatGates op s)

/-- Why a started command has no meaning: regions that overlap (R86) or lie on a device (R85). -/
def regionsRefusal (op : Op) (s : State) : Option Refusal :=
  if anyOverlap (regionsOf op s) then some .overlappingRegions
  else if (regionsOf op s).any (fun r => s.devices.any (overlap r)) then some .deviceRegion
  else none

/-! ### Start and end of a command (R140, R145) -/

/-- The start of a command by a write of CTRL.START (R140, R25). -/
def State.startCommand (s : State) : State :=
  { s with status := statusBusy, phase := .start, history := [], memStart := s.mem }

/-- The engine goes idle with `STATUS.ERR = code`, `DONE = 1` (R145, last line; R25). -/
def State.goIdle (s : State) (code : Code) : State := { s with status := statusDone code, phase := .idle }

/-- `OUT_LEN <- (code = Success ? n : 0)` for the encoders (R145). -/
def State.setOutLen (s : State) (code : Code) : State :=
  { s with outLen := if code = .success then BitVec.ofNat 32 s.outN else 0 }

/-- `CUR_X <- trunc_32(X); CUR_Y <- trunc_32(Y)` (R145). -/
def State.setCursorRegs (s : State) : State :=
  { s with curX := s.x.setWidth 32, curY := s.y.setWidth 32 }

/-- `PIX_DONE <- trunc_32(k)`, and RESULT_DEPTH when the decode succeeded (R145). -/
def State.setTgaRegs (s : State) (code : Code) : State :=
  { s with
    pixDone := BitVec.ofNat 32 s.pixK
    resultDepth := if code = .success then alphaDepth s else s.resultDepth }

/-- `End(op, code)` (R145): the one way a command ends, and the machine's only exception entry (`raise`,
R341, R347). `started` says that every gate passed. -/
def endCommand (op : Op) (started : Bool) (code : Code) (s : State) : State :=
  match op with
  | .bmpEncode | .tgaEncode => (s.setOutLen code).goIdle code
  | .bmpDecodeRle8 | .bmpDecodeRle4 => (if started then s.setCursorRegs else s).goIdle code
  | .tgaDecodeRaw | .tgaDecodeRle => (if started then s.setTgaRegs code else s).goIdle code
  | .palLoad | .pcxEgaLoad | .bmpDecodeRaw | .pcxDecode => s.goIdle code

/-- The outcome of an operation of a running command: where it ends, `after` gives the next state; where
it raises, the command ends with the error (R341). -/
def conclude (op : Op) (after : State → State) (r : EStateM.Result Stop State Unit) :
    Host.Outcome State Fault Refusal :=
  match r with
  | .ok _ s => .next (after s)
  | .error (.raised c) s => .next (endCommand op true c s)
  | .error (.fault f) _ => .fault f
  | .error (.refused r) _ => .refused r

/-- `Run(op, arg)` (R140, R141): `n <- 0`, the gates, then the body; `after` is what follows the body. A command whose
regions give it no meaning (R85, R86) is refused before any of it runs. -/
def runCommand (op : Op) (arg : Byte) (body : Eng Unit) (after : State → State) (s : State) :
    Host.Outcome State Fault Refusal :=
  match regionsRefusal op s with
  | some r => .refused r
  | none =>
    match check op arg s with
    | some c => .next (endCommand op false c { s with outN := 0 })
    | none => conclude op after (body { s with outN := 0 })

/-- A command whose body runs to its end in one step. -/
def runWhole (op : Op) (arg : Byte) (body : Eng Unit) (s : State) : Host.Outcome State Fault Refusal :=
  runCommand op arg body (endCommand op true .success) s

/-- A command whose body sets up a token loop: the engine stays busy in `phase`. -/
def runStream (op : Op) (setup : Eng Unit) (phase : Phase) (s : State) :
    Host.Outcome State Fault Refusal :=
  runCommand op 0 setup (fun t => { t with phase := phase }) s

/-- A token of a running command. -/
def runToken (op : Op) (token : Eng Unit) (s : State) : Host.Outcome State Fault Refusal :=
  conclude op id (token s)

end Sys2Proof.Machine
end

