-- ==== Sys2Proof/Machine/Palette.lean ====
section
/-!
DEFINITION. Palette lookups and the palette loaders PAL_LOAD and PCX_EGA_LOAD (44_convert.md R294-R296,
R300-R305).
-/

namespace Sys2Proof.Machine

/-- `LookupBMP(i)` (R294): an index at or above PAL_COUNT gives entry 0. -/
def lookupBmp (i : Nat) : Eng Pixel := do
  let s ← readState
  palLookup (if i < palEntries s then i else 0)

/-- `LookupPCX(i)` (R295): opaque black when no palette is loaded. -/
def lookupPcx (i : Nat) : Eng Pixel := do
  let s ← readState
  if palEntries s = 0 then pure opaqueBlack else palLookup (if i < palEntries s then i else 0)

/-- `LookupTGA(i)` (R296): opaque black outside the color map. -/
def lookupTga (i : Nat) : Eng Pixel := do
  let s ← readState
  if palOrigin s ≤ i ∧ i - palOrigin s < palEntries s then palLookup (i - palOrigin s)
  else pure opaqueBlack

/-- Bytes `i*n .. i*n + n-1` of a byte list. -/
def chunk (data : List Byte) (n i : Nat) : List Byte := (data.drop (i * n)).take n

/-- The body of PAL_LOAD (R300). -/
def palLoadBody (arg : Byte) : Eng Unit := do
  let s ← readState
  let data ← readSrc (palEntries s * entrySize arg)
  forUpTo (palEntries s) (fun i => palWrite i (paletteEntry arg (chunk data (entrySize arg) i)))

/-- PAL_LOAD (R300). -/
def execPalLoad (arg : BitVec 8) (s : State) : Host.Outcome State Fault Refusal :=
  runWhole .palLoad arg (palLoadBody arg) s

/-- `P_EGA_DEFAULT` (R5, R58, R305). -/
def egaDefault : List Pixel :=
  [0xFF000000, 0xFF0000AA, 0xFF00AA00, 0xFF00AAAA, 0xFFAA0000, 0xFFAA00AA, 0xFFAA5500, 0xFFAAAAAA,
   0xFF555555, 0xFF5555FF, 0xFF55FF55, 0xFF55FFFF, 0xFFFF5555, 0xFFFF55FF, 0xFFFFFF55, 0xFFFFFFFF]

/-- PCX_EGA_LOAD takes the built-in palette: VERSION 0 or 3, or a header palette of zeros (R304). -/
def usesEgaDefault (s : State) (h : List Byte) : Bool :=
  decide (pcxVersion s = 0) || decide (pcxVersion s = 3) || h.all (· == 0)

/-- Entry `i` that PCX_EGA_LOAD writes, for the header palette `h` (R304). -/
def egaEntry (s : State) (h : List Byte) (i : Nat) : Pixel :=
  if usesEgaDefault s h then egaDefault.getD i 0
  else bgra (h.getD (3 * i + 2) 0) (h.getD (3 * i + 1) 0) (h.getD (3 * i) 0) 255

/-- The body of PCX_EGA_LOAD (R304). -/
def pcxEgaLoadBody : Eng Unit := do
  let s ← readState
  let h ← readSrc 48
  forUpTo 16 (fun i => palWrite i (egaEntry s h i))
  update (fun t => { t with palCount := 16 })

/-- PCX_EGA_LOAD (R304). -/
def execPcxEgaLoad (s : State) : Host.Outcome State Fault Refusal :=
  runWhole .pcxEgaLoad 0 pcxEgaLoadBody s

end Sys2Proof.Machine
end

