-- ==== Sys2Proof/Machine/BmpDecode.lean ====
section
/-!
DEFINITION. BMP_DECODE_RAW (44_convert.md R284-R289) and the BMP RLE8 and RLE4 decompressor with its tokens
(41_bmp_rle_decode.md R180-R194).
-/

namespace Sys2Proof.Machine

/-! ### Uncompressed -/

/-- `BmpPixel(row, x)` (R289). -/
def bmpPixel (row : List Byte) (x : Nat) : Eng Pixel := do
  let s ← readState
  if depth s ≤ 8 then
    lookupBmp (packedIndex (row.getD (x * depth s / 8) 0) (depth s) x)
  else if depth s = 16 then
    let v := le16 (row.getD (2 * x) 0) (row.getD (2 * x + 1) 0)
    pure (if bitfields s then bitfield (v.setWidth 32) s.csr.maskR s.csr.maskG s.csr.maskB s.csr.maskA
      else bmp555 v)
  else if depth s = 24 then
    pure (bgra (row.getD (3 * x) 0) (row.getD (3 * x + 1) 0) (row.getD (3 * x + 2) 0) 255)
  else
    let v := le32 (row.getD (4 * x) 0) (row.getD (4 * x + 1) 0) (row.getD (4 * x + 2) 0)
      (row.getD (4 * x + 3) 0)
    pure (if bitfields s then bitfield v s.csr.maskR s.csr.maskG s.csr.maskB s.csr.maskA
      else bgra (row.getD (4 * x) 0) (row.getD (4 * x + 1) 0) (row.getD (4 * x + 2) 0) 255)

/-- The canonical row of stored row `r` of an image of `h` rows (R289). -/
def bmpRow (s : State) (r : Nat) : Nat := if topdown s then r else height s - 1 - r

/-- The body of BMP_DECODE_RAW (R289). -/
def bmpDecodeRawBody : Eng Unit := do
  let s ← readState
  let data ← readSrc (bmpStride (width s) (depth s) * height s)
  forUpTo (height s) (fun r =>
    forUpTo (width s) (fun x => do
      let p ← bmpPixel (chunk data (bmpStride (width s) (depth s)) r) x
      pixWrite x (bmpRow s r) p))

/-- BMP_DECODE_RAW (R289). -/
def execBmpDecodeRaw (s : State) : Host.Outcome State Fault Refusal :=
  runWhole .bmpDecodeRaw 0 bmpDecodeRawBody s

/-! ### RLE8 and RLE4 -/

/-- `Prefill()` (R192). -/
def prefill : Eng Unit := do
  let s ← readState
  forUpTo (height s) (fun y => forUpTo (width s) (fun x => pixWrite x y s.csr.fill))

/-- The start of an RLE decode: prefill, `X <- 0`, Y at the start row (R180, R51). -/
def bmpRleSetup : Eng Unit := do
  prefill
  update (fun s => { s with x := 0, y := if topdown s then 0 else s.csr.height.setWidth 64 - 1 })

/-- BMP_DECODE_RLE8 (R180): its token loop runs in phase `rle8`. -/
def execBmpDecodeRle8 (s : State) : Host.Outcome State Fault Refusal :=
  runStream .bmpDecodeRle8 bmpRleSetup .rle8 s

/-- BMP_DECODE_RLE4 (R181): its token loop runs in phase `rle4`. -/
def execBmpDecodeRle4 (s : State) : Host.Outcome State Fault Refusal :=
  runStream .bmpDecodeRle4 bmpRleSetup .rle4 s

/-- A cursor position is inside the image (R182). -/
def inImage (s : State) (x y : Int) : Bool :=
  decide (0 ≤ x) && decide (x < width s) && decide (0 ≤ y) && decide (y < height s)

/-- `PutIdx(x, y, i)` (R182): a position outside the image is dropped silently. -/
def putIdx (x y : Int) (i : Nat) : Eng Unit := do
  let s ← readState
  if inImage s x y then do
    let p ← lookupBmp i
    pixWrite x.toNat y.toNat p
  else pure ()

/-- `X <- X + n`. -/
def State.moveX (s : State) (n : Nat) : State := { s with x := s.x + BitVec.ofNat 64 n }

/-- `n` indices placed from the cursor on, then `X <- X + n`: what RUN8, RUN4, ABS8 and ABS4 share (R183,
R184, R188, R189). -/
def placeIndices (n : Nat) (index : Nat → Nat) : Eng Unit := do
  let s ← readState
  forUpTo n (fun k => putIdx (s.x.toInt + k) s.y.toInt (index k))
  update (·.moveX n)

/-- Index `k` of nibble-packed data: even positions the high nibble, odd ones the low (R105). -/
def nibbleIndex (byte : Byte) (k : Nat) : Nat := if k % 2 = 0 then bits byte 4 4 else bits byte 0 4

/-- RUN8 `c, v` (R183). -/
def run8 (c v : Byte) : Eng Unit := placeIndices c.toNat (fun _ => v.toNat)

/-- RUN4 `c, hi, lo` (R184). -/
def run4 (c : Byte) (hi lo : BitVec 4) : Eng Unit :=
  placeIndices c.toNat (fun k => if k % 2 = 0 then hi.toNat else lo.toNat)

/-- EOL (R185). -/
def rleEol : Eng Unit := update (fun s => { s with x := 0, y := if topdown s then s.y + 1 else s.y - 1 })

/-- `DeltaDir() * dy` under a reading of P_DELTA_TOPDOWN, added to Y (R187). -/
def moveDeltaY (dir : DeltaDir) (top : Bool) (y : Cursor) (dy : Byte) : Cursor :=
  if top = true ∧ dir = .streamOrder then y + dy.setWidth 64 else y - dy.setWidth 64

/-- DELTA (R187): `dx` and `dy` are the next two bytes. -/
def rleDelta : Eng Unit := do
  let d ← readSrc 2
  update (fun s =>
    { s with
      x := s.x + (d.getD 0 0).setWidth 64
      y := moveDeltaY Config.deltaTopdown (topdown s) s.y (d.getD 1 0) })

/-- ABS8 `n` (R188). -/
def abs8 (n : Byte) : Eng Unit := do
  let data ← readSrc (evenUp n.toNat)
  placeIndices n.toNat (fun k => (data.getD k 0).toNat)

/-- ABS4 `n` (R189). -/
def abs4 (n : Byte) : Eng Unit := do
  let data ← readSrc (evenUp ((n.toNat + 1) / 2))
  placeIndices n.toNat (fun k => nibbleIndex (data.getD (k / 2) 0) k)

/-- RUN8 (R183). -/
def execRun8 (c v : BitVec 8) (s : State) : Host.Outcome State Fault Refusal :=
  runToken .bmpDecodeRle8 (run8 c v) s

/-- ABS8 (R188). -/
def execAbs8 (n : BitVec 8) (s : State) : Host.Outcome State Fault Refusal :=
  runToken .bmpDecodeRle8 (abs8 n) s

/-- EOL of an RLE8 stream (R185). -/
def execEolRle8 (s : State) : Host.Outcome State Fault Refusal := runToken .bmpDecodeRle8 rleEol s

/-- EOB of an RLE8 stream (R186): the command ends with Success (R145, R194). -/
def execEobRle8 (s : State) : Host.Outcome State Fault Refusal :=
  .next (endCommand .bmpDecodeRle8 true .success s)

/-- DELTA of an RLE8 stream (R187). -/
def execDeltaRle8 (s : State) : Host.Outcome State Fault Refusal := runToken .bmpDecodeRle8 rleDelta s

/-- RUN4 (R184). -/
def execRun4 (c : BitVec 8) (hi lo : BitVec 4) (s : State) : Host.Outcome State Fault Refusal :=
  runToken .bmpDecodeRle4 (run4 c hi lo) s

/-- ABS4 (R189). -/
def execAbs4 (n : BitVec 8) (s : State) : Host.Outcome State Fault Refusal :=
  runToken .bmpDecodeRle4 (abs4 n) s

/-- EOL of an RLE4 stream (R185, R181). -/
def execEolRle4 (s : State) : Host.Outcome State Fault Refusal := runToken .bmpDecodeRle4 rleEol s

/-- EOB of an RLE4 stream (R186, R181): the command ends with Success (R145, R194). -/
def execEobRle4 (s : State) : Host.Outcome State Fault Refusal :=
  .next (endCommand .bmpDecodeRle4 true .success s)

/-- DELTA of an RLE4 stream (R187, R181). -/
def execDeltaRle4 (s : State) : Host.Outcome State Fault Refusal := runToken .bmpDecodeRle4 rleDelta s

end Sys2Proof.Machine
end

