-- ==== Sys2Proof/Machine/BmpEncode.lean ====
section
/-!
DEFINITION. BMP_ENCODE (42_bmp_rle8_encode.md R220-R225).
-/

namespace Sys2Proof.Machine

/-- How many elements at the head of a list equal `v`, at most `cap`. -/
def leading {α : Type} [DecidableEq α] (v : α) : Nat → List α → Nat
  | 0, _ => 0
  | _ + 1, [] => 0
  | cap + 1, w :: ws => if w = v then 1 + leading v cap ws else 0

/-- `EmitRun(r, v)` (R224). -/
def emitRun (r : Nat) (v : Byte) : List Byte := [BitVec.ofNat 8 r, v]

/-- `EmitLiteral(s)` (R225). -/
def emitLiteral (d : List Byte) : List Byte :=
  if 3 ≤ d.length then
    [0, BitVec.ofNat 8 d.length] ++ d ++ (if d.length % 2 = 1 then [0] else [])
  else d.flatMap (fun b => [1, b])

/-- The length of the literal at the head of a row: it stops before a pair of equal bytes, at `cap` or at
the end of the row (R223, inner loop). -/
def literalLength8 : Nat → List Byte → Nat
  | 0, _ => 0
  | _ + 1, [] => 0
  | _ + 1, [_] => 1
  | cap + 1, a :: b :: rest => if a = b then 0 else 1 + literalLength8 cap (b :: rest)

/-- `EncodeRowRLE8(row)` as the bytes it emits (R223); each round takes at least one byte of the row, so
the row's length is fuel enough. -/
def encodeRow8 : Nat → List Byte → List Byte
  | 0, _ => []
  | _ + 1, [] => []
  | fuel + 1, v :: rest =>
    let r := 1 + leading v 254 rest
    if r ≥ 2 then emitRun r v ++ encodeRow8 fuel ((v :: rest).drop r)
    else
      let j := literalLength8 255 (v :: rest)
      emitLiteral ((v :: rest).take j) ++ encodeRow8 fuel ((v :: rest).drop j)

/-- The pixels `x .. x+n-1` of canonical row `y`, read in order. -/
def readPixels (y : Nat) : Nat → Nat → Eng (List Pixel)
  | _, 0 => pure []
  | x, n + 1 => do
    let p ← pixRead x y
    let ps ← readPixels y (x + 1) n
    pure (p :: ps)

/-- One RLE8 row and its EOL (R220). -/
def bmpEncodeRowRle (y : Nat) : Eng Unit := do
  let s ← readState
  let ps ← readPixels y 0 (width s)
  outBytes (encodeRow8 (width s) (ps.map luma))
  outBytes [0, 0]

/-- `EncodeRowRaw(y)` (R222). -/
def bmpEncodeRowRaw (y : Nat) : Eng Unit := do
  let s ← readState
  forUpTo (width s) (fun x => do
    let p ← pixRead x y
    outBytes (packAt (outDepth s) p))
  outBytes (List.replicate (bmpStride (width s) (outDepth s) - width s * outDepth s / 8) 0)

/-- The body of BMP_ENCODE (R220): rows from the bottom up. -/
def bmpEncodeBody : Eng Unit := do
  let s ← readState
  forUpTo (height s) (fun i =>
    if encRle s then bmpEncodeRowRle (height s - 1 - i) else bmpEncodeRowRaw (height s - 1 - i))
  if encRle s then outBytes [0, 1] else pure ()

/-- BMP_ENCODE (R220). -/
def execBmpEncode (s : State) : Host.Outcome State Fault Refusal := runWhole .bmpEncode 0 bmpEncodeBody s

end Sys2Proof.Machine
end

