-- ==== Sys2Proof/Machine/Pcx.lean ====
section
/-!
DEFINITION. PCX_DECODE: the scanline pass and its tokens (43_scanline_codec.md R240-R246), the row assembly and
the VGA trailer pass (44_convert.md R306-R317).
-/

namespace Sys2Proof.Machine

/-! ### Scanlines -/

/-- `ScanRaw(stride)` (R241): short data is zero-filled. -/
def scanRaw : Eng Unit := do
  let s ← readState
  let data ← takeSrc (min (pcxStride s) (srcLen s - srcOff s))
  update (fun t => { t with line := data ++ List.replicate (pcxStride s - data.length) 0 })

/-- PCX.REP (R243): a raw count 0 is read as 1; copies past the scanline end are discarded; with no value
byte the source is exhausted. -/
def pcxRep (k : Nat) : Eng Unit := do
  let s ← readState
  if srcOff s ≥ srcLen s then update (fun t => { t with exhausted := true })
  else do
    let v ← srcByte (srcOff s)
    update (·.advance 1)
    update (fun t =>
      { t with
        line := t.line ++ List.replicate (min (if k = 0 then 1 else k) (pcxStride s - s.line.length)) v })

/-- PCX.LIT (R244). -/
def pcxLit (b : Byte) : Eng Unit := update (fun t => { t with line := t.line ++ [b] })

/-- PCX.REP (R243). -/
def execPcxRep (k : BitVec 6) (s : State) : Host.Outcome State Fault Refusal :=
  runToken .pcxDecode (pcxRep k.toNat) s

/-- PCX.LIT (R244). -/
def execPcxLit (b : BitVec 8) (s : State) : Host.Outcome State Fault Refusal :=
  runToken .pcxDecode (pcxLit b) s

/-- The scanline's tokens are over: `stride` bytes are produced, or the source is exhausted (R242, R245). -/
def scanlineOver (s : State) : Bool :=
  decide (pcxStride s ≤ s.line.length) || s.exhausted || decide (srcOff s ≥ srcLen s)

/-- The rest of the scanline is zero (R242, R245). -/
def zeroFillLine : Eng Unit :=
  update (fun t => { t with line := t.line ++ List.replicate (pcxStride t - t.line.length) 0 })

/-! ### Row assembly -/

/-- The modes of R310. -/
inductive PcxMode where
  | planar1 | packed2 | packed4 | indexed8 | rgb24 | rgba32
deriving DecidableEq, Repr

/-- `PcxMode(DEPTH, NPLANES)` (R310); other pairs are refused by gate d of R153. -/
def pcxMode (d np : Nat) : PcxMode :=
  match d with
  | 1 => .planar1
  | 2 => .packed2
  | 4 => .packed4
  | _ => if np = 3 then .rgb24 else if np = 4 then .rgba32 else .indexed8

/-- `PB(p, off)` (R317). -/
def planeByte (s : State) (p off : Nat) : Byte :=
  if off < pcxBpl s then s.line.getD (p * pcxBpl s + off) 0 else 0

/-- The bit of pixel `x` in plane `p` (R125, R311). -/
def planeBit (s : State) (p x : Nat) : Nat := (planeByte s p (x / 8)).toNat >>> (7 - x % 8) % 2

/-- The planar index of pixel `x` from planes `0 .. np-1` (R311). -/
def planarIndex (s : State) (x : Nat) : Nat → Nat
  | 0 => 0
  | np + 1 => planarIndex s x np + planeBit s np x * 2 ^ np

/-- The canonical pixel of column `x` of the current scanline (R311-R316); for INDEXED8 the scratch word. -/
def pcxPixel (x : Nat) : Eng Pixel := do
  let s ← readState
  match pcxMode (depth s) (pcxPlanes s) with
  | .planar1 =>
    if pcxPlanes s = 1 ∧ palInfo s = 2 then
      pure (if planeBit s 0 x = 1 then opaqueWhite else opaqueBlack)
    else lookupPcx (planarIndex s x (pcxPlanes s))
  | .packed2 => lookupPcx (packedIndex (planeByte s 0 (x * 2 / 8)) 2 x)
  | .packed4 => lookupPcx (packedIndex (planeByte s 0 (x * 4 / 8)) 4 x)
  | .indexed8 => pure ((planeByte s 0 x).setWidth 32)
  | .rgb24 => pure (bgra (planeByte s 2 x) (planeByte s 1 x) (planeByte s 0 x) 255)
  | .rgba32 => pure (bgra (planeByte s 2 x) (planeByte s 1 x) (planeByte s 0 x) (planeByte s 3 x))

/-- `AssembleRow(mode, fy)` (R240, R311-R316). -/
def assembleRow : Eng Unit := do
  let s ← readState
  forUpTo (width s) (fun x => do
    let p ← pcxPixel x
    pixWrite x s.row p)

/-! ### The VGA trailer pass -/

/-- `FindVGA()`: the trailer's offset, if one is found (R306). -/
def findVga : Eng (Option Nat) := do
  let s ← readState
  let first ← if srcOff s + 769 ≤ srcLen s then do
      let b ← srcByte (srcOff s)
      pure (b == 0x0C)
    else pure false
  if first then pure (some (srcOff s))
  else if srcLen s ≥ 769 then do
    let b ← srcByte (srcLen s - 769)
    pure (if b = 0x0C then some (srcLen s - 769) else none)
  else pure none

/-- `LoadVGA(T)` (R306). -/
def loadVga (t : Nat) : Eng Unit := do
  forUpTo 256 (fun i => do
    let b ← srcByte (t + 1 + 3 * i + 2)
    let g ← srcByte (t + 1 + 3 * i + 1)
    let r ← srcByte (t + 1 + 3 * i)
    palWrite i (bgra b g r 255))
  update (fun s => { s with palCount := 256 })

/-- The final pixel of a scratch index (R307). -/
def resolveIndex (found : Bool) (i : Byte) : Eng Pixel := do
  let s ← readState
  if found then palLookup i.toNat
  else pure (if palInfo s = 2 then bgra i i i 255 else opaqueBlack)

/-- `ResolveVGA()` (R307). -/
def resolveVga : Eng Unit := do
  let t ← findVga
  match t with
  | some off => loadVga off
  | none => pure ()
  let s ← readState
  forUpTo (height s) (fun y =>
    forUpTo (width s) (fun x => do
      let w ← pixRead x y
      let p ← resolveIndex t.isSome (byteOf w 0)
      pixWrite x y p))

/-! ### The command -/

/-- The end of a scanline: zero-fill, assemble the row, go to the next; after the last one of an INDEXED8
image, the trailer pass (R240). -/
def finishScanline : Eng Unit := do
  zeroFillLine
  assembleRow
  update (fun t => { t with row := t.row + 1, line := [] })
  let s ← readState
  if s.row ≥ height s ∧ pcxMode (depth s) (pcxPlanes s) = .indexed8 then resolveVga else pure ()

/-- PCX_DECODE goes on with the next scanline, or has ended with Success (R240). -/
def afterScanline (s : State) : State :=
  if s.row < height s then s else endCommand .pcxDecode true .success s

/-- The step that ends a scanline whose tokens are over (R242). -/
def pcxLineEnd (s : State) : Host.Outcome State Fault Refusal :=
  conclude .pcxDecode afterScanline (finishScanline s)

/-- The step of a whole uncompressed scanline (R241). -/
def pcxRawLine (s : State) : Host.Outcome State Fault Refusal :=
  conclude .pcxDecode afterScanline
    ((do
      scanRaw
      finishScanline : Eng Unit) s)

/-- PCX_DECODE (R240): its scanline loop runs in phase `pcx`. -/
def execPcxDecode (s : State) : Host.Outcome State Fault Refusal :=
  runStream .pcxDecode (update (fun t => { t with row := 0, line := [], exhausted := false })) .pcx s

end Sys2Proof.Machine
end

