-- ==== Sys2Proof/Machine/Tga.lean ====
section
/-!
DEFINITION. The TGA decoders, their packets, and the TGA encoder (43_scanline_codec.md R250-R264, 44_convert.md
R291-R293, R296-R299, R323).
-/

namespace Sys2Proof.Machine

/-! ### Decoding -/

/-- `TgaSample(s)` (R297). -/
def tgaSample (bs : List Byte) : Eng Pixel := do
  let s ← readState
  if kind s = 0 then pure (tgaDirect s bs)
  else if kind s = 2 then pure (tgaGray s bs)
  else lookupTga (tgaIndex s bs)

/-- `N = WIDTH*HEIGHT`. -/
def pixelTotal (s : State) : Nat := width s * height s

/-- `Place(k, p)` and `k <- k + 1` (R252). -/
def placeNext (p : Pixel) : Eng Unit := do
  let s ← readState
  pixWrite (tgaMap s (s.pixK % width s) (s.pixK / width s)).1
    (tgaMap s (s.pixK % width s) (s.pixK / width s)).2 p
  update (fun t => { t with pixK := t.pixK + 1 })

/-- One sample read, converted and placed; a short read raises ReadError (R250). -/
def tgaReadSample : Eng Unit := do
  let s ← readState
  let bs ← readSrc (sampleSize s)
  let p ← tgaSample bs
  placeNext p

/-- The body of TGA_DECODE_RAW (R250). -/
def tgaDecodeRawBody : Eng Unit := do
  update (fun t => { t with pixK := 0 })
  let s ← readState
  forUpTo (pixelTotal s) (fun _ => tgaReadSample)

/-- TGA_DECODE_RAW (R250). -/
def execTgaDecodeRaw (s : State) : Host.Outcome State Fault Refusal :=
  runWhole .tgaDecodeRaw 0 tgaDecodeRawBody s

/-- TGA_DECODE_RLE (R251): its packet loop runs in phase `tga`. -/
def execTgaDecodeRle (s : State) : Host.Outcome State Fault Refusal :=
  runStream .tgaDecodeRle (update (fun t => { t with pixK := 0 })) .tga s

/-- The two FileCorrupted tests of a packet: its count takes `k` past N (R251), or its next sample is cut
off by the end of the source (R253, R254). -/
def packetTooLong (n : Nat) : Eng Unit := do
  let s ← readState
  if s.pixK + n > pixelTotal s then raise .fileCorrupted else pure ()
@[inherit_doc packetTooLong] def sampleCut : Eng Unit := do
  let s ← readState
  if srcOff s + sampleSize s > srcLen s then raise .fileCorrupted else pure ()

/-- TGA.RUN of `n` pixels (R253): one sample decoded once. -/
def tgaRun (n : Nat) : Eng Unit := do
  packetTooLong n
  sampleCut
  let s ← readState
  let bs ← readSrc (sampleSize s)
  let p ← tgaSample bs
  forUpTo n (fun _ => placeNext p)

/-- TGA.RAW of `n` pixels (R254): the samples before a cut are placed. -/
def tgaRaw (n : Nat) : Eng Unit := do
  packetTooLong n
  forUpTo n (fun _ => do
    sampleCut
    tgaReadSample)

/-- TGA.RUN (R253): the count is `h[6:0] + 1`. -/
def execTgaRun (n : BitVec 7) (s : State) : Host.Outcome State Fault Refusal :=
  runToken .tgaDecodeRle (tgaRun (n.toNat + 1)) s

/-- TGA.RAW (R254): the count is `h[6:0] + 1`. -/
def execTgaRaw (n : BitVec 7) (s : State) : Host.Outcome State Fault Refusal :=
  runToken .tgaDecodeRle (tgaRaw (n.toNat + 1)) s

/-! ### Encoding -/

/-- `TgaPack(p)` at an output depth (R323). -/
def tgaPack (d : Nat) (p : Pixel) : List Byte := if d = 24 then pack24 p else pack32 p

/-- `EmitTgaRun(r, s)` (R263). -/
def emitTgaRun (r : Nat) (sample : List Byte) : List Byte := BitVec.ofNat 8 (0x80 + (r - 1)) :: sample

/-- `EmitTgaRaw(q)` (R264). -/
def emitTgaRaw (q : List (List Byte)) : List Byte := BitVec.ofNat 8 (q.length - 1) :: q.flatten

/-- The length of the raw packet at the head of a row: it stops before three equal samples, at `cap` or at
the end of the row (R262, inner loop). -/
def literalLengthTga : Nat → List (List Byte) → Nat
  | 0, _ => 0
  | _ + 1, [] => 0
  | _ + 1, [_] => 1
  | cap + 1, [_, b] => 1 + literalLengthTga cap [b]
  | cap + 1, a :: b :: c :: rest =>
    if a = b ∧ a = c then 0 else 1 + literalLengthTga cap (b :: c :: rest)

/-- `EncodeRowTGA(row)` as the bytes it emits (R262); each round takes at least one sample, so the row's
length is fuel enough. -/
def encodeRowTga : Nat → List (List Byte) → List Byte
  | 0, _ => []
  | _ + 1, [] => []
  | fuel + 1, v :: rest =>
    let r := 1 + leading v 127 rest
    if r ≥ 3 then emitTgaRun r v ++ encodeRowTga fuel ((v :: rest).drop r)
    else
      let j := literalLengthTga 128 (v :: rest)
      emitTgaRaw ((v :: rest).take j) ++ encodeRowTga fuel ((v :: rest).drop j)

/-- One row of TGA_ENCODE (R260, R261). -/
def tgaEncodeRow (y : Nat) : Eng Unit := do
  let s ← readState
  let ps ← readPixels y 0 (width s)
  if encRle s then outBytes (encodeRowTga (width s) (ps.map (tgaPack (outDepth s))))
  else outBytes (ps.map (tgaPack (outDepth s))).flatten

/-- The body of TGA_ENCODE (R260): rows from the bottom up. -/
def tgaEncodeBody : Eng Unit := do
  let s ← readState
  forUpTo (height s) (fun i => tgaEncodeRow (height s - 1 - i))

/-- TGA_ENCODE (R260). -/
def execTgaEncode (s : State) : Host.Outcome State Fault Refusal := runWhole .tgaEncode 0 tgaEncodeBody s

end Sys2Proof.Machine
end

