-- ==== Sys2Proof/Machine/Dispatch.lean ====
section
/-!
DEFINITION. The dispatch of an instruction to its meaning (40_commands.md R141; 41 R180, R181; 43 R242, R251).
-/

namespace Sys2Proof.Machine

def exec (i : Instr) (s : State) : Host.Outcome State Fault Refusal :=
  match i with
  | .palLoad arg => Sys2Proof.Machine.execPalLoad arg s
  | .pcxEgaLoad => Sys2Proof.Machine.execPcxEgaLoad s
  | .bmpDecodeRaw => Sys2Proof.Machine.execBmpDecodeRaw s
  | .bmpDecodeRle8 => Sys2Proof.Machine.execBmpDecodeRle8 s
  | .bmpDecodeRle4 => Sys2Proof.Machine.execBmpDecodeRle4 s
  | .bmpEncode => Sys2Proof.Machine.execBmpEncode s
  | .tgaDecodeRaw => Sys2Proof.Machine.execTgaDecodeRaw s
  | .tgaDecodeRle => Sys2Proof.Machine.execTgaDecodeRle s
  | .tgaEncode => Sys2Proof.Machine.execTgaEncode s
  | .pcxDecode => Sys2Proof.Machine.execPcxDecode s
  | .eolRle8 => Sys2Proof.Machine.execEolRle8 s
  | .eobRle8 => Sys2Proof.Machine.execEobRle8 s
  | .deltaRle8 => Sys2Proof.Machine.execDeltaRle8 s
  | .abs8 n => Sys2Proof.Machine.execAbs8 n s
  | .run8 c v => Sys2Proof.Machine.execRun8 c v s
  | .eolRle4 => Sys2Proof.Machine.execEolRle4 s
  | .eobRle4 => Sys2Proof.Machine.execEobRle4 s
  | .deltaRle4 => Sys2Proof.Machine.execDeltaRle4 s
  | .abs4 n => Sys2Proof.Machine.execAbs4 n s
  | .run4 c hi lo => Sys2Proof.Machine.execRun4 c hi lo s
  | .pcxRep k => Sys2Proof.Machine.execPcxRep k s
  | .pcxLit b => Sys2Proof.Machine.execPcxLit b s
  | .tgaRun n => Sys2Proof.Machine.execTgaRun n s
  | .tgaRaw n => Sys2Proof.Machine.execTgaRaw n s

end Sys2Proof.Machine
end

