-- ==== Sys2Proof/Machine/Fetch.lean ====
section
/-!
DEFINITION. What the engine does with a move: take the command word after a START (40_commands.md R140, R141),
or fetch the next token at SRC_POS (10_state.md R52; 41 R180, R190; 43 R240-R242, R251, R255).
-/

namespace Sys2Proof.Machine

/-- The engine's move: execute an instruction in the state its fetch left, or answer with no instruction. -/
inductive Action where
  | run (i : Instr) (s : State)
  | answer (o : Host.Outcome State Fault Refusal)
deriving Repr

/-- The two bytes of a BMP RLE token; ReadError when the source ends (R180, R190). -/
def fetchPair : Eng (Byte × Byte) := do
  let t ← readSrc 2
  pure (t.getD 0 0, t.getD 1 0)

/-- The byte of a PCX token, which `scanlineOver` found below SRC_LEN (R242). -/
def fetchByte : Eng Byte := do
  let t ← takeSrc 1
  pure (t.getD 0 0)

/-- The header of a TGA packet; FileCorrupted when the source ends (R251, R255). -/
def fetchHeader : Eng Byte := do
  let s ← readState
  if srcOff s ≥ srcLen s then raise .fileCorrupted else fetchByte

/-- Execute what a fetch gives; a fetch that raises ends the command (R341). -/
def fetched {α : Type} (op : Op) (fetch : Eng α) (token : α → Instr) (s : State) : Action :=
  match fetch s with
  | .ok a t => .run (token a) t
  | .error e t => .answer (conclude op id (.error e t))

/-- The engine's move. A reserved OP ends with Generic and has no other effect (R101, R143 gate 1). -/
def engineAction (s : State) : Action :=
  match s.phase with
  | .idle => .answer (.next s)
  | .start =>
    match decodeCommand s.csr.cmd with
    | .ok i => .run i s
    | .error _ => .answer (.next (s.goIdle .generic))
  | .rle8 => fetched .bmpDecodeRle8 fetchPair (fun p => decodeRle8 p.1 p.2) s
  | .rle4 => fetched .bmpDecodeRle4 fetchPair (fun p => decodeRle4 p.1 p.2) s
  | .tga =>
    if s.pixK < pixelTotal s then fetched .tgaDecodeRle fetchHeader decodeTga s
    else .answer (.next (endCommand .tgaDecodeRle true .success s))
  | .pcx =>
    if pcxEncoding s = 0 then .answer (pcxRawLine s)
    else if scanlineOver s then .answer (pcxLineEnd s)
    else fetched .pcxDecode fetchByte decodePcx s

/-! ### Placing an instruction where the engine takes its next one (assumption log 2) -/

/-- A state with the command word `w` started; the engine moves next. -/
def placeCommand (s : State) (w : Word) : State :=
  { s with turns := [], csr := { s.csr with cmd := w &&& 0x0000FFFF } }.startCommand

/-- A state in a token loop whose source is exactly the token's first bytes `head` and zeros up to its length;
the engine moves next. The registers of the loop's command are set as far as its loop test and the token's
samples need: a 128-column 24-bit image at 0x10000 for a TGA packet, a 64-byte scanline for a PCX token. -/
def placeToken (s : State) (i : Instr) (head : List Byte) : State :=
  let len := tokenLength 3 i
  let m := s.mem.writeBytes 0 (head ++ List.replicate (len - head.length) 0)
  let csr := { s.csr with srcBase := 0, srcLen := BitVec.ofNat 32 len }
  let t := { s with
    turns := [], mem := m, memStart := m, history := [], csr := csr, srcPos := 0, status := statusBusy }
  match i.stream with
  | .rle8 => { t with phase := .rle8, csr := { csr with cmd := 0x11 } }
  | .rle4 => { t with phase := .rle4, csr := { csr with cmd := 0x12 } }
  | .tga =>
    { t with
      phase := .tga, pixK := 0
      csr := { csr with cmd := 0x21, fmt := 24, width := 128, height := 1, pixBase := 0x10000, pixCap := 512 } }
  | _ =>
    { t with
      phase := .pcx, row := 0, line := [], exhausted := false
      csr := { csr with cmd := 0x30, fmt := 8, width := 64, height := 1, pcxCfg := 0x01010040 } }

/-- The state with the instruction of a table word (`decodeTableWord`) placed to be taken next. -/
def placeTableWord (s : State) (nbits w : Nat) : State :=
  match decodeTableWord nbits w with
  | none => placeCommand s (BitVec.ofNat 32 w)
  | some i =>
    match i.stream with
    | .command => placeCommand s (BitVec.ofNat 32 (if nbits ≤ 8 then w % 256 else w))
    | _ =>
      placeToken s i
        (if nbits ≤ 8 then [BitVec.ofNat 8 w] else [BitVec.ofNat 8 (w / 256), BitVec.ofNat 8 w])

end Sys2Proof.Machine
end

