-- ==== Sys2Proof/Machine/HostPort.lean ====
section
/-!
DEFINITION. The host's side: the register window (10_state.md R21-R24, R40, R49; 20_memory.md R84), bus memory
as the host reaches it (70_reset_and_hazards.md R380), and reset (R370, R371).
-/

namespace Sys2Proof.Machine

/-- The thirty registers of R22. -/
inductive Reg where
  | ctrl | cmd | status | srcBase | srcLen | srcPos | pixBase | pixCap | outBase | outCap | outLen
  | width | height | fmt | maskR | maskG | maskB | maskA | palCount | palOrigin | palIndex | palData
  | fill | pcxCfg | pcxAux | encCfg | curX | curY | pixDone | resultDepth
deriving DecidableEq, Repr

/-- The register at an offset of the window (R22); unmapped offsets have none (R21). -/
def regAt (off : Nat) : Option Reg :=
  match off with
  | 0x00 => some .ctrl
  | 0x04 => some .cmd
  | 0x08 => some .status
  | 0x0C => some .srcBase
  | 0x10 => some .srcLen
  | 0x14 => some .srcPos
  | 0x18 => some .pixBase
  | 0x1C => some .pixCap
  | 0x20 => some .outBase
  | 0x24 => some .outCap
  | 0x28 => some .outLen
  | 0x2C => some .width
  | 0x30 => some .height
  | 0x34 => some .fmt
  | 0x38 => some .maskR
  | 0x3C => some .maskG
  | 0x40 => some .maskB
  | 0x44 => some .maskA
  | 0x48 => some .palCount
  | 0x4C => some .palOrigin
  | 0x50 => some .palIndex
  | 0x54 => some .palData
  | 0x58 => some .fill
  | 0x5C => some .pcxCfg
  | 0x60 => some .pcxAux
  | 0x64 => some .encCfg
  | 0x68 => some .curX
  | 0x6C => some .curY
  | 0x70 => some .pixDone
  | 0x74 => some .resultDepth
  | _ => none

/-- The bits of a register that are not reserved (R23-R48); the others read 0 and ignore writes (R21). -/
def regMask (r : Reg) : Word :=
  match r with
  | .ctrl => 0x00000000
  | .cmd => 0x0000FFFF
  | .status => 0x00000703
  | .fmt => 0x007FFFFF
  | .palCount => 0x0001FFFF
  | .palOrigin => 0x0000FFFF
  | .palIndex => 0x0000FFFF
  | .pcxAux => 0x00FFFFFF
  | .encCfg => 0x0000013F
  | _ => 0xFFFFFFFF

/-- What a register stores; CTRL and PAL_DATA store nothing (R23, R40). -/
def regRaw (r : Reg) (s : State) : Word :=
  match r with
  | .ctrl => 0
  | .cmd => s.csr.cmd
  | .status => s.status
  | .srcBase => s.csr.srcBase
  | .srcLen => s.csr.srcLen
  | .srcPos => s.srcPos
  | .pixBase => s.csr.pixBase
  | .pixCap => s.csr.pixCap
  | .outBase => s.csr.outBase
  | .outCap => s.csr.outCap
  | .outLen => s.outLen
  | .width => s.csr.width
  | .height => s.csr.height
  | .fmt => s.csr.fmt
  | .maskR => s.csr.maskR
  | .maskG => s.csr.maskG
  | .maskB => s.csr.maskB
  | .maskA => s.csr.maskA
  | .palCount => s.palCount
  | .palOrigin => s.csr.palOrigin
  | .palIndex => s.csr.palIndex
  | .palData => 0
  | .fill => s.csr.fill
  | .pcxCfg => s.csr.pcxCfg
  | .pcxAux => s.csr.pcxAux
  | .encCfg => s.csr.encCfg
  | .curX => s.curX
  | .curY => s.curY
  | .pixDone => s.pixDone
  | .resultDepth => s.resultDepth

/-- The value of a register as it reads. -/
def regValue (r : Reg) (s : State) : Word := regRaw r s &&& regMask r

/-- `PAL_INDEX <- (PAL_INDEX + 1) mod 65536` (R40). -/
def State.nextPalIndex (s : State) : State :=
  { s with csr := { s.csr with palIndex := BitVec.ofNat 32 ((palIndex s + 1) % 65536) } }

/-- A host write of a register while the engine is idle (R21-R48). -/
def writeReg (r : Reg) (v : Word) (s : State) : State :=
  let w := v &&& regMask r
  match r with
  | .ctrl => if v.getLsbD 0 then s.startCommand else s
  | .cmd => { s with csr := { s.csr with cmd := w } }
  | .srcBase => { s with csr := { s.csr with srcBase := w } }
  | .srcLen => { s with csr := { s.csr with srcLen := w } }
  | .srcPos => { s with srcPos := w }
  | .pixBase => { s with csr := { s.csr with pixBase := w } }
  | .pixCap => { s with csr := { s.csr with pixCap := w } }
  | .outBase => { s with csr := { s.csr with outBase := w } }
  | .outCap => { s with csr := { s.csr with outCap := w } }
  | .width => { s with csr := { s.csr with width := w } }
  | .height => { s with csr := { s.csr with height := w } }
  | .fmt => { s with csr := { s.csr with fmt := w } }
  | .maskR => { s with csr := { s.csr with maskR := w } }
  | .maskG => { s with csr := { s.csr with maskG := w } }
  | .maskB => { s with csr := { s.csr with maskB := w } }
  | .maskA => { s with csr := { s.csr with maskA := w } }
  | .palCount => { s with palCount := w }
  | .palOrigin => { s with csr := { s.csr with palOrigin := w } }
  | .palIndex => { s with csr := { s.csr with palIndex := w } }
  | .palData => (s.palPut (palIndex s) v).nextPalIndex
  | .fill => { s with csr := { s.csr with fill := w } }
  | .pcxCfg => { s with csr := { s.csr with pcxCfg := w } }
  | .pcxAux => { s with csr := { s.csr with pcxAux := w } }
  | .encCfg => { s with csr := { s.csr with encCfg := w } }
  | .status | .outLen | .curX | .curY | .pixDone | .resultDepth => s

/-- A register access is an aligned 32-bit one (R84). R84 speaks of the address: testing the offset takes CSR_BASE as a
multiple of 4, which no rule says (DESIGN CHOICE, unsafe; assumption log 25). -/
def goodAccess (off : BitVec 8) (w : Width) : Bool := decide (w = .word) && decide (off.toNat % 4 = 0)

/-- A host write to the register window (R21, R49, R84). -/
def hostWrite (off : BitVec 8) (w : Width) (v : Word) (s : State) : Host.Outcome State Fault Refusal :=
  if !goodAccess off w then .refused .badRegisterAccess
  else if busy s then .next s
  else
    match regAt off.toNat with
    | some r => .next (writeReg r v s)
    | none => .next s

/-- The registers whose value while busy is unspecified (R49). -/
def unspecifiedWhileBusy (r : Reg) : Bool :=
  match r with
  | .srcPos | .curX | .curY | .pixDone | .outLen => true
  | _ => false

/-- The host's read returns `v`. -/
def State.answer (s : State) (v : Word) : State := { s with hostData := v }

/-- The host's read returns an unspecified value: a draw (assumption log 9). -/
def State.answerDraw (s : State) : State :=
  { s with hostData := Config.freeWord s.draws, draws := s.draws + 1 }

/-- A host read of PAL_DATA (R40, R57). -/
def readPalData (s : State) : State :=
  if busy s then s.answer 0
  else
    match cellGet? s.pal (palIndex s) with
    | some p => (s.answer p).nextPalIndex
    | none => s.answerDraw.nextPalIndex

/-- A host read of a register (R21, R40, R49). -/
def readReg (r : Reg) (s : State) : State :=
  match r with
  | .palData => readPalData s
  | _ => if busy s && unspecifiedWhileBusy r then s.answerDraw else s.answer (regValue r s)

/-- A host read of the register window (R21, R84). -/
def hostRead (off : BitVec 8) (w : Width) (s : State) : Host.Outcome State Fault Refusal :=
  if !goodAccess off w then .refused .badRegisterAccess
  else
    match regAt off.toNat with
    | some r => .next (readReg r s)
    | none => .next (s.answer 0)

/-- The regions of the running command, which the host may not access (R380); none while idle. -/
def guardedRegions (s : State) : List (Nat × Nat) :=
  if busy s then
    match decodeCommand s.csr.cmd with
    | .ok i => regionsOf (opOf i) s
    | .error _ => []
  else []

/-- The host may access a byte of bus memory now (R380). -/
def hostMayTouch (a : Word) (s : State) : Bool := !(guardedRegions s).any (inRegion a.toNat)

/-- The host writes a byte of bus memory. It is no write of the command, so it changes `memStart` too.
DESIGN CHOICE (log 27, unsafe): a byte in a range of `devices` is written as ordinary memory, since what lies at an address
is the platform's (R88). -/
def hostPoke (a : Word) (v : Byte) (s : State) : Host.Outcome State Fault Refusal :=
  if hostMayTouch a s then
    .next { s with mem := s.mem.write a.toNat v, memStart := s.memStart.write a.toNat v }
  else .refused .hostTouchesRegion

/-- The host reads a byte of bus memory.
DESIGN CHOICE (log 27, unsafe): a byte in a range of `devices` is read as ordinary memory, with no side effect, since what
lies at an address is the platform's (R88). -/
def hostPeek (a : Word) (s : State) : Host.Outcome State Fault Refusal :=
  if hostMayTouch a s then .next (s.answer ((s.mem.read a.toNat).setWidth 32))
  else .refused .hostTouchesRegion

/-- The state of R370 around the memory `m`; what is not the block's stays. -/
def State.resetKeeping (s : State) (m : Memory) : State :=
  { State.reset with
    mem := m
    memStart := m
    turns := s.turns
    hostData := s.hostData
    draws := s.draws
    devices := s.devices }

/-- What a command had done on the bus when it stopped with a fault. -/
def faultEvents : Fault → List BusEvent
  | .unwrittenPaletteEntry _ made => made
  | .noSuchBusAddress _ made => made

/-- What the running command of `s` has done on the bus by the end, or by the stop, of its next step, newest first. -/
def eventsOf (s : State) (next : Host.Outcome State Fault Refusal) : List BusEvent :=
  match next with
  | .next t => t.history
  | .fault f => faultEvents f
  | .refused _ => s.history

/-- Memory after a reset that aborts the running command: of the writes `evs` (newest first) it made or was
about to make in its next step, a drawn number of the oldest (R371; assumption log 10). -/
def abortedMemory (s : State) (evs : List BusEvent) : Memory :=
  let ws := writesOf evs.reverse
  s.memStart.replay (ws.take (Config.freeNat s.draws % (ws.length + 1)))

/-- Reset (R370, R371), where `next` is the engine step that reset cuts off. Where that step stops, the reset comes
before the stop: it always has a next state. -/
def platformReset (s : State) (next : Host.Outcome State Fault Refusal) :
    Host.Outcome State Fault Refusal :=
  .next
    (if busy s then { s with draws := s.draws + 1 }.resetKeeping (abortedMemory s (eventsOf s next))
    else s.resetKeeping s.mem)

/-- Whose move is next, and the state once that move is taken off the script; with no script left the engine
moves (assumption log 1). -/
def nextTurn (s : State) : Turn × State :=
  match s.turns with
  | [] => (.engine, s)
  | t :: rest => (t, { s with turns := rest })

/-- One move of an agent, given the engine's step. -/
def turnStep (engine : State → Host.Outcome State Fault Refusal) (t : Turn) (s : State) :
    Host.Outcome State Fault Refusal :=
  match t with
  | .engine => engine s
  | .regWrite off w v => hostWrite off w v s
  | .regRead off w => hostRead off w s
  | .poke a v => hostPoke a v s
  | .peek a => hostPeek a s
  | .reset => platformReset s (engine s)
  | .secondHost => .refused .secondHost

end Sys2Proof.Machine
end

