-- ==== Sys2Proof/Machine/Step.lean ====
section
/-!
DEFINITION. One step of the machine: the move of the agent whose turn it is (00_scope.md R11).
-/

namespace Sys2Proof.Machine

/-- The engine's step: the instruction it takes, executed. -/
def engineStep (s : State) : Host.Outcome State Fault Refusal :=
  match engineAction s with
  | .run i t => exec i t
  | .answer o => o

/-- One step: the next move of the script, or the engine's when the script is over. -/
def step (s : State) : Host.Outcome State Fault Refusal :=
  turnStep engineStep (nextTurn s).1 (nextTurn s).2

/-- `s` with the instruction of a table word where the next step takes it (assumption log 2, 3). -/
def State.withFetchWord (s : State) (nbits w : Nat) : State := placeTableWord s nbits w

end Sys2Proof.Machine
end

