-- ==== Sys2Proof/Safety.lean ====
section
/-!
DEFINITION. The terms in which the claims speak: what memory holds, when a command or a token is ready to run, what
a run may write, and the invariant of the machine.
-/

namespace Sys2Proof.Machine

/-! ### What memory holds -/

/-- `n` bytes of memory from address `a` on. -/
def Memory.bytesAt (m : Memory) (a n : Nat) : List Byte := (List.range n).map (fun i => m.read (a + i))

/-- The canonical pixel `(x, y)` that bus memory holds (R78). -/
def pixelAt (s : State) (x y : Nat) : Pixel := wordFromBytes (s.mem.bytesAt (pixAddr s x y) 4)

/-- The next `n` bytes of the source. -/
def srcBytes (s : State) (n : Nat) : List Byte := s.mem.bytesAt (srcBase s + srcOff s) n

/-- Byte address `a` is one of the four bytes of pixel `(x, y)`. -/
def inPixel (s : State) (x y a : Nat) : Prop := pixAddr s x y ≤ a ∧ a < pixAddr s x y + 4

/-- No byte outside the pixels `hit` of the image of `s` differs in `t`. -/
def untouched (s t : State) (hit : Nat → Nat → Prop) : Prop :=
  ∀ a, (∀ x y, x < width s → y < height s → hit x y → ¬ inPixel s x y a) → t.mem.read a = s.mem.read a

/-- The pixels `hit` of the image of `s` hold `value` in `t`, and no other byte differs. -/
def painted (s t : State) (hit : Nat → Nat → Prop) (value : Nat → Nat → Pixel) : Prop :=
  (∀ x y, x < width s → y < height s → hit x y → pixelAt t x y = value x y) ∧ untouched s t hit

/-- No byte outside the first `WIDTH*HEIGHT*4` bytes of PIX differs. -/
def onlyImage (s t : State) : Prop := untouched s t (fun _ _ => True)

/-- The bytes `bs` stand in `t` at `OUT_BASE` and on, and no other byte differs from `s`. -/
def outputIs (s t : State) (bs : List Byte) : Prop :=
  (∀ i, i < bs.length → t.mem.read (outBase s + i) = bs.getD i 0) ∧
  ∀ a, a < outBase s ∨ outBase s + bs.length ≤ a → t.mem.read a = s.mem.read a

/-! ### When a command or a token is ready to run -/

/-- Every gate of the command passes (R143), its regions are disjoint (R86) and none is on a device (R85). -/
def ready (op : Op) (arg : Byte) (s : State) : Prop := check op arg s = none ∧ regionsRefusal op s = none

/-- The source region is well formed (R71). -/
def sourceFits (s : State) : Prop := srcBase s + srcLen s ≤ 2 ^ Config.addrBits

/-- The image lies on the bus (R71). -/
def imageFits (s : State) : Prop := pixBase s + width s * height s * 4 ≤ 2 ^ Config.addrBits

/-- The gates that a command with a SRC region shares: the region is well formed and SRC_POS within it (R143, gates 3 and
4). -/
def sourceReady (s : State) : Prop := sourceFits s ∧ srcOff s ≤ srcLen s

/-- The gates that a command with a PIX region shares: the region is well formed and holds the image (R143, gates 3 and
5). -/
def imageReady (s : State) : Prop :=
  pixBase s + pixCap s ≤ 2 ^ Config.addrBits ∧ width s * height s * 4 ≤ pixCap s

/-- `n` more bytes of the source are there (R76). -/
def sourceHolds (s : State) (n : Nat) : Prop := srcOff s + n ≤ srcLen s

/-- The palette entry that a BMP index resolves to (R294). -/
def bmpEntry (s : State) (i : Nat) : Nat := if i < palEntries s then i else 0

/-- The pixel of a BMP index, when its entry is written. -/
def bmpColor (s : State) (i : Nat) : Pixel := (cellGet? s.pal (bmpEntry s i)).getD 0

/-- The pixels of the image that `n` indices placed from the cursor on fall on (R182). -/
def underCursor (s : State) (n : Nat) (x y : Nat) : Prop :=
  s.x.toInt ≤ x ∧ (x : Int) < s.x.toInt + n ∧ (y : Int) = s.y.toInt

/-- Which of the indices placed from the cursor on falls on column `x`. -/
def cursorStep (s : State) (x : Nat) : Nat := ((x : Int) - s.x.toInt).toNat

/-- Every palette entry that `n` indices placed from the cursor on look up is written (R57). -/
def indicesWritten (s : State) (n : Nat) (index : Nat → Nat) : Prop :=
  ∀ x y, x < width s → y < height s → underCursor s n x y →
    (cellGet? s.pal (bmpEntry s (index (cursorStep s x)))).isSome = true

/-- The canonical position of the `k`-th decoded TGA pixel (R252). -/
def tgaPlace (s : State) (k : Nat) : Nat × Nat := tgaMap s (k % width s) (k / width s)

/-- Canonical position `(x, y)` is that of one of the `n` decoded TGA pixels from the `k`-th on. -/
def tgaPlaced (s : State) (k n : Nat) (x y : Nat) : Prop := ∃ j, j < n ∧ tgaPlace s (k + j) = (x, y)

/-- Sample `j` of the samples that start at SRC_POS (R123). -/
def tgaSampleBytes (s : State) (j : Nat) : List Byte :=
  s.mem.bytesAt (srcBase s + srcOff s + j * sampleSize s) (sampleSize s)

/-- `s` with LINE as `data` and zeros up to the stride: the line a scanline's assembly reads (R241, R242). -/
def withLine (s : State) (data : List Byte) : State :=
  { s with line := data ++ List.replicate (pcxStride s - data.length) 0 }

/-- The byte at a source offset (R75). -/
def sourceByte (s : State) (off : Nat) : Byte := s.mem.read (srcBase s + off)

/-- The offset of the VGA trailer that `FindVGA` finds (R306). -/
def vgaTrailer (s : State) : Option Nat :=
  if srcOff s + 769 ≤ srcLen s ∧ sourceByte s (srcOff s) = 0x0C then some (srcOff s)
  else if 769 ≤ srcLen s ∧ sourceByte s (srcLen s - 769) = 0x0C then some (srcLen s - 769)
  else none

/-- Entry `i` of the VGA trailer at offset `t` (R306). -/
def vgaEntry (s : State) (t i : Nat) : Pixel :=
  bgra (sourceByte s (t + 1 + 3 * i + 2)) (sourceByte s (t + 1 + 3 * i + 1)) (sourceByte s (t + 1 + 3 * i)) 255

/-- The pixel of the scratch index `i` after the second pass (R307). -/
def vgaPixel (s : State) (i : Byte) : Pixel :=
  match vgaTrailer s with
  | some off => vgaEntry s off i.toNat
  | none => if palInfo s = 2 then bgra i i i 255 else opaqueBlack

/-- Palette entry `i` after the second pass (R306, R307). -/
def vgaPalette (s : State) (i : Nat) : Option Pixel :=
  match vgaTrailer s with
  | some off => if i < 256 then some (vgaEntry s off i) else cellGet? s.pal i
  | none => cellGet? s.pal i

/-- PAL_COUNT after the second pass (R306). -/
def vgaCount (s : State) : Word := if (vgaTrailer s).isSome = true then 256 else s.palCount

/-- An engine lookup or conversion that gives the pixel `p` and changes nothing. -/
def gives (m : Eng Pixel) (s : State) (p : Pixel) : Prop := m s = .ok p s

/-- Of the pixels `0 .. n-1` that `pixel` converts in turn, the first that needs an unwritten palette entry needs entry
`j` (R57). -/
def firstUnwritten (s : State) (n : Nat) (pixel : Nat → Eng Pixel) (j : Nat) : Prop :=
  ∃ k, k < n ∧ pixel k s = .error (.fault (.unwrittenPaletteEntry j s.history)) s ∧
    ∀ i, i < k → ∃ p, gives (pixel i) s p

/-- What a token that places indices looks up for its `k`-th one: nothing when it falls outside the image (R182). -/
def cursorPixel (s : State) (index : Nat → Nat) (k : Nat) : Eng Pixel :=
  if inImage s (s.x.toInt + k) s.y.toInt = true then lookupBmp (index k) else pure 0

/-- A step from `s` that stops at the unwritten palette entry `j`, whatever it did on the bus before (R57). -/
def stopsUnwritten (s : State) (j : Nat) (o : Host.Outcome State Fault Refusal) : Prop :=
  ∃ evs, o = .fault (.unwrittenPaletteEntry j (evs ++ s.history))

/-- The command of an instruction and its argument. -/
def argOf : Instr → Byte
  | .palLoad arg => arg
  | _ => 0

/-- The bus events of reading the next `n` bytes of the source, one at a time and newest first (R73, R75). -/
def sourceReads (s : State) (n : Nat) : List BusEvent :=
  ((List.range n).map fun i => ⟨.read, srcBase s + (srcOff s + i), sourceByte s (srcOff s + i)⟩).reverse

/-- `s` after a fetch of `n` source bytes, its reads recorded. -/
def afterFetch (s : State) (n : Nat) : State :=
  { s with srcPos := s.srcPos + BitVec.ofNat 32 n, history := sourceReads s n ++ s.history }

/-- `s` where its command has ended with `code` (R145, last line). -/
def ended (s : State) (code : Code) : State := { s with status := statusDone code, phase := .idle }

/-- `s` where a BMP RLE decode has ended with `code` (R145, R194). -/
def rleEnded (s : State) (code : Code) : State :=
  ended { s with curX := s.x.setWidth 32, curY := s.y.setWidth 32 } code

/-- `s` where a TGA decode of `k` pixels has ended with the error `code` (R145). -/
def tgaEnded (s : State) (k : Nat) (code : Code) : State :=
  ended { s with pixK := k, pixDone := BitVec.ofNat 32 k } code

/-- A register that the host writes and reads back, and nothing else follows a write of it (R21, R22). -/
def plainRegister (r : Reg) : Bool :=
  !([.ctrl, .status, .outLen, .palData, .curX, .curY, .pixDone, .resultDepth].contains r)

/-- A register that only the engine writes (R22). -/
def readOnlyRegister (r : Reg) : Bool := [.status, .outLen, .curX, .curY, .pixDone, .resultDepth].contains r

/-! ### What the encoders produce -/

/-- The pixels of canonical row `y`, left to right. -/
def imageRow (s : State) (y : Nat) : List Pixel := (List.range (width s)).map (fun x => pixelAt s x y)

/-- The bytes BMP_ENCODE emits for canonical row `y` (R220, R222, R223). -/
def bmpRowOutput (s : State) (y : Nat) : List Byte :=
  if encRle s then encodeRow8 (width s) ((imageRow s y).map luma) ++ [0, 0]
  else (imageRow s y).flatMap (packAt (outDepth s)) ++
    List.replicate (bmpStride (width s) (outDepth s) - width s * outDepth s / 8) 0

/-- The bytes TGA_ENCODE emits for canonical row `y` (R261, R262). -/
def tgaRowOutput (s : State) (y : Nat) : List Byte :=
  if encRle s then encodeRowTga (width s) ((imageRow s y).map (tgaPack (outDepth s)))
  else (imageRow s y).flatMap (tgaPack (outDepth s))

/-- Rows from the bottom up (R128, R129). -/
def bottomUp (s : State) (row : Nat → List Byte) : List Byte :=
  (List.range (height s)).flatMap (fun i => row (height s - 1 - i))

/-- The output of BMP_ENCODE (R220). -/
def bmpOutput (s : State) : List Byte :=
  bottomUp s (bmpRowOutput s) ++ (if encRle s then [0, 1] else [])

/-- The output of TGA_ENCODE (R260). -/
def tgaOutput (s : State) : List Byte := bottomUp s (tgaRowOutput s)

/-- What an RLE8 stream says of one row: the index bytes up to its EOL or EOB, and the bytes after that token. A
DELTA, or a token cut off, has no such reading. -/
def expandRow8 : Nat → List Byte → Option (List Byte × List Byte)
  | 0, _ => none
  | fuel + 1, b0 :: b1 :: rest =>
    match decodeRle8 b0 b1 with
    | .eolRle8 | .eobRle8 => some ([], rest)
    | .run8 c v => (expandRow8 fuel rest).map (fun r => (List.replicate c.toNat v ++ r.1, r.2))
    | .abs8 n =>
      if rest.length < evenUp n.toNat then none
      else (expandRow8 fuel (rest.drop (evenUp n.toNat))).map (fun r => (rest.take n.toNat ++ r.1, r.2))
    | _ => none
  | _ + 1, _ => none

/-- The samples of `size` bytes that a TGA packet stream says, up to its end. -/
def expandTga (size : Nat) : Nat → List Byte → Option (List (List Byte))
  | _, [] => some []
  | 0, _ => none
  | fuel + 1, h :: rest =>
    match decodeTga h with
    | .tgaRun n =>
      if rest.length < size then none
      else (expandTga size fuel (rest.drop size)).map (fun r => List.replicate (n.toNat + 1) (rest.take size) ++ r)
    | .tgaRaw n =>
      if rest.length < (n.toNat + 1) * size then none
      else (expandTga size fuel (rest.drop ((n.toNat + 1) * size))).map
        (fun r => (List.range (n.toNat + 1)).map (chunk rest size) ++ r)
    | _ => none

/-! ### The invariant -/

/-- The values STATUS can hold: after reset, while busy, and at an end with each code (R25). -/
def legalStatus (w : Word) : Prop := w = 0 ∨ w = statusBusy ∨ ∃ c, w = statusDone c

/-- The reserved bits of the registers are 0 (R21). -/
def reservedZero (s : State) : Prop := ∀ r, regRaw r s &&& regMask r = regRaw r s

/-- The command whose tokens a phase runs. -/
def phaseOp : Phase → Option Op
  | .idle | .start => none
  | .rle8 => some .bmpDecodeRle8
  | .rle4 => some .bmpDecodeRle4
  | .tga => some .tgaDecodeRle
  | .pcx => some .pcxDecode

/-- What holds of the machine while the tokens of command `op` run: CMD still selects it (R49), it is ready, and its
counters are in range. -/
structure Running (op : Op) (s : State) : Prop where
  selected : ∃ i, decodeCommand s.csr.cmd = .ok i ∧ opOf i = op
  ready : ready op 0 s
  pixels : op = .tgaDecodeRle → s.pixK ≤ pixelTotal s
  rows : op = .pcxDecode → s.row < height s
  lineLength : op = .pcxDecode → s.line.length ≤ pcxStride s
  memory : s.mem = s.memStart.replay s.history.reverse
  writes : ∀ e ∈ s.history, e.kind = .write → inRegion e.addr (pixRegion s) = true

/-- The invariant of the machine: its storage is in canonical form, STATUS holds a value of R25 whose BUSY bit says
whether a command runs, reserved bits read 0, and a running command is as `Running` says. -/
structure Inv (s : State) : Prop where
  memory : s.mem.wf = true
  memoryAtStart : s.memStart.wf = true
  palette : s.pal.wf = true
  status : legalStatus s.status
  busyPhase : busy s = true ↔ s.phase ≠ .idle
  reserved : reservedZero s
  atStart : s.phase = .start → s.history = [] ∧ s.mem = s.memStart
  running : ∀ op, phaseOp s.phase = some op → Running op s

end Sys2Proof.Machine
end

