-- ==== Sys2Proof/Certificates/Slice0/Obligations.lean ====
section
/-!
DEFINITION. The statements for the provers. Each docstring names the rules of spec/ that its statement formalises. A
statement of an instruction says that `exec` answers a next state `t`, which fields of `t` differ from `s` and how
(every field that `{ s with ... }` does not name is unchanged), and what memory holds in `t`.
-/

open Sys2Proof Sys2Proof.Machine

/-! ### Encoding (30_encoding.md) -/

/-- R100-R107: decoding the encoding of a well-formed instruction, in its stream and with any bytes after it, gives
that instruction and leaves those bytes. -/
def Obligations.DecodeOfEncodeIsTheInstruction : Prop :=
  ∀ (i : Instr) (rest : List Byte), i.wf = true → decode i.stream (encode i ++ rest) = .ok (i, rest)

/-- R102, R106, R107: every byte pair of a BMP RLE stream, every byte of a PCX scanline and every TGA header byte is a
token, well formed, and its encoding is those bytes again: no bit of a stream is dropped. -/
def Obligations.EveryStreamByteIsPartOfAToken : Prop :=
  ∀ b0 b1 : Byte,
    ((decodeRle8 b0 b1).wf = true ∧ (decodeRle8 b0 b1).stream = .rle8 ∧ encode (decodeRle8 b0 b1) = [b0, b1]) ∧
    ((decodeRle4 b0 b1).wf = true ∧ (decodeRle4 b0 b1).stream = .rle4 ∧ encode (decodeRle4 b0 b1) = [b0, b1]) ∧
    ((decodePcx b0).wf = true ∧ (decodePcx b0).stream = .pcx ∧ encode (decodePcx b0) = [b0]) ∧
    ((decodeTga b0).wf = true ∧ (decodeTga b0).stream = .tga ∧ encode (decodeTga b0) = [b0])

/-- R100-R107: one word of each family, written out from the tables of 30_encoding.md, decodes to the instruction
it stands for. -/
def Obligations.WordsOfTheSpecDecode : Prop :=
  decodeCommand 0x00000501 = .ok (.palLoad 5) ∧ decodeCommand 0x00000010 = .ok .bmpDecodeRaw ∧
  decodeCommand 0x00000018 = .ok .bmpEncode ∧ decodeCommand 0x00000021 = .ok .tgaDecodeRle ∧
  decodeCommand 0x00000030 = .ok .pcxDecode ∧ decodeRle8 0x05 0x07 = .run8 5 7 ∧
  decodeRle8 0x00 0x04 = .abs8 4 ∧ decodeRle8 0x00 0x02 = .deltaRle8 ∧ decodeRle4 0x06 0xA3 = .run4 6 0xA 3 ∧
  decodeRle4 0x00 0x00 = .eolRle4 ∧ decodePcx 0xC3 = .pcxRep 3 ∧ decodePcx 0x3F = .pcxLit 0x3F ∧
  decodeTga 0x82 = .tgaRun 2 ∧ decodeTga 0x02 = .tgaRaw 2

/-- R100, R101: exactly the ten opcodes of the table decode; an instruction so decoded is a command that has that
opcode, and its argument when it is PAL_LOAD; no bit of CMD above bit 15 matters, nor ARG of another command. -/
def Obligations.TenOpcodesDecode : Prop :=
  ∀ w : Word,
    ((∃ i, decodeCommand w = .ok i) ↔
      [0x01, 0x02, 0x10, 0x11, 0x12, 0x18, 0x20, 0x21, 0x28, 0x30].contains (byteOf w 0) = true) ∧
    (∀ i, decodeCommand w = .ok i →
      i.stream = .command ∧ encode i = [byteOf w 0, if byteOf w 0 = 1 then byteOf w 1 else 0, 0, 0])

/-! ### One step -/

/-- R140, R141, log 1, log 11: after a START the engine runs the command that CMD holds (R140, R141). The rest is the
model's choice. A step is the next move of the script, on the state without that move; when the script is over it is the
engine's, and the engine's step changes nothing while idle (log 1). The engine's step after a START is one `exec` of the
decoded command (log 11). -/
def Obligations.StepRunsTheStartedCommand : Prop :=
  ∀ (s : State) (m : Turn) (rest : List Turn) (i : Instr),
    (s.turns = m :: rest → step s = turnStep engineStep m { s with turns := rest }) ∧
    (s.turns = [] → step s = engineStep s) ∧
    (s.phase = .start → decodeCommand s.csr.cmd = .ok i → engineStep s = exec i s) ∧
    (s.phase = .idle → engineStep s = .next s)

/-- R52, R180, R181, R242, R251, R73, log 11: in a token loop the engine's step fetches the token's first bytes at SRC_POS,
one read of the bus for each, advances SRC_POS past them, and runs the token they decode to. That a step is one token is the
model's choice (log 11). -/
def Obligations.StepRunsTheFetchedToken : Prop :=
  ∀ s : State, s.turns = [] → sourceFits s →
    (s.phase = .rle8 → sourceHolds s 2 → step s =
      exec (decodeRle8 ((srcBytes s 2).getD 0 0) ((srcBytes s 2).getD 1 0)) (afterFetch s 2)) ∧
    (s.phase = .rle4 → sourceHolds s 2 → step s =
      exec (decodeRle4 ((srcBytes s 2).getD 0 0) ((srcBytes s 2).getD 1 0)) (afterFetch s 2)) ∧
    (s.phase = .tga → s.pixK < pixelTotal s → sourceHolds s 1 → step s =
      exec (decodeTga ((srcBytes s 1).getD 0 0)) (afterFetch s 1)) ∧
    (s.phase = .pcx → pcxEncoding s ≠ 0 → scanlineOver s = false → step s =
      exec (decodePcx ((srcBytes s 1).getD 0 0)) (afterFetch s 1))

/-- R190, R251, R255, R299: a stream that ends where a token must start. An RLE stream without an EOB ends with ReadError,
nothing read; a TGA stream that is short of pixels ends with FileCorrupted; a TGA image that is complete ends with
Success and writes RESULT_DEPTH: 32 for 32-bit color, for 16-bit color or gray with alpha bits and for 32-bit color map
entries, else 24. -/
def Obligations.StreamEndsWithoutAToken : Prop :=
  ∀ s : State, s.turns = [] →
    (s.phase = .rle8 ∨ s.phase = .rle4 → ¬ sourceHolds s 2 → step s = .next (rleEnded s .readError)) ∧
    (s.phase = .tga → s.pixK < pixelTotal s → ¬ sourceHolds s 1 →
      step s = .next (tgaEnded s s.pixK .fileCorrupted)) ∧
    (s.phase = .tga → pixelTotal s ≤ s.pixK →
      step s = .next { tgaEnded s s.pixK .success with
        resultDepth :=
          if (kind s = 0 ∧ depth s = 32) ∨ (kind s = 0 ∧ depth s = 16 ∧ 0 < alphaBits s) ∨
            (kind s = 2 ∧ depth s = 16 ∧ 0 < alphaBits s) ∨ (kind s = 1 ∧ cmapDepth s = 32) then 32 else 24 })

/-! ### BMP RLE tokens (41_bmp_rle_decode.md) -/

/-- R183: RUN8 places `c` times the index `v` from the cursor on, drops what falls outside the image, and moves X by
`c`. -/
def Obligations.Run8PlacesOneIndex : Prop :=
  ∀ (c v : Byte) (s : State), imageFits s → indicesWritten s c.toNat (fun _ => v.toNat) →
    ∃ t, exec (.run8 c v) s = .next t ∧
      t = { s with x := s.x + BitVec.ofNat 64 c.toNat, mem := t.mem, history := t.history } ∧
      painted s t (underCursor s c.toNat) (fun _ _ => bmpColor s v.toNat)

/-- R184: RUN4 places the indices `hi, lo, hi, ...` from the cursor on, `c` in all, and moves X by `c`. -/
def Obligations.Run4AlternatesTwoIndices : Prop :=
  ∀ (c : Byte) (hi lo : BitVec 4) (s : State), imageFits s →
    indicesWritten s c.toNat (fun k => if k % 2 = 0 then hi.toNat else lo.toNat) →
    ∃ t, exec (.run4 c hi lo) s = .next t ∧
      t = { s with x := s.x + BitVec.ofNat 64 c.toNat, mem := t.mem, history := t.history } ∧
      painted s t (underCursor s c.toNat)
        (fun x _ => bmpColor s (if cursorStep s x % 2 = 0 then hi.toNat else lo.toNat))

/-- R188: ABS8 reads `n` index bytes and the padding, places them from the cursor on and moves X by `n`; when they
are not all there it raises ReadError, with nothing read and no pixel written. -/
def Obligations.Abs8PlacesItsBytes : Prop :=
  ∀ (n : Byte) (s : State), sourceFits s →
    (sourceHolds s (evenUp n.toNat) → imageFits s →
      indicesWritten s n.toNat (fun k => ((srcBytes s (evenUp n.toNat)).getD k 0).toNat) →
      ∃ t, exec (.abs8 n) s = .next t ∧
        t = { s with
          srcPos := s.srcPos + BitVec.ofNat 32 (evenUp n.toNat)
          x := s.x + BitVec.ofNat 64 n.toNat
          mem := t.mem
          history := t.history } ∧
        painted s t (underCursor s n.toNat)
          (fun x _ => bmpColor s ((srcBytes s (evenUp n.toNat)).getD (cursorStep s x) 0).toNat)) ∧
    (¬ sourceHolds s (evenUp n.toNat) → exec (.abs8 n) s = .next (rleEnded s .readError))

/-- R189: ABS4 reads `ceil(n/2)` bytes of packed indices, high nibble first, and the padding, places `n` indices from
the cursor on and moves X by `n`; when the bytes are not all there it raises ReadError, with nothing read and no pixel
written. -/
def Obligations.Abs4PlacesItsNibbles : Prop :=
  ∀ (n : Byte) (s : State), sourceFits s →
    (sourceHolds s (evenUp ((n.toNat + 1) / 2)) → imageFits s →
      indicesWritten s n.toNat
        (fun k => nibbleIndex ((srcBytes s (evenUp ((n.toNat + 1) / 2))).getD (k / 2) 0) k) →
      ∃ t, exec (.abs4 n) s = .next t ∧
        t = { s with
          srcPos := s.srcPos + BitVec.ofNat 32 (evenUp ((n.toNat + 1) / 2))
          x := s.x + BitVec.ofNat 64 n.toNat
          mem := t.mem
          history := t.history } ∧
        painted s t (underCursor s n.toNat)
          (fun x _ => bmpColor s (nibbleIndex
            ((srcBytes s (evenUp ((n.toNat + 1) / 2))).getD (cursorStep s x / 2) 0) (cursorStep s x)))) ∧
    (¬ sourceHolds s (evenUp ((n.toNat + 1) / 2)) → exec (.abs4 n) s = .next (rleEnded s .readError))

/-- R185: EOL, in either stream, sets X to 0 and moves Y one row: down when the image is stored top-down, else up.
Nothing else changes. -/
def Obligations.EolStartsTheNextRow : Prop :=
  ∀ (i : Instr) (s : State), i = .eolRle8 ∨ i = .eolRle4 →
    exec i s = .next { s with x := 0, y := if topdown s = true then s.y + 1 else s.y - 1 }

/-- R186, R194: EOB, in either stream, ends the command with Success and latches the cursor; it reads nothing, so
SRC_POS stays just after its two bytes. -/
def Obligations.EobEndsWithSuccess : Prop :=
  ∀ (i : Instr) (s : State), i = .eobRle8 ∨ i = .eobRle4 → exec i s = .next (rleEnded s .success)

/-- R187 with P_DELTA_TOPDOWN = TOWARD_TOP (90_conflicts.md C11): DELTA, in either stream, reads `dx dy`, moves X right
by `dx` and Y toward the image top by `dy`, and writes no pixel; when the two bytes are not there it raises ReadError
with nothing read. -/
def Obligations.DeltaMovesTheCursor : Prop :=
  ∀ (i : Instr) (s : State), i = .deltaRle8 ∨ i = .deltaRle4 → sourceFits s →
    (sourceHolds s 2 →
      ∃ t, exec i s = .next t ∧
        t = { s with
          srcPos := s.srcPos + 2
          x := s.x + ((srcBytes s 2).getD 0 0).setWidth 64
          y := s.y - ((srcBytes s 2).getD 1 0).setWidth 64
          history := t.history }) ∧
    (¬ sourceHolds s 2 → exec i s = .next (rleEnded s .readError))

/-- R192, R180, R181, R50, R51: a BMP RLE decode that is ready fills every pixel with FILL, sets X to 0 and Y to the
start row, touches no other byte, and goes on to its token loop. -/
def Obligations.RleDecodeStartsWithTheFill : Prop :=
  ∀ (i : Instr) (op : Op) (ph : Phase) (s : State),
    (i = .bmpDecodeRle8 ∧ op = .bmpDecodeRle8 ∧ ph = .rle8) ∨ (i = .bmpDecodeRle4 ∧ op = .bmpDecodeRle4 ∧ ph = .rle4) →
    ready op 0 s →
    ∃ t, exec i s = .next t ∧
      t = { s with outN := 0, x := 0, y := t.y, phase := ph, mem := t.mem, history := t.history } ∧
      t.y.toInt = (if topdown s = true then 0 else (height s : Int) - 1) ∧
      painted s t (fun _ _ => True) (fun _ _ => s.csr.fill)

/-- R57, R346: an engine lookup of an unwritten palette entry faults. So stop, at the first such entry they need: RUN8, RUN4,
ABS8 and ABS4, of their indices that fall inside the image; BMP_DECODE_RAW, its pixels in stored order;
TGA_DECODE_RAW and TGA.RAW, of the samples that are there; TGA.RUN, of its one sample; the step that assembles a PCX
scanline. -/
def Obligations.UnwrittenEntryFaults : Prop :=
  ∀ (s : State) (j : Nat),
    (∀ (i : Instr) (n : Nat) (index : Nat → Nat), imageFits s →
      (∃ c v, i = .run8 c v ∧ n = c.toNat ∧ index = fun _ => v.toNat) ∨
        (∃ c hi lo, i = .run4 c hi lo ∧ n = c.toNat ∧ index = fun k => if k % 2 = 0 then hi.toNat else lo.toNat) ∨
        (∃ c, i = .abs8 c ∧ n = c.toNat ∧ sourceFits s ∧ sourceHolds s (evenUp n) ∧
          index = fun k => ((srcBytes s (evenUp n)).getD k 0).toNat) ∨
        (∃ c, i = .abs4 c ∧ n = c.toNat ∧ sourceFits s ∧ sourceHolds s (evenUp ((n + 1) / 2)) ∧
          index = fun k => nibbleIndex ((srcBytes s (evenUp ((n + 1) / 2))).getD (k / 2) 0) k) →
      firstUnwritten s n (cursorPixel s index) j → stopsUnwritten s j (exec i s)) ∧
    (∀ stride, ready .bmpDecodeRaw 0 s → stride = bmpStride (width s) (depth s) → sourceHolds s (stride * height s) →
      firstUnwritten s (width s * height s)
        (fun k => bmpPixel (chunk (srcBytes s (stride * height s)) stride (k / width s)) (k % width s)) j →
      stopsUnwritten s j (exec .bmpDecodeRaw s)) ∧
    (∀ n, ready .tgaDecodeRaw 0 s → n ≤ pixelTotal s → sourceHolds s (n * sampleSize s) →
      firstUnwritten s n (fun k => tgaSample (tgaSampleBytes s k)) j → stopsUnwritten s j (exec .tgaDecodeRaw s)) ∧
    (∀ h : BitVec 7, ready .tgaDecodeRle 0 s → s.pixK + (h.toNat + 1) ≤ pixelTotal s →
      (sourceHolds s (sampleSize s) → firstUnwritten s 1 (fun _ => tgaSample (tgaSampleBytes s 0)) j →
        stopsUnwritten s j (exec (.tgaRun h) s)) ∧
      ∀ n, n ≤ h.toNat + 1 → sourceHolds s (n * sampleSize s) →
        firstUnwritten s n (fun k => tgaSample (tgaSampleBytes s k)) j → stopsUnwritten s j (exec (.tgaRaw h) s)) ∧
    (∀ z, s.phase = .pcx → ready .pcxDecode 0 s → s.row < height s →
      (pcxEncoding s = 1 ∧ scanlineOver s = true ∧ s.line.length ≤ pcxStride s ∧ z = withLine s s.line) ∨
        (pcxEncoding s = 0 ∧ z = withLine s (srcBytes s (min (pcxStride s) (srcLen s - srcOff s)))) →
      firstUnwritten z (width s) pcxPixel j → stopsUnwritten s j (engineStep s))

/-- R386, R52: an engine step of an RLE decode ends the command, or stays in its loop with SRC_POS at least two
bytes further and still within SRC_LEN: so at most SRC_LEN / 2 tokens are run. -/
def Obligations.RleLoopConsumesTheSource : Prop :=
  ∀ s t : State, Inv s → s.phase = .rle8 ∨ s.phase = .rle4 → engineStep s = .next t →
    t.phase = .idle ∨ (t.phase = s.phase ∧ srcOff s + 2 ≤ srcOff t ∧ srcOff t ≤ srcLen t ∧ t.csr = s.csr)

/-! ### BMP uncompressed and palettes (44_convert.md) -/

/-- R289, R79: BMP_DECODE_RAW, ready and with its whole payload, reads `stride*HEIGHT` bytes, writes at each pixel what
`BmpPixel` gives of its stored row, touches no other byte and ends with Success; with a shorter payload it ends with
ReadError before any pixel is written. -/
def Obligations.BmpRawDecodesEveryPixel : Prop :=
  ∀ (s : State) (stride : Nat), ready .bmpDecodeRaw 0 s → stride = bmpStride (width s) (depth s) →
    (sourceHolds s (stride * height s) →
      (∀ r x, r < height s → x < width s →
        ∃ p, gives (bmpPixel (chunk (srcBytes s (stride * height s)) stride r) x) s p) →
      ∃ t, exec .bmpDecodeRaw s = .next t ∧
        t = { ended s .success with
          srcPos := s.srcPos + BitVec.ofNat 32 (stride * height s)
          outN := 0
          mem := t.mem
          history := t.history } ∧
        (∀ r x p, r < height s → x < width s →
          gives (bmpPixel (chunk (srcBytes s (stride * height s)) stride r) x) s p →
          pixelAt t x (if topdown s = true then r else height s - 1 - r) = p) ∧
        onlyImage s t) ∧
    (¬ sourceHolds s (stride * height s) → exec .bmpDecodeRaw s = .next { ended s .readError with outN := 0 })

/-- R285-R288, R284: what `BmpPixel` gives at each depth: the palette pixel of the index at 1, 4 and 8, the masked
fields or the scaled 5-5-5 fields at 16, the bytes themselves with alpha 255 at 24 and (without masks) 32. -/
def Obligations.BmpPixelFormats : Prop :=
  ∀ (s : State) (row : List Byte) (x : Nat),
    (depth s ≤ 8 → ∀ p,
      cellGet? s.pal (bmpEntry s (packedIndex (row.getD (x * depth s / 8) 0) (depth s) x)) = some p →
      gives (bmpPixel row x) s p) ∧
    (depth s = 16 → gives (bmpPixel row x) s
      (if bitfields s = true then
        bitfield ((le16 (row.getD (2 * x) 0) (row.getD (2 * x + 1) 0)).setWidth 32)
          s.csr.maskR s.csr.maskG s.csr.maskB s.csr.maskA
      else
        bgra (BitVec.ofNat 8 (bits (le16 (row.getD (2 * x) 0) (row.getD (2 * x + 1) 0)) 0 5 * 255 / 31))
          (BitVec.ofNat 8 (bits (le16 (row.getD (2 * x) 0) (row.getD (2 * x + 1) 0)) 5 5 * 255 / 31))
          (BitVec.ofNat 8 (bits (le16 (row.getD (2 * x) 0) (row.getD (2 * x + 1) 0)) 10 5 * 255 / 31)) 255)) ∧
    (depth s = 24 → gives (bmpPixel row x) s
      (bgra (row.getD (3 * x) 0) (row.getD (3 * x + 1) 0) (row.getD (3 * x + 2) 0) 255)) ∧
    (depth s = 32 → gives (bmpPixel row x) s
      (if bitfields s = true then
        bitfield (le32 (row.getD (4 * x) 0) (row.getD (4 * x + 1) 0) (row.getD (4 * x + 2) 0) (row.getD (4 * x + 3) 0))
          s.csr.maskR s.csr.maskG s.csr.maskB s.csr.maskA
      else bgra (row.getD (4 * x) 0) (row.getD (4 * x + 1) 0) (row.getD (4 * x + 2) 0) 255))

/-- R284: a mask channel is at most 255 whatever the nonzero mask; it is 255 when every bit of the mask is set in the
value, and 0 when none is. -/
def Obligations.MaskChannelIsAByte : Prop :=
  ∀ v m : Word, m ≠ 0 → chan v m ≤ 255 ∧ (v &&& m = m → chan v m = 255) ∧ (v &&& m = 0 → chan v m = 0)

/-- R300, R57: PAL_LOAD, ready and with all its bytes, writes the first PAL_COUNT entries, each what `Entry` gives of its
bytes, keeps every other entry, and ends with Success, SRC_POS after the entries; with fewer bytes it ends with
ReadError and writes no entry. Memory does not change. -/
def Obligations.PalLoadWritesItsEntries : Prop :=
  ∀ (arg : Byte) (s : State) (n : Nat), ready .palLoad arg s → n = palEntries s * entrySize arg →
    (sourceHolds s n →
      ∃ t, exec (.palLoad arg) s = .next t ∧
        t = { ended s .success with
          srcPos := s.srcPos + BitVec.ofNat 32 n
          outN := 0
          pal := t.pal
          history := t.history } ∧
        ∀ i, cellGet? t.pal i =
          if i < palEntries s then some (paletteEntry arg (chunk (srcBytes s n) (entrySize arg) i))
          else cellGet? s.pal i) ∧
    (¬ sourceHolds s n → exec (.palLoad arg) s = .next { ended s .readError with outN := 0 })

/-- R301, R127: the size of an entry of each format, and the pixel of its bytes. -/
def Obligations.PaletteEntryFormats : Prop :=
  ∀ e0 e1 e2 e3 : Byte,
    (entrySize 0 = 3 ∧ paletteEntry 0 [e0, e1, e2] = bgra e0 e1 e2 255) ∧
    (entrySize 1 = 4 ∧ paletteEntry 1 [e0, e1, e2, e3] = bgra e0 e1 e2 255) ∧
    (entrySize 2 = 2 ∧ paletteEntry 2 [e0, e1] =
      bgra (BitVec.ofNat 8 (bits (le16 e0 e1) 0 5 * 255 / 31)) (BitVec.ofNat 8 (bits (le16 e0 e1) 5 5 * 255 / 31))
        (BitVec.ofNat 8 (bits (le16 e0 e1) 10 5 * 255 / 31)) 255) ∧
    (entrySize 3 = 2 ∧ paletteEntry 3 [e0, e1] = paletteEntry 2 [e0, e1]) ∧
    (entrySize 4 = 3 ∧ paletteEntry 4 [e0, e1, e2] = bgra e0 e1 e2 255) ∧
    (entrySize 5 = 4 ∧ paletteEntry 5 [e0, e1, e2, e3] = bgra e0 e1 e2 e3) ∧
    (entrySize 6 = 3 ∧ paletteEntry 6 [e0, e1, e2] = bgra e2 e1 e0 255)

/-- R304: PCX_EGA_LOAD, ready and with its 48 bytes, writes entries 0 to 15: the built-in palette when VERSION is 0 or 3
or every byte is 0, else the header's red, green, blue triples with alpha 255; it keeps every other entry, sets
PAL_COUNT to 16 and ends with Success. With fewer bytes it ends with ReadError and changes neither PAL nor PAL_COUNT. -/
def Obligations.EgaLoadWritesSixteenEntries : Prop :=
  ∀ (s : State) (h : List Byte), ready .pcxEgaLoad 0 s → h = srcBytes s 48 →
    (sourceHolds s 48 →
      ∃ t, exec .pcxEgaLoad s = .next t ∧
        t = { ended s .success with
          srcPos := s.srcPos + 48
          outN := 0
          pal := t.pal
          palCount := 16
          history := t.history } ∧
        ∀ i, cellGet? t.pal i =
          if i < 16 then
            some (if pcxVersion s = 0 ∨ pcxVersion s = 3 ∨ (∀ j, j < 48 → h.getD j 0 = 0) then egaDefault.getD i 0
              else bgra (h.getD (3 * i + 2) 0) (h.getD (3 * i + 1) 0) (h.getD (3 * i) 0) 255)
          else cellGet? s.pal i) ∧
    (¬ sourceHolds s 48 → exec .pcxEgaLoad s = .next { ended s .readError with outN := 0 })

/-- R294, R295, R296, R57: the three palette lookups. BMP: an index at or above PAL_COUNT gives entry 0. PCX: opaque black
when no palette is loaded, else as BMP. TGA: opaque black outside the color map, entry `i - PAL_ORIGIN` inside. In each, the
entry faults when it is unwritten. -/
def Obligations.PaletteLookups : Prop :=
  ∀ (s : State) (i : Nat),
    (∀ p, cellGet? s.pal (if i < palEntries s then i else 0) = some p → gives (lookupBmp i) s p) ∧
    (∀ j, j = (if i < palEntries s then i else 0) → cellGet? s.pal j = none →
      lookupBmp i s = .error (.fault (.unwrittenPaletteEntry j s.history)) s) ∧
    (palEntries s = 0 → gives (lookupPcx i) s opaqueBlack) ∧
    (palEntries s ≠ 0 → ∀ p, cellGet? s.pal (if i < palEntries s then i else 0) = some p →
      gives (lookupPcx i) s p) ∧
    (palEntries s ≠ 0 → ∀ j, j = (if i < palEntries s then i else 0) → cellGet? s.pal j = none →
      lookupPcx i s = .error (.fault (.unwrittenPaletteEntry j s.history)) s) ∧
    (i < palOrigin s ∨ palOrigin s + palEntries s ≤ i → gives (lookupTga i) s opaqueBlack) ∧
    (∀ j p, i = palOrigin s + j → j < palEntries s → cellGet? s.pal j = some p → gives (lookupTga i) s p) ∧
    (∀ j, i = palOrigin s + j → j < palEntries s → cellGet? s.pal j = none →
      lookupTga i s = .error (.fault (.unwrittenPaletteEntry j s.history)) s)

/-! ### TGA (43_scanline_codec.md, 44_convert.md) -/

/-- R250, R252, R145, R299: TGA_DECODE_RAW, ready and with its whole payload, places the pixel of sample `k` at its canonical
position for every `k`, touches no byte outside the image, and ends with Success, PIX_DONE the number of pixels, SRC_POS
after the payload, RESULT_DEPTH 32 for 32-bit color, for 16-bit color or gray with alpha bits and for 32-bit color map
entries, else 24. -/
def Obligations.TgaRawDecodesEveryPixel : Prop :=
  ∀ (s : State) (n : Nat), ready .tgaDecodeRaw 0 s → n = pixelTotal s → sourceHolds s (n * sampleSize s) →
    (∀ k, k < n → ∃ p, gives (tgaSample (tgaSampleBytes s k)) s p) →
    ∃ t, exec .tgaDecodeRaw s = .next t ∧
      t = { tgaEnded s n .success with
        resultDepth :=
          if (kind s = 0 ∧ depth s = 32) ∨ (kind s = 0 ∧ depth s = 16 ∧ 0 < alphaBits s) ∨
            (kind s = 2 ∧ depth s = 16 ∧ 0 < alphaBits s) ∨ (kind s = 1 ∧ cmapDepth s = 32) then 32 else 24
        srcPos := s.srcPos + BitVec.ofNat 32 (n * sampleSize s)
        outN := 0
        mem := t.mem
        history := t.history } ∧
      (∀ k p, k < n → gives (tgaSample (tgaSampleBytes s k)) s p →
        pixelAt t (tgaPlace s k).1 (tgaPlace s k).2 = p) ∧
      onlyImage s t

/-- R250, R343, R147: TGA_DECODE_RAW with a payload that ends inside sample `n` ends with ReadError after it placed the
`n` samples before, PIX_DONE and SRC_POS saying so; RESULT_DEPTH is unchanged. -/
def Obligations.TgaRawShortPayload : Prop :=
  ∀ (s : State) (n : Nat), ready .tgaDecodeRaw 0 s → n < pixelTotal s →
    sourceHolds s (n * sampleSize s) → ¬ sourceHolds s ((n + 1) * sampleSize s) →
    (∀ k, k < n → ∃ p, gives (tgaSample (tgaSampleBytes s k)) s p) →
    ∃ t, exec .tgaDecodeRaw s = .next t ∧
      t = { tgaEnded s n .readError with
        srcPos := s.srcPos + BitVec.ofNat 32 (n * sampleSize s)
        outN := 0
        mem := t.mem
        history := t.history } ∧
      (∀ k p, k < n → gives (tgaSample (tgaSampleBytes s k)) s p →
        pixelAt t (tgaPlace s k).1 (tgaPlace s k).2 = p) ∧
      untouched s t (tgaPlaced s 0 n)

/-- R251, R240: TGA_DECODE_RLE and PCX_DECODE, when ready, set their counters and go on to their loops; nothing else
changes. -/
def Obligations.PacketAndScanlineLoopsStart : Prop :=
  ∀ s : State,
    (ready .tgaDecodeRle 0 s → exec .tgaDecodeRle s = .next { s with outN := 0, pixK := 0, phase := .tga }) ∧
    (ready .pcxDecode 0 s → exec .pcxDecode s =
      .next { s with outN := 0, row := 0, line := [], exhausted := false, phase := .pcx })

/-- R253: TGA.RUN places `h[6:0] + 1` copies of the pixel of one sample at the next positions, and touches no other
byte; a count past N, or a sample cut off by the end of the source, raises FileCorrupted before any sample is read. -/
def Obligations.TgaRunRepeatsOnePixel : Prop :=
  ∀ (h : BitVec 7) (s : State) (n : Nat), ready .tgaDecodeRle 0 s → n = h.toNat + 1 →
    (s.pixK + n ≤ pixelTotal s → sourceHolds s (sampleSize s) →
      ∀ p, gives (tgaSample (tgaSampleBytes s 0)) s p →
      ∃ t, exec (.tgaRun h) s = .next t ∧
        t = { s with
          srcPos := s.srcPos + BitVec.ofNat 32 (sampleSize s)
          pixK := s.pixK + n
          mem := t.mem
          history := t.history } ∧
        painted s t (tgaPlaced s s.pixK n) (fun _ _ => p)) ∧
    (pixelTotal s < s.pixK + n ∨ ¬ sourceHolds s (sampleSize s) →
      exec (.tgaRun h) s = .next (tgaEnded s s.pixK .fileCorrupted))

/-- R254: TGA.RAW places the pixels of its `h[6:0] + 1` samples at the next positions, each sample its own, and touches
no other byte; a count past N raises FileCorrupted before any sample is read; when sample `m` is cut off by the end of
the source (R255), FileCorrupted is raised after the `m` samples before were placed. -/
def Obligations.TgaRawPacketPlacesItsSamples : Prop :=
  ∀ (h : BitVec 7) (s : State) (n : Nat), ready .tgaDecodeRle 0 s → n = h.toNat + 1 →
    (s.pixK + n ≤ pixelTotal s → sourceHolds s (n * sampleSize s) →
      (∀ j, j < n → ∃ p, gives (tgaSample (tgaSampleBytes s j)) s p) →
      ∃ t, exec (.tgaRaw h) s = .next t ∧
        t = { s with
          srcPos := s.srcPos + BitVec.ofNat 32 (n * sampleSize s)
          pixK := s.pixK + n
          mem := t.mem
          history := t.history } ∧
        (∀ j p, j < n → gives (tgaSample (tgaSampleBytes s j)) s p →
          pixelAt t (tgaPlace s (s.pixK + j)).1 (tgaPlace s (s.pixK + j)).2 = p) ∧
        untouched s t (tgaPlaced s s.pixK n)) ∧
    (pixelTotal s < s.pixK + n → exec (.tgaRaw h) s = .next (tgaEnded s s.pixK .fileCorrupted)) ∧
    (s.pixK + n ≤ pixelTotal s → ∀ m, m < n → sourceHolds s (m * sampleSize s) →
      ¬ sourceHolds s ((m + 1) * sampleSize s) →
      (∀ j, j < m → ∃ p, gives (tgaSample (tgaSampleBytes s j)) s p) →
      ∃ t, exec (.tgaRaw h) s = .next t ∧
        t = { tgaEnded s (s.pixK + m) .fileCorrupted with
          srcPos := s.srcPos + BitVec.ofNat 32 (m * sampleSize s)
          mem := t.mem
          history := t.history } ∧
        (∀ j p, j < m → gives (tgaSample (tgaSampleBytes s j)) s p →
          pixelAt t (tgaPlace s (s.pixK + j)).1 (tgaPlace s (s.pixK + j)).2 = p) ∧
        untouched s t (tgaPlaced s s.pixK m))

/-- R291-R293, R297: what `TgaSample` gives of the bytes of a sample, for each KIND and DEPTH. -/
def Obligations.TgaSampleFormats : Prop :=
  ∀ (s : State) (b0 b1 b2 b3 : Byte),
    (kind s = 0 → (depth s = 15 ∨ depth s = 16) → gives (tgaSample [b0, b1]) s
      (bgra (BitVec.ofNat 8 (bits (le16 b0 b1) 0 5 * 255 / 31)) (BitVec.ofNat 8 (bits (le16 b0 b1) 5 5 * 255 / 31))
        (BitVec.ofNat 8 (bits (le16 b0 b1) 10 5 * 255 / 31))
        (if depth s = 16 ∧ 0 < alphaBits s ∧ bits (le16 b0 b1) 15 1 = 0 then 0 else 255))) ∧
    (kind s = 0 → depth s = 24 → gives (tgaSample [b0, b1, b2]) s (bgra b0 b1 b2 255)) ∧
    (kind s = 0 → depth s = 32 → gives (tgaSample [b0, b1, b2, b3]) s (bgra b0 b1 b2 b3)) ∧
    (kind s = 2 → depth s = 8 → gives (tgaSample [b0]) s (bgra b0 b0 b0 255)) ∧
    (kind s = 2 → depth s = 16 → gives (tgaSample [b0, b1]) s (bgra b0 b0 b0 b1)) ∧
    (kind s = 1 → depth s = 8 → tgaSample [b0] s = lookupTga b0.toNat s) ∧
    (kind s = 1 → depth s = 16 → tgaSample [b0, b1] s = lookupTga (b0.toNat + 256 * b1.toNat) s)

/-- R298, R252: the canonical position of the decoded pixel `k`, of file column `k mod WIDTH` and file row `k / WIDTH`. RTL
mirrors the column, TOPDOWN takes the logical row from the top instead of from the bottom, and INTERLEAVE gives the logical row:
the file row itself, the even rows before the odd ones, or the rows by their residue modulo 4. The positions of the pixels
`0 .. WIDTH*HEIGHT-1` are inside the image and pairwise distinct. -/
def Obligations.TgaPlacesAreDistinct : Prop :=
  ∀ (s : State) (k fx fy h : Nat), k < pixelTotal s → fx = k % width s → fy = k / width s → h = height s →
    (tgaPlace s k).1 = (if rtl s = true then width s - 1 - fx else fx) ∧
    (∀ ly, (tgaPlace s k).2 = (if topdown s = true then ly else h - 1 - ly) → ly < h →
      (interleave s = 0 → ly = fy) ∧
      (interleave s = 1 → ly = if fy < ceilDiv h 2 then 2 * fy else 2 * (fy - ceilDiv h 2) + 1) ∧
      (interleave s = 2 → ∀ g, g = (fun k => (h - k + 3) / 4) →
        (fy < g 0 → ly = 4 * fy) ∧
        (g 0 ≤ fy → fy < g 0 + g 1 → ly = 4 * (fy - g 0) + 1) ∧
        (g 0 + g 1 ≤ fy → fy < g 0 + g 1 + g 2 → ly = 4 * (fy - (g 0 + g 1)) + 2) ∧
        (g 0 + g 1 + g 2 ≤ fy → ly = 4 * (fy - (g 0 + g 1 + g 2)) + 3))) ∧
    (tgaPlace s k).1 < width s ∧ (tgaPlace s k).2 < h ∧
    ∀ j, j < pixelTotal s → tgaPlace s j = tgaPlace s k → j = k

/-! ### PCX (43_scanline_codec.md, 44_convert.md) -/

/-- R243, R244: PCX.REP appends its value byte to LINE `k` times (once for `k = 0`), as far as the scanline reaches, and
consumes the byte; with no value byte left it only sets `exhausted`. PCX.LIT appends its byte. -/
def Obligations.PcxTokensExtendTheLine : Prop :=
  ∀ (k : BitVec 6) (b : Byte) (s : State), sourceFits s →
    (sourceHolds s 1 →
      ∃ t, exec (.pcxRep k) s = .next t ∧
        t = { s with
          srcPos := s.srcPos + 1
          line := s.line ++ List.replicate
            (min (if k = 0 then 1 else k.toNat) (pcxStride s - s.line.length)) (sourceByte s (srcOff s))
          history := t.history }) ∧
    (¬ sourceHolds s 1 → exec (.pcxRep k) s = .next { s with exhausted := true }) ∧
    exec (.pcxLit b) s = .next { s with line := s.line ++ [b] }

/-- R240, R242, R245: when the tokens of a scanline are over, the engine's step fills the rest of LINE with zeros, writes
the scanline's pixels to its canonical row, touches no other byte, and goes on with the next scanline, or, after the
last one of an image that needs no second pass, ends with Success. The last scanline of an image that needs the second pass
is in VgaPassResolvesIndices. That all this is one step is the model's choice (log 11). -/
def Obligations.PcxScanlineIsAssembled : Prop :=
  ∀ s : State, s.phase = .pcx → ready .pcxDecode 0 s → s.row < height s → pcxEncoding s = 1 →
    scanlineOver s = true → s.line.length ≤ pcxStride s →
    (s.row + 1 < height s ∨ pcxMode (depth s) (pcxPlanes s) ≠ .indexed8) →
    (∀ x, x < width s → ∃ p, gives (pcxPixel x) (withLine s s.line) p) →
    ∃ t, engineStep s = .next t ∧
      t = { (if s.row + 1 < height s then s else ended s .success) with
        row := s.row + 1
        line := []
        mem := t.mem
        history := t.history } ∧
      (∀ x p, x < width s → gives (pcxPixel x) (withLine s s.line) p → pixelAt t x s.row = p) ∧
      untouched s t (fun _ y => y = s.row)

/-- R241, R240, log 11: an uncompressed scanline takes the next `stride` bytes of the source, or those that are left, fills up
with zeros, writes the pixels to the canonical row and touches no other byte; the next scanline follows, or, after the last
one of an image that needs no second pass, the end with Success. The last scanline of an image that needs the second pass is
in VgaPassResolvesIndices. That all this is one engine step is the model's choice (log 11). -/
def Obligations.PcxRawScanlineIsAssembled : Prop :=
  ∀ (s z : State) (n : Nat), s.phase = .pcx → ready .pcxDecode 0 s → s.row < height s → pcxEncoding s = 0 →
    n = min (pcxStride s) (srcLen s - srcOff s) → z = withLine s (srcBytes s n) →
    (s.row + 1 < height s ∨ pcxMode (depth s) (pcxPlanes s) ≠ .indexed8) →
    (∀ x, x < width s → ∃ p, gives (pcxPixel x) z p) →
    ∃ t, engineStep s = .next t ∧
      t = { (if s.row + 1 < height s then s else ended s .success) with
        srcPos := s.srcPos + BitVec.ofNat 32 n
        row := s.row + 1
        line := []
        mem := t.mem
        history := t.history } ∧
      (∀ x p, x < width s → gives (pcxPixel x) z p → pixelAt t x s.row = p) ∧
      untouched s t (fun _ y => y = s.row)

/-- R311-R317: the pixel of column `x` of the current scanline in each PCX mode. -/
def Obligations.PcxPixelModes : Prop :=
  ∀ (s : State) (x : Nat),
    (depth s = 1 → pcxPlanes s = 1 → palInfo s = 2 →
      gives (pcxPixel x) s (if planeBit s 0 x = 1 then opaqueWhite else opaqueBlack)) ∧
    (depth s = 1 → ¬ (pcxPlanes s = 1 ∧ palInfo s = 2) → pcxPixel x s = lookupPcx
      (((List.range (pcxPlanes s)).map (fun p => planeBit s p x * 2 ^ p)).sum) s) ∧
    (depth s = 2 → pcxPixel x s = lookupPcx ((planeByte s 0 (x / 4)).toNat / 4 ^ (3 - x % 4) % 4) s) ∧
    (depth s = 4 → pcxPixel x s = lookupPcx ((planeByte s 0 (x / 2)).toNat / 16 ^ (1 - x % 2) % 16) s) ∧
    (depth s = 8 → pcxPlanes s = 1 → gives (pcxPixel x) s (bgra (planeByte s 0 x) 0 0 0)) ∧
    (depth s = 8 → pcxPlanes s = 3 →
      gives (pcxPixel x) s (bgra (planeByte s 2 x) (planeByte s 1 x) (planeByte s 0 x) 255)) ∧
    (depth s = 8 → pcxPlanes s = 4 →
      gives (pcxPixel x) s (bgra (planeByte s 2 x) (planeByte s 1 x) (planeByte s 0 x) (planeByte s 3 x)))

/-- R306, R307, R240, R314, log 11: the second pass of an 8-bit PCX image. It finds the trailer or none; a trailer's 256
entries are loaded and PAL_COUNT becomes 256; each pixel, an index in its blue byte, becomes its palette entry, or without
a trailer its gray when PAL_INFO is 2, else opaque black; SRC_POS and every byte outside the image are unchanged. The
engine's step on the last scanline of such an image, in either encoding, takes the scanline, resolves its indices and those
of the rows before, and ends the command with Success; that this is one step is the model's choice (log 11). -/
def Obligations.VgaPassResolvesIndices : Prop :=
  ∀ s : State, ready .pcxDecode 0 s →
    (∃ t, resolveVga s = .ok () t ∧
      t = { s with pal := t.pal, palCount := vgaCount s, mem := t.mem, history := t.history } ∧
      (∀ i, cellGet? t.pal i = vgaPalette s i) ∧
      (∀ x y, x < width s → y < height s → pixelAt t x y = vgaPixel s (byteOf (pixelAt s x y) 0)) ∧
      onlyImage s t) ∧
    (∀ (z u : State) (n : Nat), s.phase = .pcx → s.row + 1 = height s → pcxMode (depth s) (pcxPlanes s) = .indexed8 →
      (pcxEncoding s = 1 ∧ scanlineOver s = true ∧ s.line.length ≤ pcxStride s ∧ n = 0 ∧ z = withLine s s.line) ∨
        (pcxEncoding s = 0 ∧ n = min (pcxStride s) (srcLen s - srcOff s) ∧ z = withLine s (srcBytes s n)) →
      u = { s with srcPos := s.srcPos + BitVec.ofNat 32 n } →
      ∃ t, engineStep s = .next t ∧
        t = { ended u .success with
          row := s.row + 1
          line := []
          pal := t.pal
          palCount := vgaCount u
          mem := t.mem
          history := t.history } ∧
        (∀ i, cellGet? t.pal i = vgaPalette u i) ∧
        (∀ x y, x < width s → y < height s → pixelAt t x y =
          vgaPixel u (if y = s.row then planeByte z 0 x else byteOf (pixelAt s x y) 0)) ∧
        onlyImage s t)

/-! ### Encoders (42_bmp_rle8_encode.md, 43_scanline_codec.md) -/

/-- R220, R260, R145: an encoder that is ready and whose output fits OUT_CAP writes exactly that output from OUT_BASE on,
rows from the bottom up, touches no other byte, and ends with Success, OUT_LEN the output's length, SRC_POS
unchanged. -/
def Obligations.EncodersWriteTheirOutput : Prop :=
  ∀ (i : Instr) (op : Op) (s : State) (out : List Byte),
    (i = .bmpEncode ∧ op = .bmpEncode ∧ out = bmpOutput s) ∨ (i = .tgaEncode ∧ op = .tgaEncode ∧ out = tgaOutput s) →
    ready op 0 s → out.length ≤ outCap s →
    ∃ t, exec i s = .next t ∧
      t = { ended s .success with
        outN := out.length
        outLen := BitVec.ofNat 32 out.length
        mem := t.mem
        history := t.history } ∧
      outputIs s t out

/-- R80, R145, R147: an encoder whose output does not fit ends with Generic and OUT_LEN 0, after it wrote the first OUT_CAP
bytes of the output and no other byte. -/
def Obligations.EncoderOverflowEndsWithGeneric : Prop :=
  ∀ (i : Instr) (op : Op) (s : State) (out : List Byte),
    (i = .bmpEncode ∧ op = .bmpEncode ∧ out = bmpOutput s) ∨ (i = .tgaEncode ∧ op = .tgaEncode ∧ out = tgaOutput s) →
    ready op 0 s → outCap s < out.length →
    ∃ t, exec i s = .next t ∧
      t = { ended s .generic with outN := outCap s, outLen := 0, mem := t.mem, history := t.history } ∧
      outputIs s t (out.take (outCap s))

/-- R226, R223-R225: the RLE8 tokens the encoder emits for a row, read as the decoder reads them up to the row's EOL, say
exactly that row: the round trip of one row. -/
def Obligations.Rle8RowRoundTrip : Prop :=
  ∀ row rest : List Byte,
    expandRow8 (encodeRow8 row.length row ++ [0, 0] ++ rest).length (encodeRow8 row.length row ++ [0, 0] ++ rest) =
      some (row, rest)

/-- R265, R262-R264: the TGA packets the encoder emits for a row of samples of one size, read as the decoder reads them,
say exactly that row. -/
def Obligations.TgaRowRoundTrip : Prop :=
  ∀ (size : Nat) (row : List (List Byte)), 0 < size → (∀ b ∈ row, b.length = size) →
    expandTga size (encodeRowTga row.length row).length (encodeRowTga row.length row) = some row

/-- R320-R323, R292: the packed samples. Luma of a gray pixel is its level; a 24- or 32-bit sample read back by the TGA
decoder's rule is the pixel, with alpha 255 at 24. -/
def Obligations.PackedSamplesReadBack : Prop :=
  ∀ (b g r a : Byte) (p : Pixel) (s : State),
    luma (bgra b b b a) = b ∧
    luma (bgra b g r a) = BitVec.ofNat 8 ((r.toNat * 299 + g.toNat * 587 + b.toNat * 114) / 1000) ∧
    pack24 (bgra b g r a) = [b, g, r] ∧ pack32 (bgra b g r a) = [b, g, r, a] ∧
    (depth s = 24 → tgaDirect s (pack24 p) = bgra (byteOf p 0) (byteOf p 1) (byteOf p 2) 255) ∧
    (depth s = 32 → tgaDirect s (pack32 p) = p)

/-! ### Gates and errors (40_commands.md, 60_exceptions.md) -/

/-- R143, R145, R341: a command whose gate fails, and whose regions are disjoint and on no device, ends with that gate's
error; no memory, palette or result register is touched, except OUT_LEN, which an encoder's error sets to 0. Where regions
overlap or lie on a device it is refused instead, which is in EngineStopsOnlyWhereTheSpecSays. -/
def Obligations.FailedGateEndsTheCommand : Prop :=
  ∀ (i : Instr) (c : Code) (s : State), i.stream = .command → regionsRefusal (opOf i) s = none →
    check (opOf i) (argOf i) s = some c →
    c ≠ .success ∧
    exec i s = .next { ended s c with
      outN := 0
      outLen := if usesOut (opOf i) = true then 0 else s.outLen }

/-- R101, R143: a started command with a reserved OP ends with Generic and has no other effect. -/
def Obligations.ReservedOpcodeEndsWithGeneric : Prop :=
  ∀ s : State, s.turns = [] → s.phase = .start →
    [0x01, 0x02, 0x10, 0x11, 0x12, 0x18, 0x20, 0x21, 0x28, 0x30].contains (byteOf s.csr.cmd 0) = false →
    step s = .next (ended s .generic)

/-- R143, R150, R151-R154: each command passes its gates exactly when its regions are well formed, SRC_POS is within the
source, the image fits PIX, and its own conditions hold: of ARG and PAL_COUNT for PAL_LOAD, and of the format registers for the
decoders and encoders. -/
def Obligations.GatesPassExactlyWhenLegal : Prop :=
  ∀ (arg : Byte) (s : State),
    (check .palLoad arg s = none ↔ arg.toNat ≤ 6 ∧ sourceReady s ∧ palEntries s ≤ 65536) ∧
    (check .pcxEgaLoad arg s = none ↔ sourceReady s) ∧
    (check .bmpDecodeRaw arg s = none ↔
      sourceReady s ∧ imageReady s ∧ depth s ∈ [1, 4, 8, 16, 24, 32] ∧
      (bitfields s = true → depth s = 16 ∨ depth s = 32) ∧ width s ≠ 0 ∧ height s ≠ 0 ∧
      (depth s ≤ 8 → 1 ≤ palEntries s ∧ palEntries s ≤ 2 ^ depth s)) ∧
    (∀ op d, (op = .bmpDecodeRle8 ∧ d = 8) ∨ (op = .bmpDecodeRle4 ∧ d = 4) →
      (check op arg s = none ↔
        sourceReady s ∧ imageReady s ∧ depth s = d ∧ width s ≠ 0 ∧ height s ≠ 0 ∧
        1 ≤ palEntries s ∧ palEntries s ≤ 2 ^ d)) ∧
    (∀ op, op = .tgaDecodeRaw ∨ op = .tgaDecodeRle →
      (check op arg s = none ↔
        sourceReady s ∧ imageReady s ∧ interleave s ≤ 2 ∧ width s ≠ 0 ∧ height s ≠ 0 ∧
        ((kind s = 0 ∧ depth s ∈ [15, 16, 24, 32]) ∨
          (kind s = 1 ∧ depth s ∈ [8, 16] ∧ cmapDepth s ∈ [15, 16, 24, 32]) ∨
          (kind s = 2 ∧ depth s ∈ [8, 16])))) ∧
    (check .pcxDecode arg s = none ↔
      sourceReady s ∧ imageReady s ∧ pcxEncoding s ≤ 1 ∧ 1 ≤ width s ∧ width s ≤ 32768 ∧ 1 ≤ height s ∧
      height s ≤ 32768 ∧ pcxBpl s ≠ 0 ∧
      (depth s, pcxPlanes s) ∈ [(1, 1), (1, 2), (1, 3), (1, 4), (2, 1), (4, 1), (8, 1), (8, 3), (8, 4)]) ∧
    (∀ op depths, (op = .bmpEncode ∧ depths = [8, 24, 32]) ∨ (op = .tgaEncode ∧ depths = [24, 32]) →
      (check op arg s = none ↔
        imageReady s ∧ outBase s + outCap s ≤ 2 ^ Config.addrBits ∧ width s ≠ 0 ∧ height s ≠ 0 ∧
        outDepth s ∈ depths ∧ (op = .bmpEncode → encRle s = true → outDepth s = 8)))

/-- R143, R150, R151-R154, R344: `check`, the gates 2 to 8 of every command, in their order: the first condition that holds
decides the code, whatever the later ones say, and when none holds there is none. That a command which is not refused for
its regions ends with this code is FailedGateEndsTheCommand; gate 1 is ReservedOpcodeEndsWithGeneric. -/
def Obligations.FirstFailingGateDecides : Prop :=
  ∀ (op : Op) (arg : Byte) (s : State) (source image output : Bool),
    source = !([.bmpEncode, .tgaEncode].contains op) → image = !([.palLoad, .pcxEgaLoad].contains op) →
    output = [.bmpEncode, .tgaEncode].contains op →
    check op arg s =
      if op = .palLoad ∧ 6 < arg.toNat then some .generic
      else if (source = true ∧ 2 ^ 32 < srcBase s + srcLen s) ∨ (image = true ∧ 2 ^ 32 < pixBase s + pixCap s) ∨
        (output = true ∧ 2 ^ 32 < outBase s + outCap s) then some .generic
      else if source = true ∧ srcLen s < srcOff s then some .generic
      else if image = true ∧ pixCap s < width s * height s * 4 then some .generic
      else if output = true ∧ (width s = 0 ∨ height s = 0) then some .generic
      else if op = .palLoad ∧ 65536 < palEntries s then some .generic
      else match op with
      | .palLoad | .pcxEgaLoad => none
      | .bmpDecodeRaw | .bmpDecodeRle8 | .bmpDecodeRle4 =>
        if depth s ∉ [1, 4, 8, 16, 24, 32] then some .unsupportedFile
        else if (op = .bmpDecodeRle8 ∧ depth s ≠ 8) ∨ (op = .bmpDecodeRle4 ∧ depth s ≠ 4) then some .fileCorrupted
        else if op = .bmpDecodeRaw ∧ bitfields s = true ∧ depth s ∉ [16, 32] then some .fileCorrupted
        else if width s = 0 ∨ height s = 0 then some .fileCorrupted
        else if depth s ≤ 8 ∧ (palEntries s = 0 ∨ 2 ^ depth s < palEntries s) then some .fileCorrupted
        else none
      | .tgaDecodeRaw | .tgaDecodeRle =>
        if kind s = 3 then some .unsupportedFile
        else if interleave s = 3 then some .unsupportedFile
        else if kind s = 1 ∧ cmapDepth s ∉ [15, 16, 24, 32] then some .unsupportedFile
        else if (kind s = 1 ∧ depth s ∉ [8, 16]) ∨ (kind s = 2 ∧ depth s ∉ [8, 16]) ∨
          (kind s = 0 ∧ depth s ∉ [15, 16, 24, 32]) then some .unsupportedFile
        else if width s = 0 ∨ height s = 0 then some .fileCorrupted
        else none
      | .pcxDecode =>
        if pcxEncoding s ∉ [0, 1] then some .unsupportedFile
        else if width s = 0 ∨ height s = 0 ∨ 32768 < width s ∨ 32768 < height s then some .fileCorrupted
        else if depth s = 0 ∨ pcxPlanes s = 0 ∨ pcxBpl s = 0 then some .fileCorrupted
        else if (depth s, pcxPlanes s) ∉
          [(1, 1), (1, 2), (1, 3), (1, 4), (2, 1), (4, 1), (8, 1), (8, 3), (8, 4)] then some .unsupportedFile
        else none
      | .bmpEncode =>
        if outDepth s ∉ [8, 24, 32] then some .unsupportedFile
        else if encRle s = true ∧ outDepth s ≠ 8 then some .unsupportedFile
        else none
      | .tgaEncode => if outDepth s ∉ [24, 32] then some .unsupportedFile else none

/-! ### The register window (10_state.md, 20_memory.md) -/

/-- R21, R22, R25, R148: the registers while idle. A write of a plain register stores the value's bits that are not reserved, a
read gives them back, no other register changes, and the read changes nothing but what the host has read. A read of any
register but PAL_DATA gives its bits that are not reserved: so the host polls STATUS, and takes OUT_LEN, CUR_X, CUR_Y,
PIX_DONE and RESULT_DEPTH. -/
def Obligations.RegistersReadBackTheirFields : Prop :=
  ∀ (v : Word) (s : State), busy s = false →
    (∀ (off : BitVec 8) (r : Reg), regAt off.toNat = some r → plainRegister r = true →
      hostWrite off .word v s = .next (writeReg r v s) ∧
      hostRead off .word (writeReg r v s) = .next { writeReg r v s with hostData := v &&& regMask r } ∧
      (∀ q, q ≠ r → regRaw q (writeReg r v s) = regRaw q s) ∧
      writeReg r v s = { s with
        csr := (writeReg r v s).csr
        srcPos := (writeReg r v s).srcPos
        palCount := (writeReg r v s).palCount }) ∧
    (∀ (off : BitVec 8) (r : Reg), regAt off.toNat = some r → r ≠ .palData →
      hostRead off .word s = .next { s with hostData := regRaw r s &&& regMask r }) ∧
    hostRead 0x08 .word s = .next { s with hostData := s.status &&& 0x703 } ∧
    hostRead 0x28 .word s = .next { s with hostData := s.outLen } ∧
    hostRead 0x68 .word s = .next { s with hostData := s.curX } ∧
    hostRead 0x6C .word s = .next { s with hostData := s.curY } ∧
    hostRead 0x70 .word s = .next { s with hostData := s.pixDone } ∧
    hostRead 0x74 .word s = .next { s with hostData := s.resultDepth }

/-- R21, R49, R381: a write of a read-only register or of an unmapped offset does nothing, an unmapped offset reads 0, and
while busy every write does nothing. -/
def Obligations.IgnoredRegisterWrites : Prop :=
  ∀ (off : BitVec 8) (v : Word) (s : State), off.toNat % 4 = 0 →
    (∀ r, regAt off.toNat = some r → readOnlyRegister r = true → hostWrite off .word v s = .next s) ∧
    (regAt off.toNat = none → hostWrite off .word v s = .next s ∧
      hostRead off .word s = .next { s with hostData := 0 }) ∧
    (busy s = true → hostWrite off .word v s = .next s)

/-- R84, log 25: a register access that is not an aligned 32-bit one is refused: a byte or halfword access, or one at an offset
of the window that is not a multiple of 4. R84 speaks of the address: that it is a multiple of 4 exactly when the offset is
(CSR_BASE a multiple of 4) is the model's choice (log 25). -/
def Obligations.UnalignedAccessIsRefused : Prop :=
  ∀ (off : BitVec 8) (w : Width) (v : Word) (s : State), w ≠ .word ∨ off.toNat % 4 ≠ 0 →
    hostWrite off w v s = .refused .badRegisterAccess ∧ hostRead off w s = .refused .badRegisterAccess

/-- R40: PAL_DATA. While idle a write sets entry PAL_INDEX and increments PAL_INDEX modulo 65536, and a read returns the
entry, if it is written, and increments PAL_INDEX the same way; no other entry and no other register changes. While busy a
write does nothing, and a read returns 0 and does not increment. -/
def Obligations.PalDataIsAWindow : Prop :=
  ∀ (v : Word) (s : State),
    (busy s = false →
      ∃ t, hostWrite 0x54 .word v s = .next t ∧
        t = { s with pal := t.pal, csr := t.csr } ∧
        t.csr = { s.csr with palIndex := BitVec.ofNat 32 ((palIndex s + 1) % 65536) } ∧
        ∀ i, cellGet? t.pal i = if i = palIndex s then some v else cellGet? s.pal i) ∧
    (busy s = false → ∀ p, cellGet? s.pal (palIndex s) = some p →
      hostRead 0x54 .word s = .next { s with
        hostData := p
        csr := { s.csr with palIndex := BitVec.ofNat 32 ((palIndex s + 1) % 65536) } }) ∧
    (busy s = true →
      hostWrite 0x54 .word v s = .next s ∧ hostRead 0x54 .word s = .next { s with hostData := 0 })

/-- R49, R40, R57, log 9: reads that give no definite value. While busy, a read of SRC_POS, OUT_LEN, CUR_X, CUR_Y or
PIX_DONE gives a draw and every other register its value, PAL_DATA 0; a read of an unwritten palette entry gives a draw.
The draw is `Config.freeWord`, of which nothing is known. -/
def Obligations.UnspecifiedReadsAreDraws : Prop :=
  ∀ (off : BitVec 8) (r : Reg) (s : State), regAt off.toNat = some r →
    (busy s = true → [Reg.srcPos, .outLen, .curX, .curY, .pixDone].contains r = true →
      hostRead off .word s = .next { s with hostData := Config.freeWord s.draws, draws := s.draws + 1 }) ∧
    (busy s = true → [Reg.srcPos, .outLen, .curX, .curY, .pixDone].contains r = false →
      hostRead off .word s = .next { s with hostData := regValue r s }) ∧
    (busy s = false → r = .palData → cellGet? s.pal (palIndex s) = none →
      hostRead off .word s = .next { s with
        hostData := Config.freeWord s.draws
        draws := s.draws + 1
        csr := { s.csr with palIndex := BitVec.ofNat 32 ((palIndex s + 1) % 65536) } })

/-- R23, R25, R140: a write of CTRL with bit 0 set, while idle, starts a command: BUSY becomes 1, DONE and ERR 0, and the
engine takes the command word next. A write with bit 0 clear, or while busy, does nothing, and CTRL reads 0. -/
def Obligations.StartBitStartsTheEngine : Prop :=
  ∀ (v : Word) (s : State),
    (busy s = false → v.getLsbD 0 = true →
      ∃ t, hostWrite 0x00 .word v s = .next t ∧
        t = { s with status := t.status, phase := .start, history := [], memStart := s.mem } ∧
        busy t = true ∧ done t = false ∧ errField t = 0) ∧
    (busy s = true ∨ v.getLsbD 0 = false → hostWrite 0x00 .word v s = .next s) ∧
    hostRead 0x00 .word s = .next { s with hostData := 0 }

/-- R380, R346, log 12, log 27: a host access to a byte of a region of the running command is refused. Any other access, of
an idle machine whatever CMD holds, or while a command runs but outside its regions (a reserved opcode has none), is an
ordinary read or write of that byte. That is the model's choice: that the host may do so at any time, one byte a move (log
12), and that a byte of a device is read and written as ordinary memory is, with no side effect (log 27). -/
def Obligations.HostStaysOutOfBusyRegions : Prop :=
  ∀ (a : Word) (v : Byte) (s : State) (touched : Prop),
    (touched ↔ busy s = true ∧
      ∃ i, decodeCommand s.csr.cmd = .ok i ∧ (regionsOf (opOf i) s).any (inRegion a.toNat) = true) →
    (touched → hostPoke a v s = .refused .hostTouchesRegion ∧ hostPeek a s = .refused .hostTouchesRegion) ∧
    (¬ touched →
      hostPeek a s = .next { s with hostData := (s.mem.read a.toNat).setWidth 32 } ∧
      ∃ t, hostPoke a v s = .next t ∧ t = { s with mem := t.mem, memStart := t.memStart } ∧
        ∀ b, t.mem.read b = if b = a.toNat then v else s.mem.read b)

/-! ### Reset (70_reset_and_hazards.md) -/

/-- R370, R22, R56: after reset every register but FILL reads 0, FILL reads opaque black, the engine is idle with no
command ended, and every palette entry is unwritten. -/
def Obligations.ResetLeavesTheResetValues : Prop :=
  (∀ r, regValue r State.reset = if r = .fill then 0xFF000000 else 0) ∧
  busy State.reset = false ∧ done State.reset = false ∧ errField State.reset = 0 ∧
  (∀ i, cellGet? State.reset.pal i = none)

/-- R370: a reset of an idle machine gives every register its reset value, makes every palette entry unwritten, and leaves
bus memory as it was. -/
def Obligations.ResetOfAnIdleMachine : Prop :=
  ∀ (s : State) (rest : List Turn), s.turns = .reset :: rest → busy s = false →
    ∃ t, step s = .next t ∧ t.csr = HostRegs.reset ∧ (∀ r, regRaw r t = regRaw r State.reset) ∧
      (∀ i, cellGet? t.pal i = none) ∧ t.phase = .idle ∧ t.mem = s.mem ∧ t.turns = rest

/-- R371, R147, log 10: a reset while a command runs always ends in the reset state with no `End`: DONE is 0 and the result
registers are 0; bus memory is what the command found with the oldest writes of the command made in order, up to some number
of them and no later one. Which writes are made is a draw (log 10); those of the step that the reset cuts off are among them,
up to the place where that step would stop. -/
def Obligations.ResetOfARunningCommand : Prop :=
  ∀ (s u : State) (rest : List Turn) (evs : List BusEvent), s.turns = .reset :: rest → busy s = true →
    u = { s with turns := rest } →
    evs = (match engineStep u with
      | .next t => t.history
      | .fault (.unwrittenPaletteEntry _ made) => made
      | .fault (.noSuchBusAddress _ made) => made
      | .refused _ => s.history) →
    ∃ t n, step s = .next t ∧ (∀ r, regRaw r t = regRaw r State.reset) ∧ (∀ i, cellGet? t.pal i = none) ∧
      t.phase = .idle ∧ t.turns = rest ∧ n ≤ (writesOf evs).length ∧
      t.mem = s.memStart.replay ((writesOf evs.reverse).take n)

/-! ### The whole machine -/

/-- R370, log 4: the invariant of the machine holds after reset. -/
def Obligations.InvariantHoldsAtReset : Prop := Inv State.reset

/-- R25, R21, R45, R49, R71, R143: every step of the machine, of whichever agent, keeps the invariant: storage in canonical
form, STATUS one of its legal values with BUSY exactly while a command runs, reserved bits 0, a running command ready
and with its counters in range. -/
def Obligations.EveryStepKeepsTheInvariant : Prop := ∀ s t : State, Inv s → step s = .next t → Inv t

/-- R22, R142: the engine never changes a register that only the host writes; nor does it touch the script, what the host
has read, or the draws. -/
def Obligations.EngineKeepsTheHostRegisters : Prop :=
  ∀ s t : State, Inv s → engineStep s = .next t →
    t.csr = s.csr ∧ t.turns = s.turns ∧ t.hostData = s.hostData ∧ t.draws = s.draws ∧ t.devices = s.devices

/-- R71, R77: an engine step of a command changes no byte outside the image in PIX and the OUT region, and a command
that does not use one of them changes none of it; no byte of the SRC region of a command that reads it changes. -/
def Obligations.EngineWritesOnlyItsRegions : Prop :=
  ∀ (s t : State) (i : Instr) (a : Nat), Inv s → decodeCommand s.csr.cmd = .ok i → engineStep s = .next t →
    t.mem.read a ≠ s.mem.read a →
    ((usesOut (opOf i) = false ∧ usesPix (opOf i) = true ∧ pixBase s ≤ a ∧
        a < pixBase s + width s * height s * 4) ∨
      (usesOut (opOf i) = true ∧ inRegion a (outRegion s) = true)) ∧
    (usesSrc (opOf i) = true → inRegion a (srcRegion s) = false)

/-- R57, R70, R71, R85, R86, R354: how an engine step can stop and where it must be refused, and the refusal of a second
host. In every state that meets the invariant the engine's only fault is the lookup of a palette entry that nothing has
written, so no bus address that does not exist is ever reached, and its only refusal is of the regions of the command that
starts. A started command is refused, whatever its gates say, when two of its regions share an address, or else when one
shares an address with a device. A second host's access is refused. That the regions compared are the whole declared ones is
the model's reading (log 7). -/
def Obligations.EngineStopsOnlyWhereTheSpecSays : Prop :=
  ∀ s : State,
    (Inv s →
      (∀ f, engineStep s = .fault f →
        ∃ i evs, f = .unwrittenPaletteEntry i (evs ++ s.history) ∧ cellGet? s.pal i = none) ∧
      ∀ r, engineStep s = .refused r →
        s.phase = .start ∧ ∃ i, decodeCommand s.csr.cmd = .ok i ∧ regionsRefusal (opOf i) s = some r) ∧
    (∀ (i : Instr) (regions : List (Nat × Nat)) (shared : Prop), s.phase = .start → decodeCommand s.csr.cmd = .ok i →
      regions = regionsOf (opOf i) s →
      (shared ↔ ∃ (m n : Nat) (q r : Nat × Nat) (a : Nat), m < n ∧ regions[m]? = some q ∧ regions[n]? = some r ∧
        inRegion a q = true ∧ inRegion a r = true) →
      (shared → engineStep s = .refused .overlappingRegions) ∧
      (¬ shared → (∃ r ∈ regions, ∃ d ∈ s.devices, ∃ a, inRegion a r = true ∧ inRegion a d = true) →
        engineStep s = .refused .deviceRegion)) ∧
    (∀ rest, s.turns = .secondHost :: rest → step s = .refused .secondHost)
end

