-- ==== Sys2Proof/Laws/Memory.lean ====
section
/-!
SUPPORT. Laws of the sparse storage, of bus memory and of palette RAM: read after write, and that every
operation keeps the canonical form.
-/

namespace Sys2Proof.Machine

section Cells
variable {α : Type}

/-! ### Read after write -/

@[simp] theorem cellGet?_nil (a : Nat) : cellGet? ([] : List (Nat × α)) a = none := rfl

@[simp] theorem cellGet?_put_self (l : List (Nat × α)) (a : Nat) (v : α) :
    cellGet? (cellPut l a v) a = some v := by
  induction l with
  | nil => simp [cellPut, cellGet?]
  | cons c rest ih =>
    obtain ⟨b, w⟩ := c
    simp only [cellPut]
    split
    · simp [cellGet?]
    · split
      · simp [cellGet?]
      · next h => rw [cellGet?, if_neg (fun e => h e.symm)]; exact ih

theorem cellGet?_put_ne (l : List (Nat × α)) {a b : Nat} (v : α) (h : a ≠ b) :
    cellGet? (cellPut l a v) b = cellGet? l b := by
  induction l with
  | nil => simp [cellPut, cellGet?, h]
  | cons c rest ih =>
    obtain ⟨d, w⟩ := c
    simp only [cellPut]
    split
    · simp [cellGet?, h]
    · split
      · next e => subst e; simp [cellGet?, h]
      · simp only [cellGet?, ih]

theorem cellGet?_put (l : List (Nat × α)) (a b : Nat) (v : α) :
    cellGet? (cellPut l a v) b = if a = b then some v else cellGet? l b := by
  by_cases h : a = b
  · subst h; simp
  · simp [cellGet?_put_ne l v h, h]

@[simp] theorem cellGet?_drop_self (l : List (Nat × α)) (a : Nat) :
    cellGet? (cellDrop l a) a = none := by
  induction l with
  | nil => rfl
  | cons c rest ih =>
    obtain ⟨b, w⟩ := c
    simp only [cellDrop]
    split
    · exact ih
    · next h => simp [cellGet?, h, ih]

theorem cellGet?_drop_ne (l : List (Nat × α)) {a b : Nat} (h : a ≠ b) :
    cellGet? (cellDrop l a) b = cellGet? l b := by
  induction l with
  | nil => rfl
  | cons c rest ih =>
    obtain ⟨d, w⟩ := c
    simp only [cellDrop]
    split
    · next e => subst e; simp [cellGet?, h, ih]
    · simp only [cellGet?, ih]

/-! ### The canonical form -/

theorem risingFrom_mono {lo lo' : Nat} (hle : lo' ≤ lo) {l : List (Nat × α)}
    (h : risingFrom lo l = true) : risingFrom lo' l = true := by
  cases l with
  | nil => rfl
  | cons c rest =>
    simp only [risingFrom, Bool.and_eq_true, decide_eq_true_eq] at h ⊢
    exact ⟨by omega, h.2⟩

theorem risingFrom_put {lo a : Nat} (v : α) (hlo : lo < a) {l : List (Nat × α)}
    (h : risingFrom lo l = true) : risingFrom lo (cellPut l a v) = true := by
  induction l generalizing lo with
  | nil => simp [cellPut, risingFrom, hlo]
  | cons c rest ih =>
    obtain ⟨b, w⟩ := c
    simp only [risingFrom, Bool.and_eq_true, decide_eq_true_eq] at h
    simp only [cellPut]
    split
    · next hab => simp [risingFrom, hlo, hab, h.2]
    · split
      · next e => subst e; simp [risingFrom, hlo, h.2]
      · have hba : b < a := by omega
        simp [risingFrom, h.1, ih hba h.2]

theorem rising_put {l : List (Nat × α)} (a : Nat) (v : α) (h : rising l = true) :
    rising (cellPut l a v) = true := by
  cases l with
  | nil => rfl
  | cons c rest =>
    obtain ⟨b, w⟩ := c
    simp only [rising] at h
    simp only [cellPut]
    split
    · next hab => simp [rising, risingFrom, hab, h]
    · split
      · next e => subst e; exact h
      · have hba : b < a := by omega
        simpa [rising] using risingFrom_put v hba h

theorem risingFrom_drop {lo a : Nat} {l : List (Nat × α)} (h : risingFrom lo l = true) :
    risingFrom lo (cellDrop l a) = true := by
  induction l generalizing lo with
  | nil => rfl
  | cons c rest ih =>
    obtain ⟨b, w⟩ := c
    simp only [risingFrom, Bool.and_eq_true, decide_eq_true_eq] at h
    simp only [cellDrop]
    split
    · exact ih (risingFrom_mono (Nat.le_of_lt h.1) h.2)
    · simp [risingFrom, h.1, ih h.2]

theorem rising_drop {l : List (Nat × α)} (a : Nat) (h : rising l = true) :
    rising (cellDrop l a) = true := by
  cases l with
  | nil => rfl
  | cons c rest =>
    obtain ⟨b, w⟩ := c
    simp only [rising] at h
    simp only [cellDrop]
    split
    · have := risingFrom_drop (a := a) h
      revert this
      cases cellDrop rest a with
      | nil => simp [rising]
      | cons d r => simp [rising, risingFrom]
    · simpa [rising] using risingFrom_drop h

theorem all_put (p : Nat × α → Bool) {l : List (Nat × α)} {a : Nat} {v : α} (hv : p (a, v) = true)
    (h : l.all p = true) : (cellPut l a v).all p = true := by
  induction l with
  | nil => simp [cellPut, hv]
  | cons c rest ih =>
    obtain ⟨b, w⟩ := c
    simp only [List.all_cons, Bool.and_eq_true] at h
    simp only [cellPut]
    split
    · simp [hv, h.1, h.2]
    · split
      · simp [hv, h.2]
      · simp [h.1, ih h.2]

theorem all_drop (p : Nat × α → Bool) {l : List (Nat × α)} {a : Nat} (h : l.all p = true) :
    (cellDrop l a).all p = true := by
  induction l with
  | nil => rfl
  | cons c rest ih =>
    obtain ⟨b, w⟩ := c
    simp only [List.all_cons, Bool.and_eq_true] at h
    simp only [cellDrop]
    split
    · exact ih h.2
    · simp [h.1, ih h.2]

end Cells

/-! ### Bus memory -/

@[simp] theorem Memory.read_nil (a : Nat) : Memory.read [] a = unlistedByte := rfl

@[simp] theorem Memory.read_write_self (m : Memory) (a : Nat) (v : Byte) : (m.write a v).read a = v := by
  unfold Memory.read Memory.write
  split
  · next h => simp [h]
  · simp

theorem Memory.read_write_ne (m : Memory) {a b : Nat} (v : Byte) (h : a ≠ b) :
    (m.write a v).read b = m.read b := by
  unfold Memory.read Memory.write
  split
  · rw [cellGet?_drop_ne m h]
  · rw [cellGet?_put_ne m v h]

theorem Memory.read_write (m : Memory) (a b : Nat) (v : Byte) :
    (m.write a v).read b = if a = b then v else m.read b := by
  by_cases h : a = b
  · subst h; simp
  · simp [Memory.read_write_ne m v h, h]

theorem Memory.wf_nil : Memory.wf [] = true := rfl

/-- Every write of a byte keeps the canonical form. -/
theorem Memory.wf_write {m : Memory} (a : Nat) (v : Byte) (h : m.wf = true) : (m.write a v).wf = true := by
  unfold Memory.wf at h ⊢
  rw [Bool.and_eq_true] at h
  unfold Memory.write
  split
  · exact Bool.and_eq_true_iff.mpr ⟨rising_drop a h.1, all_drop _ h.2⟩
  · next hv =>
    exact Bool.and_eq_true_iff.mpr ⟨rising_put a v h.1, all_put _ (by simpa using hv) h.2⟩

theorem Memory.wf_writeBytes {m : Memory} (a : Nat) (vs : List Byte) (h : m.wf = true) :
    (m.writeBytes a vs).wf = true := by
  induction vs generalizing m a with
  | nil => exact h
  | cons v vs ih => exact ih (a + 1) (Memory.wf_write a v h)

theorem Memory.wf_replay {m : Memory} (evs : List BusEvent) (h : m.wf = true) :
    (m.replay evs).wf = true := by
  induction evs generalizing m with
  | nil => exact h
  | cons e evs ih =>
    simp only [Memory.replay]
    split
    · exact ih (Memory.wf_write _ _ h)
    · exact ih h

theorem Memory.read_writeBytes_outside (m : Memory) (a : Nat) (vs : List Byte) {b : Nat}
    (h : b < a ∨ a + vs.length ≤ b) : (m.writeBytes a vs).read b = m.read b := by
  induction vs generalizing m a with
  | nil => rfl
  | cons v vs ih =>
    simp only [List.length_cons] at h
    rw [Memory.writeBytes, ih _ (a + 1) (by omega), Memory.read_write_ne _ _ (by omega)]

theorem Memory.read_writeBytes_inside (m : Memory) (a : Nat) (vs : List Byte) {i : Nat}
    (h : i < vs.length) : (m.writeBytes a vs).read (a + i) = vs.getD i 0 := by
  induction vs generalizing m a i with
  | nil => simp at h
  | cons v vs ih =>
    simp only [List.length_cons] at h
    cases i with
    | zero =>
      rw [Memory.writeBytes, Nat.add_zero, Memory.read_writeBytes_outside _ _ _ (by omega)]
      simp
    | succ i =>
      rw [Memory.writeBytes, show a + (i + 1) = (a + 1) + i by omega, ih _ _ (by omega)]
      simp

theorem Memory.writeBytes_append (m : Memory) (a : Nat) (us vs : List Byte) :
    m.writeBytes a (us ++ vs) = (m.writeBytes a us).writeBytes (a + us.length) vs := by
  induction us generalizing m a with
  | nil => rfl
  | cons u us ih =>
    simp only [List.cons_append, Memory.writeBytes, List.length_cons]
    rw [ih, show a + 1 + us.length = a + (us.length + 1) by omega]

theorem Memory.replay_append (m : Memory) (es fs : List BusEvent) :
    m.replay (es ++ fs) = (m.replay es).replay fs := by
  induction es generalizing m with
  | nil => rfl
  | cons e es ih =>
    simp only [List.cons_append, Memory.replay]
    cases e.kind <;> simp only [ih]

/-- Replaying a history needs its writes only. -/
theorem Memory.replay_writesOf (m : Memory) (es : List BusEvent) : m.replay (writesOf es) = m.replay es := by
  induction es generalizing m with
  | nil => rfl
  | cons e es ih =>
    obtain ⟨k, a, v⟩ := e
    cases k
    · simp only [writesOf, Memory.replay] at ih ⊢
      simpa using ih m
    · simp only [writesOf, Memory.replay] at ih ⊢
      simpa [Memory.replay] using ih _

/-! ### Palette RAM -/

theorem PaletteRam.wf_nil : PaletteRam.wf [] = true := rfl

/-- Every palette write inside the RAM keeps the canonical form. -/
theorem PaletteRam.wf_put {p : PaletteRam} {i : Nat} (v : Pixel) (hi : i < Config.palMax)
    (h : p.wf = true) : PaletteRam.wf (cellPut p i v) = true := by
  unfold PaletteRam.wf at h ⊢
  rw [Bool.and_eq_true] at h
  exact Bool.and_eq_true_iff.mpr ⟨rising_put i v h.1, all_put _ (by simpa using hi) h.2⟩

/-! ### Equal contents are equal data -/

/-- Lists in canonical form that hold the same are equal. -/
theorem rising_ext {α : Type} : ∀ {l m : List (Nat × α)}, rising l = true → rising m = true → (∀ a, cellGet? l a = cellGet? m a) → l = m := by
  have below : ∀ (l : List (Nat × α)) (lo a : Nat), risingFrom lo l = true → a ≤ lo → cellGet? l a = none := by
    intro l
    induction l with
    | nil => intros; rfl
    | cons c r ih =>
      intro lo a h ha
      simp only [risingFrom, Bool.and_eq_true, decide_eq_true_eq] at h
      rw [cellGet?, if_neg (by omega)]
      exact ih _ _ h.2 (by omega)
  intro l
  induction l with
  | nil =>
    intro m _ _ h
    cases m with
    | nil => rfl
    | cons c r => have := h c.1; simp [cellGet?] at this
  | cons c r ih =>
    intro m hl hm h
    cases m with
    | nil => have := h c.1; simp [cellGet?] at this
    | cons d q =>
      obtain ⟨c1, c2⟩ := c
      obtain ⟨d1, d2⟩ := d
      simp only [rising] at hl hm
      have e : c1 = d1 := by
        rcases Nat.lt_trichotomy c1 d1 with hlt | he | hlt
        · have := h c1
          rw [cellGet?, if_pos rfl, cellGet?, if_neg (by omega), below q d1 c1 hm (by omega)] at this
          cases this
        · exact he
        · have := h d1
          rw [cellGet?, if_neg (by omega), below r c1 d1 hl (by omega), cellGet?, if_pos rfl] at this
          cases this
      subst e
      have e2 : c2 = d2 := by
        have := h c1
        simpa [cellGet?] using this
      subst e2
      have : r = q := by
        apply ih
        · cases r with
          | nil => rfl
          | cons x xs => simp only [risingFrom, Bool.and_eq_true] at hl; exact hl.2
        · cases q with
          | nil => rfl
          | cons x xs => simp only [risingFrom, Bool.and_eq_true] at hm; exact hm.2
        · intro a
          by_cases ha : a ≤ c1
          · rw [below r c1 a hl ha, below q c1 a hm ha]
          · have := h a
            rwa [cellGet?, if_neg (by omega), cellGet?, if_neg (by omega)] at this
      rw [this]

/-- Memories in canonical form that read the same are equal. -/
theorem Memory.ext_read {m n : Memory} (hm : m.wf = true) (hn : n.wf = true) (h : ∀ a, m.read a = n.read a) : m = n := by
  unfold Memory.wf at hm hn
  rw [Bool.and_eq_true] at hm hn
  refine rising_ext hm.1 hn.1 fun a => ?_
  have nz : ∀ (l : Memory) (a : Nat), l.all (fun c => c.2 != unlistedByte) = true → cellGet? l a ≠ some 0 := by
    intro l
    induction l with
    | nil => intro a _ h; cases h
    | cons c r ih =>
      intro a hall he
      simp only [List.all_cons, Bool.and_eq_true] at hall
      obtain ⟨c1, c2⟩ := c
      rw [cellGet?] at he
      split at he
      · cases he; simp [unlistedByte] at hall
      · exact ih a hall.2 he
  have := h a
  unfold Memory.read at this
  have a1 := nz m a hm.2
  have a2 := nz n a hn.2
  cases hx : cellGet? m a with
  | none =>
    cases hy : cellGet? n a with
    | none => rfl
    | some w => rw [hx, hy] at this; simp [unlistedByte] at this; rw [hy, ← this] at a2; exact absurd rfl a2
  | some v =>
    cases hy : cellGet? n a with
    | none => rw [hx, hy] at this; simp [unlistedByte] at this; rw [hx, this] at a1; exact absurd rfl a1
    | some w => rw [hx, hy] at this; simp at this; rw [this]

/-- A write below a replay that does not touch its address is read back after it. -/
theorem Memory.read_replay_write {m : Memory} (evs : List BusEvent) {a : Nat} (v : Byte)
    (h : ∀ e ∈ evs, e.kind = .write → e.addr ≠ a) (b : Nat) :
    ((m.write a v).replay evs).read b = if a = b then v else (m.replay evs).read b := by
  induction evs generalizing m with
  | nil => simp [Memory.replay, Memory.read_write]
  | cons e evs ih =>
    have he := h e (by simp)
    simp only [Memory.replay]
    cases hk : e.kind with
    | read => exact ih (fun e' h' => h e' (by simp [h']))
    | write =>
      dsimp only
      have hne := he hk
      have comm : (((m.write a v).write e.addr e.value).replay evs).read b =
          (((m.write e.addr e.value).write a v).replay evs).read b := by
        have : ∀ (m1 m2 : Memory) (evs : List BusEvent), (∀ a, m1.read a = m2.read a) → ∀ b, (m1.replay evs).read b = (m2.replay evs).read b := by
          intro m1 m2 evs
          induction evs generalizing m1 m2 with
          | nil => exact fun h b => h b
          | cons e evs ih =>
            intro h b
            simp only [Memory.replay]
            cases e.kind with
            | read => exact ih _ _ h b
            | write =>
              refine ih _ _ ?_ b
              intro x
              simp only [Memory.read_write, h x]
        apply this
        intro x
        simp only [Memory.read_write]
        split_ifs <;> simp_all
      rw [comm]
      exact ih (fun e' h' => h e' (by simp [h']))

/-- A byte that a replay changes lies in the region that its writes lie in. -/
theorem Memory.inRegion_of_replay {m : Memory} (evs : List BusEvent) {R : Nat × Nat} {a : Nat}
    (h : ∀ e ∈ evs, e.kind = .write → R.1 ≤ e.addr ∧ e.addr < R.1 + R.2)
    (ha : (m.replay evs).read a ≠ m.read a) : R.1 ≤ a ∧ a < R.1 + R.2 := by
  induction evs generalizing m with
  | nil => exact absurd rfl ha
  | cons e evs ih =>
    simp only [Memory.replay] at ha
    cases hk : e.kind with
    | read => rw [hk] at ha; exact ih (fun e' h' => h e' (by simp [h'])) ha
    | write =>
      rw [hk] at ha
      dsimp only at ha
      by_cases hea : e.addr = a
      · rw [← hea]; exact h e (by simp) hk
      · refine ih (m := m.write e.addr e.value) (fun e' h' => h e' (by simp [h'])) ?_
        rw [Memory.read_write, if_neg hea]
        exact ha

end Sys2Proof.Machine
end

