-- ==== Sys2Proof/Laws/State.lean ====
section
/-!
SUPPORT. What each named update of the state leaves in each field: one lemma per field per update.
-/

namespace Sys2Proof.Machine

section Logread
variable (s : State) (a : Nat)
@[simp] theorem State.logRead_csr : (s.logRead a).csr = s.csr := rfl
@[simp] theorem State.logRead_srcPos : (s.logRead a).srcPos = s.srcPos := rfl
@[simp] theorem State.logRead_palCount : (s.logRead a).palCount = s.palCount := rfl
@[simp] theorem State.logRead_status : (s.logRead a).status = s.status := rfl
@[simp] theorem State.logRead_outLen : (s.logRead a).outLen = s.outLen := rfl
@[simp] theorem State.logRead_curX : (s.logRead a).curX = s.curX := rfl
@[simp] theorem State.logRead_curY : (s.logRead a).curY = s.curY := rfl
@[simp] theorem State.logRead_pixDone : (s.logRead a).pixDone = s.pixDone := rfl
@[simp] theorem State.logRead_resultDepth : (s.logRead a).resultDepth = s.resultDepth := rfl
@[simp] theorem State.logRead_pal : (s.logRead a).pal = s.pal := rfl
@[simp] theorem State.logRead_x : (s.logRead a).x = s.x := rfl
@[simp] theorem State.logRead_y : (s.logRead a).y = s.y := rfl
@[simp] theorem State.logRead_line : (s.logRead a).line = s.line := rfl
@[simp] theorem State.logRead_phase : (s.logRead a).phase = s.phase := rfl
@[simp] theorem State.logRead_outN : (s.logRead a).outN = s.outN := rfl
@[simp] theorem State.logRead_pixK : (s.logRead a).pixK = s.pixK := rfl
@[simp] theorem State.logRead_row : (s.logRead a).row = s.row := rfl
@[simp] theorem State.logRead_exhausted : (s.logRead a).exhausted = s.exhausted := rfl
@[simp] theorem State.logRead_mem : (s.logRead a).mem = s.mem := rfl
@[simp] theorem State.logRead_history : (s.logRead a).history = ⟨.read, a, s.mem.read a⟩ :: s.history := rfl
@[simp] theorem State.logRead_memStart : (s.logRead a).memStart = s.memStart := rfl
@[simp] theorem State.logRead_turns : (s.logRead a).turns = s.turns := rfl
@[simp] theorem State.logRead_hostData : (s.logRead a).hostData = s.hostData := rfl
@[simp] theorem State.logRead_draws : (s.logRead a).draws = s.draws := rfl
@[simp] theorem State.logRead_devices : (s.logRead a).devices = s.devices := rfl
end Logread

section Buswrite
variable (s : State) (a : Nat) (v : Byte)
@[simp] theorem State.busWrite_csr : (s.busWrite a v).csr = s.csr := rfl
@[simp] theorem State.busWrite_srcPos : (s.busWrite a v).srcPos = s.srcPos := rfl
@[simp] theorem State.busWrite_palCount : (s.busWrite a v).palCount = s.palCount := rfl
@[simp] theorem State.busWrite_status : (s.busWrite a v).status = s.status := rfl
@[simp] theorem State.busWrite_outLen : (s.busWrite a v).outLen = s.outLen := rfl
@[simp] theorem State.busWrite_curX : (s.busWrite a v).curX = s.curX := rfl
@[simp] theorem State.busWrite_curY : (s.busWrite a v).curY = s.curY := rfl
@[simp] theorem State.busWrite_pixDone : (s.busWrite a v).pixDone = s.pixDone := rfl
@[simp] theorem State.busWrite_resultDepth : (s.busWrite a v).resultDepth = s.resultDepth := rfl
@[simp] theorem State.busWrite_pal : (s.busWrite a v).pal = s.pal := rfl
@[simp] theorem State.busWrite_x : (s.busWrite a v).x = s.x := rfl
@[simp] theorem State.busWrite_y : (s.busWrite a v).y = s.y := rfl
@[simp] theorem State.busWrite_line : (s.busWrite a v).line = s.line := rfl
@[simp] theorem State.busWrite_phase : (s.busWrite a v).phase = s.phase := rfl
@[simp] theorem State.busWrite_outN : (s.busWrite a v).outN = s.outN := rfl
@[simp] theorem State.busWrite_pixK : (s.busWrite a v).pixK = s.pixK := rfl
@[simp] theorem State.busWrite_row : (s.busWrite a v).row = s.row := rfl
@[simp] theorem State.busWrite_exhausted : (s.busWrite a v).exhausted = s.exhausted := rfl
@[simp] theorem State.busWrite_mem : (s.busWrite a v).mem = s.mem.write a v := rfl
@[simp] theorem State.busWrite_history : (s.busWrite a v).history = ⟨.write, a, v⟩ :: s.history := rfl
@[simp] theorem State.busWrite_memStart : (s.busWrite a v).memStart = s.memStart := rfl
@[simp] theorem State.busWrite_turns : (s.busWrite a v).turns = s.turns := rfl
@[simp] theorem State.busWrite_hostData : (s.busWrite a v).hostData = s.hostData := rfl
@[simp] theorem State.busWrite_draws : (s.busWrite a v).draws = s.draws := rfl
@[simp] theorem State.busWrite_devices : (s.busWrite a v).devices = s.devices := rfl
end Buswrite

section Advance
variable (s : State) (n : Nat)
@[simp] theorem State.advance_csr : (s.advance n).csr = s.csr := rfl
@[simp] theorem State.advance_srcPos : (s.advance n).srcPos = BitVec.ofNat 32 (s.srcPos.toNat + n) := rfl
@[simp] theorem State.advance_palCount : (s.advance n).palCount = s.palCount := rfl
@[simp] theorem State.advance_status : (s.advance n).status = s.status := rfl
@[simp] theorem State.advance_outLen : (s.advance n).outLen = s.outLen := rfl
@[simp] theorem State.advance_curX : (s.advance n).curX = s.curX := rfl
@[simp] theorem State.advance_curY : (s.advance n).curY = s.curY := rfl
@[simp] theorem State.advance_pixDone : (s.advance n).pixDone = s.pixDone := rfl
@[simp] theorem State.advance_resultDepth : (s.advance n).resultDepth = s.resultDepth := rfl
@[simp] theorem State.advance_pal : (s.advance n).pal = s.pal := rfl
@[simp] theorem State.advance_x : (s.advance n).x = s.x := rfl
@[simp] theorem State.advance_y : (s.advance n).y = s.y := rfl
@[simp] theorem State.advance_line : (s.advance n).line = s.line := rfl
@[simp] theorem State.advance_phase : (s.advance n).phase = s.phase := rfl
@[simp] theorem State.advance_outN : (s.advance n).outN = s.outN := rfl
@[simp] theorem State.advance_pixK : (s.advance n).pixK = s.pixK := rfl
@[simp] theorem State.advance_row : (s.advance n).row = s.row := rfl
@[simp] theorem State.advance_exhausted : (s.advance n).exhausted = s.exhausted := rfl
@[simp] theorem State.advance_mem : (s.advance n).mem = s.mem := rfl
@[simp] theorem State.advance_history : (s.advance n).history = s.history := rfl
@[simp] theorem State.advance_memStart : (s.advance n).memStart = s.memStart := rfl
@[simp] theorem State.advance_turns : (s.advance n).turns = s.turns := rfl
@[simp] theorem State.advance_hostData : (s.advance n).hostData = s.hostData := rfl
@[simp] theorem State.advance_draws : (s.advance n).draws = s.draws := rfl
@[simp] theorem State.advance_devices : (s.advance n).devices = s.devices := rfl
end Advance

section Palput
variable (s : State) (i : Nat) (v : Pixel)
@[simp] theorem State.palPut_csr : (s.palPut i v).csr = s.csr := rfl
@[simp] theorem State.palPut_srcPos : (s.palPut i v).srcPos = s.srcPos := rfl
@[simp] theorem State.palPut_palCount : (s.palPut i v).palCount = s.palCount := rfl
@[simp] theorem State.palPut_status : (s.palPut i v).status = s.status := rfl
@[simp] theorem State.palPut_outLen : (s.palPut i v).outLen = s.outLen := rfl
@[simp] theorem State.palPut_curX : (s.palPut i v).curX = s.curX := rfl
@[simp] theorem State.palPut_curY : (s.palPut i v).curY = s.curY := rfl
@[simp] theorem State.palPut_pixDone : (s.palPut i v).pixDone = s.pixDone := rfl
@[simp] theorem State.palPut_resultDepth : (s.palPut i v).resultDepth = s.resultDepth := rfl
@[simp] theorem State.palPut_pal : (s.palPut i v).pal = cellPut s.pal i v := rfl
@[simp] theorem State.palPut_x : (s.palPut i v).x = s.x := rfl
@[simp] theorem State.palPut_y : (s.palPut i v).y = s.y := rfl
@[simp] theorem State.palPut_line : (s.palPut i v).line = s.line := rfl
@[simp] theorem State.palPut_phase : (s.palPut i v).phase = s.phase := rfl
@[simp] theorem State.palPut_outN : (s.palPut i v).outN = s.outN := rfl
@[simp] theorem State.palPut_pixK : (s.palPut i v).pixK = s.pixK := rfl
@[simp] theorem State.palPut_row : (s.palPut i v).row = s.row := rfl
@[simp] theorem State.palPut_exhausted : (s.palPut i v).exhausted = s.exhausted := rfl
@[simp] theorem State.palPut_mem : (s.palPut i v).mem = s.mem := rfl
@[simp] theorem State.palPut_history : (s.palPut i v).history = s.history := rfl
@[simp] theorem State.palPut_memStart : (s.palPut i v).memStart = s.memStart := rfl
@[simp] theorem State.palPut_turns : (s.palPut i v).turns = s.turns := rfl
@[simp] theorem State.palPut_hostData : (s.palPut i v).hostData = s.hostData := rfl
@[simp] theorem State.palPut_draws : (s.palPut i v).draws = s.draws := rfl
@[simp] theorem State.palPut_devices : (s.palPut i v).devices = s.devices := rfl
end Palput

section Movex
variable (s : State) (n : Nat)
@[simp] theorem State.moveX_csr : (s.moveX n).csr = s.csr := rfl
@[simp] theorem State.moveX_srcPos : (s.moveX n).srcPos = s.srcPos := rfl
@[simp] theorem State.moveX_palCount : (s.moveX n).palCount = s.palCount := rfl
@[simp] theorem State.moveX_status : (s.moveX n).status = s.status := rfl
@[simp] theorem State.moveX_outLen : (s.moveX n).outLen = s.outLen := rfl
@[simp] theorem State.moveX_curX : (s.moveX n).curX = s.curX := rfl
@[simp] theorem State.moveX_curY : (s.moveX n).curY = s.curY := rfl
@[simp] theorem State.moveX_pixDone : (s.moveX n).pixDone = s.pixDone := rfl
@[simp] theorem State.moveX_resultDepth : (s.moveX n).resultDepth = s.resultDepth := rfl
@[simp] theorem State.moveX_pal : (s.moveX n).pal = s.pal := rfl
@[simp] theorem State.moveX_x : (s.moveX n).x = s.x + BitVec.ofNat 64 n := rfl
@[simp] theorem State.moveX_y : (s.moveX n).y = s.y := rfl
@[simp] theorem State.moveX_line : (s.moveX n).line = s.line := rfl
@[simp] theorem State.moveX_phase : (s.moveX n).phase = s.phase := rfl
@[simp] theorem State.moveX_outN : (s.moveX n).outN = s.outN := rfl
@[simp] theorem State.moveX_pixK : (s.moveX n).pixK = s.pixK := rfl
@[simp] theorem State.moveX_row : (s.moveX n).row = s.row := rfl
@[simp] theorem State.moveX_exhausted : (s.moveX n).exhausted = s.exhausted := rfl
@[simp] theorem State.moveX_mem : (s.moveX n).mem = s.mem := rfl
@[simp] theorem State.moveX_history : (s.moveX n).history = s.history := rfl
@[simp] theorem State.moveX_memStart : (s.moveX n).memStart = s.memStart := rfl
@[simp] theorem State.moveX_turns : (s.moveX n).turns = s.turns := rfl
@[simp] theorem State.moveX_hostData : (s.moveX n).hostData = s.hostData := rfl
@[simp] theorem State.moveX_draws : (s.moveX n).draws = s.draws := rfl
@[simp] theorem State.moveX_devices : (s.moveX n).devices = s.devices := rfl
end Movex

section Startcommand
variable (s : State)
@[simp] theorem State.startCommand_csr : (s.startCommand).csr = s.csr := rfl
@[simp] theorem State.startCommand_srcPos : (s.startCommand).srcPos = s.srcPos := rfl
@[simp] theorem State.startCommand_palCount : (s.startCommand).palCount = s.palCount := rfl
@[simp] theorem State.startCommand_status : (s.startCommand).status = statusBusy := rfl
@[simp] theorem State.startCommand_outLen : (s.startCommand).outLen = s.outLen := rfl
@[simp] theorem State.startCommand_curX : (s.startCommand).curX = s.curX := rfl
@[simp] theorem State.startCommand_curY : (s.startCommand).curY = s.curY := rfl
@[simp] theorem State.startCommand_pixDone : (s.startCommand).pixDone = s.pixDone := rfl
@[simp] theorem State.startCommand_resultDepth : (s.startCommand).resultDepth = s.resultDepth := rfl
@[simp] theorem State.startCommand_pal : (s.startCommand).pal = s.pal := rfl
@[simp] theorem State.startCommand_x : (s.startCommand).x = s.x := rfl
@[simp] theorem State.startCommand_y : (s.startCommand).y = s.y := rfl
@[simp] theorem State.startCommand_line : (s.startCommand).line = s.line := rfl
@[simp] theorem State.startCommand_phase : (s.startCommand).phase = .start := rfl
@[simp] theorem State.startCommand_outN : (s.startCommand).outN = s.outN := rfl
@[simp] theorem State.startCommand_pixK : (s.startCommand).pixK = s.pixK := rfl
@[simp] theorem State.startCommand_row : (s.startCommand).row = s.row := rfl
@[simp] theorem State.startCommand_exhausted : (s.startCommand).exhausted = s.exhausted := rfl
@[simp] theorem State.startCommand_mem : (s.startCommand).mem = s.mem := rfl
@[simp] theorem State.startCommand_history : (s.startCommand).history = [] := rfl
@[simp] theorem State.startCommand_memStart : (s.startCommand).memStart = s.mem := rfl
@[simp] theorem State.startCommand_turns : (s.startCommand).turns = s.turns := rfl
@[simp] theorem State.startCommand_hostData : (s.startCommand).hostData = s.hostData := rfl
@[simp] theorem State.startCommand_draws : (s.startCommand).draws = s.draws := rfl
@[simp] theorem State.startCommand_devices : (s.startCommand).devices = s.devices := rfl
end Startcommand

section Goidle
variable (s : State) (c : Code)
@[simp] theorem State.goIdle_csr : (s.goIdle c).csr = s.csr := rfl
@[simp] theorem State.goIdle_srcPos : (s.goIdle c).srcPos = s.srcPos := rfl
@[simp] theorem State.goIdle_palCount : (s.goIdle c).palCount = s.palCount := rfl
@[simp] theorem State.goIdle_status : (s.goIdle c).status = statusDone c := rfl
@[simp] theorem State.goIdle_outLen : (s.goIdle c).outLen = s.outLen := rfl
@[simp] theorem State.goIdle_curX : (s.goIdle c).curX = s.curX := rfl
@[simp] theorem State.goIdle_curY : (s.goIdle c).curY = s.curY := rfl
@[simp] theorem State.goIdle_pixDone : (s.goIdle c).pixDone = s.pixDone := rfl
@[simp] theorem State.goIdle_resultDepth : (s.goIdle c).resultDepth = s.resultDepth := rfl
@[simp] theorem State.goIdle_pal : (s.goIdle c).pal = s.pal := rfl
@[simp] theorem State.goIdle_x : (s.goIdle c).x = s.x := rfl
@[simp] theorem State.goIdle_y : (s.goIdle c).y = s.y := rfl
@[simp] theorem State.goIdle_line : (s.goIdle c).line = s.line := rfl
@[simp] theorem State.goIdle_phase : (s.goIdle c).phase = .idle := rfl
@[simp] theorem State.goIdle_outN : (s.goIdle c).outN = s.outN := rfl
@[simp] theorem State.goIdle_pixK : (s.goIdle c).pixK = s.pixK := rfl
@[simp] theorem State.goIdle_row : (s.goIdle c).row = s.row := rfl
@[simp] theorem State.goIdle_exhausted : (s.goIdle c).exhausted = s.exhausted := rfl
@[simp] theorem State.goIdle_mem : (s.goIdle c).mem = s.mem := rfl
@[simp] theorem State.goIdle_history : (s.goIdle c).history = s.history := rfl
@[simp] theorem State.goIdle_memStart : (s.goIdle c).memStart = s.memStart := rfl
@[simp] theorem State.goIdle_turns : (s.goIdle c).turns = s.turns := rfl
@[simp] theorem State.goIdle_hostData : (s.goIdle c).hostData = s.hostData := rfl
@[simp] theorem State.goIdle_draws : (s.goIdle c).draws = s.draws := rfl
@[simp] theorem State.goIdle_devices : (s.goIdle c).devices = s.devices := rfl
end Goidle

section Setoutlen
variable (s : State) (c : Code)
@[simp] theorem State.setOutLen_csr : (s.setOutLen c).csr = s.csr := rfl
@[simp] theorem State.setOutLen_srcPos : (s.setOutLen c).srcPos = s.srcPos := rfl
@[simp] theorem State.setOutLen_palCount : (s.setOutLen c).palCount = s.palCount := rfl
@[simp] theorem State.setOutLen_status : (s.setOutLen c).status = s.status := rfl
@[simp] theorem State.setOutLen_outLen : (s.setOutLen c).outLen = if c = .success then BitVec.ofNat 32 s.outN else 0 := rfl
@[simp] theorem State.setOutLen_curX : (s.setOutLen c).curX = s.curX := rfl
@[simp] theorem State.setOutLen_curY : (s.setOutLen c).curY = s.curY := rfl
@[simp] theorem State.setOutLen_pixDone : (s.setOutLen c).pixDone = s.pixDone := rfl
@[simp] theorem State.setOutLen_resultDepth : (s.setOutLen c).resultDepth = s.resultDepth := rfl
@[simp] theorem State.setOutLen_pal : (s.setOutLen c).pal = s.pal := rfl
@[simp] theorem State.setOutLen_x : (s.setOutLen c).x = s.x := rfl
@[simp] theorem State.setOutLen_y : (s.setOutLen c).y = s.y := rfl
@[simp] theorem State.setOutLen_line : (s.setOutLen c).line = s.line := rfl
@[simp] theorem State.setOutLen_phase : (s.setOutLen c).phase = s.phase := rfl
@[simp] theorem State.setOutLen_outN : (s.setOutLen c).outN = s.outN := rfl
@[simp] theorem State.setOutLen_pixK : (s.setOutLen c).pixK = s.pixK := rfl
@[simp] theorem State.setOutLen_row : (s.setOutLen c).row = s.row := rfl
@[simp] theorem State.setOutLen_exhausted : (s.setOutLen c).exhausted = s.exhausted := rfl
@[simp] theorem State.setOutLen_mem : (s.setOutLen c).mem = s.mem := rfl
@[simp] theorem State.setOutLen_history : (s.setOutLen c).history = s.history := rfl
@[simp] theorem State.setOutLen_memStart : (s.setOutLen c).memStart = s.memStart := rfl
@[simp] theorem State.setOutLen_turns : (s.setOutLen c).turns = s.turns := rfl
@[simp] theorem State.setOutLen_hostData : (s.setOutLen c).hostData = s.hostData := rfl
@[simp] theorem State.setOutLen_draws : (s.setOutLen c).draws = s.draws := rfl
@[simp] theorem State.setOutLen_devices : (s.setOutLen c).devices = s.devices := rfl
end Setoutlen

section Setcursorregs
variable (s : State)
@[simp] theorem State.setCursorRegs_csr : (s.setCursorRegs).csr = s.csr := rfl
@[simp] theorem State.setCursorRegs_srcPos : (s.setCursorRegs).srcPos = s.srcPos := rfl
@[simp] theorem State.setCursorRegs_palCount : (s.setCursorRegs).palCount = s.palCount := rfl
@[simp] theorem State.setCursorRegs_status : (s.setCursorRegs).status = s.status := rfl
@[simp] theorem State.setCursorRegs_outLen : (s.setCursorRegs).outLen = s.outLen := rfl
@[simp] theorem State.setCursorRegs_curX : (s.setCursorRegs).curX = s.x.setWidth 32 := rfl
@[simp] theorem State.setCursorRegs_curY : (s.setCursorRegs).curY = s.y.setWidth 32 := rfl
@[simp] theorem State.setCursorRegs_pixDone : (s.setCursorRegs).pixDone = s.pixDone := rfl
@[simp] theorem State.setCursorRegs_resultDepth : (s.setCursorRegs).resultDepth = s.resultDepth := rfl
@[simp] theorem State.setCursorRegs_pal : (s.setCursorRegs).pal = s.pal := rfl
@[simp] theorem State.setCursorRegs_x : (s.setCursorRegs).x = s.x := rfl
@[simp] theorem State.setCursorRegs_y : (s.setCursorRegs).y = s.y := rfl
@[simp] theorem State.setCursorRegs_line : (s.setCursorRegs).line = s.line := rfl
@[simp] theorem State.setCursorRegs_phase : (s.setCursorRegs).phase = s.phase := rfl
@[simp] theorem State.setCursorRegs_outN : (s.setCursorRegs).outN = s.outN := rfl
@[simp] theorem State.setCursorRegs_pixK : (s.setCursorRegs).pixK = s.pixK := rfl
@[simp] theorem State.setCursorRegs_row : (s.setCursorRegs).row = s.row := rfl
@[simp] theorem State.setCursorRegs_exhausted : (s.setCursorRegs).exhausted = s.exhausted := rfl
@[simp] theorem State.setCursorRegs_mem : (s.setCursorRegs).mem = s.mem := rfl
@[simp] theorem State.setCursorRegs_history : (s.setCursorRegs).history = s.history := rfl
@[simp] theorem State.setCursorRegs_memStart : (s.setCursorRegs).memStart = s.memStart := rfl
@[simp] theorem State.setCursorRegs_turns : (s.setCursorRegs).turns = s.turns := rfl
@[simp] theorem State.setCursorRegs_hostData : (s.setCursorRegs).hostData = s.hostData := rfl
@[simp] theorem State.setCursorRegs_draws : (s.setCursorRegs).draws = s.draws := rfl
@[simp] theorem State.setCursorRegs_devices : (s.setCursorRegs).devices = s.devices := rfl
end Setcursorregs

section Settgaregs
variable (s : State) (c : Code)
@[simp] theorem State.setTgaRegs_csr : (s.setTgaRegs c).csr = s.csr := rfl
@[simp] theorem State.setTgaRegs_srcPos : (s.setTgaRegs c).srcPos = s.srcPos := rfl
@[simp] theorem State.setTgaRegs_palCount : (s.setTgaRegs c).palCount = s.palCount := rfl
@[simp] theorem State.setTgaRegs_status : (s.setTgaRegs c).status = s.status := rfl
@[simp] theorem State.setTgaRegs_outLen : (s.setTgaRegs c).outLen = s.outLen := rfl
@[simp] theorem State.setTgaRegs_curX : (s.setTgaRegs c).curX = s.curX := rfl
@[simp] theorem State.setTgaRegs_curY : (s.setTgaRegs c).curY = s.curY := rfl
@[simp] theorem State.setTgaRegs_pixDone : (s.setTgaRegs c).pixDone = BitVec.ofNat 32 s.pixK := rfl
@[simp] theorem State.setTgaRegs_resultDepth : (s.setTgaRegs c).resultDepth = if c = .success then alphaDepth s else s.resultDepth := rfl
@[simp] theorem State.setTgaRegs_pal : (s.setTgaRegs c).pal = s.pal := rfl
@[simp] theorem State.setTgaRegs_x : (s.setTgaRegs c).x = s.x := rfl
@[simp] theorem State.setTgaRegs_y : (s.setTgaRegs c).y = s.y := rfl
@[simp] theorem State.setTgaRegs_line : (s.setTgaRegs c).line = s.line := rfl
@[simp] theorem State.setTgaRegs_phase : (s.setTgaRegs c).phase = s.phase := rfl
@[simp] theorem State.setTgaRegs_outN : (s.setTgaRegs c).outN = s.outN := rfl
@[simp] theorem State.setTgaRegs_pixK : (s.setTgaRegs c).pixK = s.pixK := rfl
@[simp] theorem State.setTgaRegs_row : (s.setTgaRegs c).row = s.row := rfl
@[simp] theorem State.setTgaRegs_exhausted : (s.setTgaRegs c).exhausted = s.exhausted := rfl
@[simp] theorem State.setTgaRegs_mem : (s.setTgaRegs c).mem = s.mem := rfl
@[simp] theorem State.setTgaRegs_history : (s.setTgaRegs c).history = s.history := rfl
@[simp] theorem State.setTgaRegs_memStart : (s.setTgaRegs c).memStart = s.memStart := rfl
@[simp] theorem State.setTgaRegs_turns : (s.setTgaRegs c).turns = s.turns := rfl
@[simp] theorem State.setTgaRegs_hostData : (s.setTgaRegs c).hostData = s.hostData := rfl
@[simp] theorem State.setTgaRegs_draws : (s.setTgaRegs c).draws = s.draws := rfl
@[simp] theorem State.setTgaRegs_devices : (s.setTgaRegs c).devices = s.devices := rfl
end Settgaregs

section Answer
variable (s : State) (v : Word)
@[simp] theorem State.answer_csr : (s.answer v).csr = s.csr := rfl
@[simp] theorem State.answer_srcPos : (s.answer v).srcPos = s.srcPos := rfl
@[simp] theorem State.answer_palCount : (s.answer v).palCount = s.palCount := rfl
@[simp] theorem State.answer_status : (s.answer v).status = s.status := rfl
@[simp] theorem State.answer_outLen : (s.answer v).outLen = s.outLen := rfl
@[simp] theorem State.answer_curX : (s.answer v).curX = s.curX := rfl
@[simp] theorem State.answer_curY : (s.answer v).curY = s.curY := rfl
@[simp] theorem State.answer_pixDone : (s.answer v).pixDone = s.pixDone := rfl
@[simp] theorem State.answer_resultDepth : (s.answer v).resultDepth = s.resultDepth := rfl
@[simp] theorem State.answer_pal : (s.answer v).pal = s.pal := rfl
@[simp] theorem State.answer_x : (s.answer v).x = s.x := rfl
@[simp] theorem State.answer_y : (s.answer v).y = s.y := rfl
@[simp] theorem State.answer_line : (s.answer v).line = s.line := rfl
@[simp] theorem State.answer_phase : (s.answer v).phase = s.phase := rfl
@[simp] theorem State.answer_outN : (s.answer v).outN = s.outN := rfl
@[simp] theorem State.answer_pixK : (s.answer v).pixK = s.pixK := rfl
@[simp] theorem State.answer_row : (s.answer v).row = s.row := rfl
@[simp] theorem State.answer_exhausted : (s.answer v).exhausted = s.exhausted := rfl
@[simp] theorem State.answer_mem : (s.answer v).mem = s.mem := rfl
@[simp] theorem State.answer_history : (s.answer v).history = s.history := rfl
@[simp] theorem State.answer_memStart : (s.answer v).memStart = s.memStart := rfl
@[simp] theorem State.answer_turns : (s.answer v).turns = s.turns := rfl
@[simp] theorem State.answer_hostData : (s.answer v).hostData = v := rfl
@[simp] theorem State.answer_draws : (s.answer v).draws = s.draws := rfl
@[simp] theorem State.answer_devices : (s.answer v).devices = s.devices := rfl
end Answer

section Answerdraw
variable (s : State)
@[simp] theorem State.answerDraw_csr : (s.answerDraw).csr = s.csr := rfl
@[simp] theorem State.answerDraw_srcPos : (s.answerDraw).srcPos = s.srcPos := rfl
@[simp] theorem State.answerDraw_palCount : (s.answerDraw).palCount = s.palCount := rfl
@[simp] theorem State.answerDraw_status : (s.answerDraw).status = s.status := rfl
@[simp] theorem State.answerDraw_outLen : (s.answerDraw).outLen = s.outLen := rfl
@[simp] theorem State.answerDraw_curX : (s.answerDraw).curX = s.curX := rfl
@[simp] theorem State.answerDraw_curY : (s.answerDraw).curY = s.curY := rfl
@[simp] theorem State.answerDraw_pixDone : (s.answerDraw).pixDone = s.pixDone := rfl
@[simp] theorem State.answerDraw_resultDepth : (s.answerDraw).resultDepth = s.resultDepth := rfl
@[simp] theorem State.answerDraw_pal : (s.answerDraw).pal = s.pal := rfl
@[simp] theorem State.answerDraw_x : (s.answerDraw).x = s.x := rfl
@[simp] theorem State.answerDraw_y : (s.answerDraw).y = s.y := rfl
@[simp] theorem State.answerDraw_line : (s.answerDraw).line = s.line := rfl
@[simp] theorem State.answerDraw_phase : (s.answerDraw).phase = s.phase := rfl
@[simp] theorem State.answerDraw_outN : (s.answerDraw).outN = s.outN := rfl
@[simp] theorem State.answerDraw_pixK : (s.answerDraw).pixK = s.pixK := rfl
@[simp] theorem State.answerDraw_row : (s.answerDraw).row = s.row := rfl
@[simp] theorem State.answerDraw_exhausted : (s.answerDraw).exhausted = s.exhausted := rfl
@[simp] theorem State.answerDraw_mem : (s.answerDraw).mem = s.mem := rfl
@[simp] theorem State.answerDraw_history : (s.answerDraw).history = s.history := rfl
@[simp] theorem State.answerDraw_memStart : (s.answerDraw).memStart = s.memStart := rfl
@[simp] theorem State.answerDraw_turns : (s.answerDraw).turns = s.turns := rfl
@[simp] theorem State.answerDraw_hostData : (s.answerDraw).hostData = Config.freeWord s.draws := rfl
@[simp] theorem State.answerDraw_draws : (s.answerDraw).draws = s.draws + 1 := rfl
@[simp] theorem State.answerDraw_devices : (s.answerDraw).devices = s.devices := rfl
end Answerdraw

section Nextpalindex
variable (s : State)
@[simp] theorem State.nextPalIndex_csr : (s.nextPalIndex).csr = { s.csr with palIndex := BitVec.ofNat 32 ((palIndex s + 1) % 65536) } := rfl
@[simp] theorem State.nextPalIndex_srcPos : (s.nextPalIndex).srcPos = s.srcPos := rfl
@[simp] theorem State.nextPalIndex_palCount : (s.nextPalIndex).palCount = s.palCount := rfl
@[simp] theorem State.nextPalIndex_status : (s.nextPalIndex).status = s.status := rfl
@[simp] theorem State.nextPalIndex_outLen : (s.nextPalIndex).outLen = s.outLen := rfl
@[simp] theorem State.nextPalIndex_curX : (s.nextPalIndex).curX = s.curX := rfl
@[simp] theorem State.nextPalIndex_curY : (s.nextPalIndex).curY = s.curY := rfl
@[simp] theorem State.nextPalIndex_pixDone : (s.nextPalIndex).pixDone = s.pixDone := rfl
@[simp] theorem State.nextPalIndex_resultDepth : (s.nextPalIndex).resultDepth = s.resultDepth := rfl
@[simp] theorem State.nextPalIndex_pal : (s.nextPalIndex).pal = s.pal := rfl
@[simp] theorem State.nextPalIndex_x : (s.nextPalIndex).x = s.x := rfl
@[simp] theorem State.nextPalIndex_y : (s.nextPalIndex).y = s.y := rfl
@[simp] theorem State.nextPalIndex_line : (s.nextPalIndex).line = s.line := rfl
@[simp] theorem State.nextPalIndex_phase : (s.nextPalIndex).phase = s.phase := rfl
@[simp] theorem State.nextPalIndex_outN : (s.nextPalIndex).outN = s.outN := rfl
@[simp] theorem State.nextPalIndex_pixK : (s.nextPalIndex).pixK = s.pixK := rfl
@[simp] theorem State.nextPalIndex_row : (s.nextPalIndex).row = s.row := rfl
@[simp] theorem State.nextPalIndex_exhausted : (s.nextPalIndex).exhausted = s.exhausted := rfl
@[simp] theorem State.nextPalIndex_mem : (s.nextPalIndex).mem = s.mem := rfl
@[simp] theorem State.nextPalIndex_history : (s.nextPalIndex).history = s.history := rfl
@[simp] theorem State.nextPalIndex_memStart : (s.nextPalIndex).memStart = s.memStart := rfl
@[simp] theorem State.nextPalIndex_turns : (s.nextPalIndex).turns = s.turns := rfl
@[simp] theorem State.nextPalIndex_hostData : (s.nextPalIndex).hostData = s.hostData := rfl
@[simp] theorem State.nextPalIndex_draws : (s.nextPalIndex).draws = s.draws := rfl
@[simp] theorem State.nextPalIndex_devices : (s.nextPalIndex).devices = s.devices := rfl
end Nextpalindex

end Sys2Proof.Machine
end

