-- ==== Sys2Proof/Laws/Eng.lean ====
section
/-!
SUPPORT. How the engine's operations run: one rule per way of composing them, and one lemma per shared
operation that says what it does.
-/

namespace Sys2Proof.Machine

/-! ### Running -/

section Run
variable {α β : Type}

@[simp] theorem run_pure (a : α) (s : State) : (pure a : Eng α) s = .ok a s := rfl

@[simp] theorem run_readState_bind (f : State → Eng β) (s : State) : (readState >>= f) s = f s s := rfl

@[simp] theorem run_readState (s : State) : readState s = .ok s s := rfl

@[simp] theorem run_update (g : State → State) (s : State) : update g s = .ok () (g s) := rfl

@[simp] theorem run_update_bind (g : State → State) (f : Unit → Eng β) (s : State) :
    (update g >>= f) s = f () (g s) := rfl

@[simp] theorem run_raise (c : Code) (s : State) : (raise c : Eng α) s = .error (.raised c) s := rfl

theorem run_bind_ok {m : Eng α} {f : α → Eng β} {s t : State} {a : α} (h : m s = .ok a t) :
    (m >>= f) s = f a t := by
  show EStateM.bind m f s = _
  simp [EStateM.bind, h]

theorem run_bind_error {m : Eng α} {f : α → Eng β} {s t : State} {e : Stop} (h : m s = .error e t) :
    (m >>= f) s = .error e t := by
  show EStateM.bind m f s = _
  simp [EStateM.bind, h]

/-- The run of a sequence by the outcome of its first part. -/
theorem run_bind (m : Eng α) (f : α → Eng β) (s : State) :
    (m >>= f) s = match m s with | .ok a t => f a t | .error e t => .error e t := by
  cases h : m s with
  | ok a t => exact run_bind_ok h
  | error e t => exact run_bind_error h

theorem run_ite (c : Prop) [Decidable c] (m n : Eng α) (s : State) :
    (if c then m else n) s = if c then m s else n s := by
  split <;> rfl

end Run

@[simp] theorem forUpTo_zero (body : Nat → Eng Unit) : forUpTo 0 body = pure () := rfl

/-- A loop whose every round succeeds and goes from `P i` to `P (i+1)` succeeds, and leaves `P n`. -/
theorem forUpTo_ok (P : Nat → State → Prop) {n : Nat} {body : Nat → Eng Unit} {s : State} (h0 : P 0 s)
    (hstep : ∀ i, i < n → ∀ t, P i t → ∃ u, body i t = .ok () u ∧ P (i + 1) u) :
    ∃ t, forUpTo n body s = .ok () t ∧ P n t := by
  induction n with
  | zero => exact ⟨s, rfl, h0⟩
  | succ n ih =>
    obtain ⟨t, ht, hP⟩ := ih (fun i hi => hstep i (by omega))
    obtain ⟨u, hu, hQ⟩ := hstep n (by omega) t hP
    exact ⟨u, by rw [forUpTo, run_bind_ok ht, hu], hQ⟩

/-! ### The bus -/

theorem memRead_ok {a : Nat} (h : a < 2 ^ Config.addrBits) (s : State) :
    memRead a s = .ok (s.mem.read a) (s.logRead a) := by simp [memRead, h]

theorem memWrite_ok {a : Nat} (v : Byte) (h : a < 2 ^ Config.addrBits) (s : State) :
    memWrite a v s = .ok () (s.busWrite a v) := by simp [memWrite, h]

@[simp] theorem Memory.bytesAt_length (m : Memory) (a n : Nat) : (m.bytesAt a n).length = n := by
  simp [Memory.bytesAt]

theorem Memory.bytesAt_succ (m : Memory) (a n : Nat) :
    m.bytesAt a (n + 1) = m.read a :: m.bytesAt (a + 1) n := by
  simp only [Memory.bytesAt, List.range_succ_eq_map, List.map_cons, List.map_map, Nat.add_zero]
  refine congrArg _ (List.map_congr_left fun i _ => ?_)
  simp [Nat.add_comm, Nat.add_left_comm]

theorem Memory.bytesAt_getD (m : Memory) (a n : Nat) {i : Nat} (h : i < n) :
    (m.bytesAt a n).getD i 0 = m.read (a + i) := by
  simp [Memory.bytesAt, List.getD, h]

/-- The events of reading `n` bytes from `a` on, newest first, before `hist`. -/
def readEvents (m : Memory) (a : Nat) : Nat → List BusEvent → List BusEvent
  | 0, hist => hist
  | n + 1, hist => readEvents m (a + 1) n (⟨.read, a, m.read a⟩ :: hist)

/-- The same events, as a list over the bytes read. -/
theorem readEvents_eq (m : Memory) (a n : Nat) (hist : List BusEvent) :
    readEvents m a n hist =
      ((List.range n).map fun i => (⟨.read, a + i, m.read (a + i)⟩ : BusEvent)).reverse ++ hist := by
  induction n generalizing a hist with
  | zero => rfl
  | succ n ih =>
    rw [readEvents, ih, List.range_succ_eq_map]
    simp [List.map_map, Function.comp_def, Nat.add_assoc, Nat.add_comm 1]

/-- The events of writing bytes from `a` on, newest first, before `hist`. -/
def writeEvents (a : Nat) : List Byte → List BusEvent → List BusEvent
  | [], hist => hist
  | v :: vs, hist => writeEvents (a + 1) vs (⟨.write, a, v⟩ :: hist)

theorem memReadBytes_ok {a n : Nat} (h : a + n ≤ 2 ^ Config.addrBits) (s : State) :
    memReadBytes a n s =
      .ok (s.mem.bytesAt a n) { s with history := readEvents s.mem a n s.history } := by
  induction n generalizing a s with
  | zero => rfl
  | succ n ih =>
    rw [memReadBytes, run_bind_ok (memRead_ok (by omega) s), run_bind_ok (ih (by omega) _)]
    simp [Memory.bytesAt_succ, readEvents, State.logRead]

theorem memWriteBytes_ok {a : Nat} {vs : List Byte} (h : a + vs.length ≤ 2 ^ Config.addrBits) (s : State) :
    memWriteBytes a vs s =
      .ok () { s with mem := s.mem.writeBytes a vs, history := writeEvents a vs s.history } := by
  induction vs generalizing a s with
  | nil => rfl
  | cons v vs ih =>
    simp only [List.length_cons] at h
    rw [memWriteBytes, run_bind_ok (memWrite_ok v (by omega) s), ih (by omega)]
    simp [Memory.writeBytes, writeEvents, State.busWrite]

/-! ### The source -/

/-- The state after `n` bytes of the source are consumed. -/
def State.consumed (s : State) (n : Nat) : State :=
  { s with
    srcPos := BitVec.ofNat 32 (s.srcPos.toNat + n)
    history := readEvents s.mem (srcBase s + srcOff s) n s.history }

theorem takeSrc_ok {n : Nat} {s : State} (h : srcBase s + srcOff s + n ≤ 2 ^ Config.addrBits) :
    takeSrc n s = .ok (srcBytes s n) (s.consumed n) := by
  rw [takeSrc, run_readState_bind, run_bind_ok (memReadBytes_ok h s)]
  rfl

/-- R76: the read succeeds when the bytes are there. -/
theorem readSrc_ok {n : Nat} {s : State} (hn : srcOff s + n ≤ srcLen s)
    (hb : srcBase s + srcLen s ≤ 2 ^ Config.addrBits) :
    readSrc n s = .ok (srcBytes s n) (s.consumed n) := by
  rw [readSrc, run_readState_bind, run_ite, if_neg (by omega), takeSrc_ok (by omega)]

/-- R76: a read past SRC_LEN raises ReadError, and nothing is read. -/
theorem readSrc_short {n : Nat} {s : State} (hn : srcLen s < srcOff s + n) :
    readSrc n s = .error (.raised .readError) s := by
  rw [readSrc, run_readState_bind, run_ite, if_pos (by omega), run_raise]

@[simp] theorem State.consumed_csr (s : State) (n : Nat) : (s.consumed n).csr = s.csr := rfl
@[simp] theorem State.consumed_mem (s : State) (n : Nat) : (s.consumed n).mem = s.mem := rfl
@[simp] theorem State.consumed_pal (s : State) (n : Nat) : (s.consumed n).pal = s.pal := rfl
@[simp] theorem State.consumed_palCount (s : State) (n : Nat) : (s.consumed n).palCount = s.palCount := rfl
@[simp] theorem State.consumed_x (s : State) (n : Nat) : (s.consumed n).x = s.x := rfl
@[simp] theorem State.consumed_y (s : State) (n : Nat) : (s.consumed n).y = s.y := rfl
@[simp] theorem State.consumed_pixK (s : State) (n : Nat) : (s.consumed n).pixK = s.pixK := rfl
@[simp] theorem State.consumed_line (s : State) (n : Nat) : (s.consumed n).line = s.line := rfl

/-- SRC_POS after a successful read: it does not wrap. -/
theorem State.consumed_srcOff {s : State} {n : Nat} (h : srcOff s + n ≤ srcLen s) :
    srcOff (s.consumed n) = srcOff s + n := by
  have := s.csr.srcLen.isLt
  simp only [srcOff, srcLen, State.consumed, BitVec.toNat_ofNat] at *
  exact Nat.mod_eq_of_lt (by omega)

/-! ### Pixels -/

@[simp] theorem wordBytes_length (v : Word) : (wordBytes v).length = 4 := rfl

/-- A word is the little-endian combination of its bytes (R72, R82). -/
theorem wordFromBytes_wordBytes (v : Word) : wordFromBytes (wordBytes v) = v := by
  apply BitVec.eq_of_toNat_eq
  simp only [wordFromBytes, wordBytes, le32, byteOf, List.getD_cons_zero, List.getD_cons_succ,
    BitVec.extractLsb'_toNat, BitVec.toNat_ofNat, Nat.shiftRight_eq_div_pow]
  have := v.isLt
  omega

/-- The word at four consecutive addresses (R78, R82). -/
def Memory.word (m : Memory) (a : Nat) : Word := wordFromBytes (m.bytesAt a 4)

theorem Memory.bytesAt_writeBytes_self (m : Memory) (a : Nat) (vs : List Byte) :
    (m.writeBytes a vs).bytesAt a vs.length = vs := by
  apply List.ext_getElem (by simp)
  intro i h1 h2
  have := Memory.read_writeBytes_inside m a vs h2
  simp [Memory.bytesAt, this, List.getD, h2]

theorem Memory.bytesAt_writeBytes_disjoint (m : Memory) {a b n : Nat} {vs : List Byte}
    (h : b + n ≤ a ∨ a + vs.length ≤ b) : (m.writeBytes a vs).bytesAt b n = m.bytesAt b n := by
  refine List.map_congr_left fun i hi => ?_
  have hi := List.mem_range.mp hi
  exact Memory.read_writeBytes_outside _ _ _ (by omega)

@[simp] theorem Memory.word_write_self (m : Memory) (a : Nat) (p : Pixel) :
    (m.writeBytes a (wordBytes p)).word a = p := by
  have := Memory.bytesAt_writeBytes_self m a (wordBytes p)
  rw [wordBytes_length] at this
  rw [Memory.word, this, wordFromBytes_wordBytes]

theorem Memory.word_write_disjoint (m : Memory) {a b : Nat} (p : Pixel) (h : b + 4 ≤ a ∨ a + 4 ≤ b) :
    (m.writeBytes a (wordBytes p)).word b = m.word b := by
  rw [Memory.word, Memory.bytesAt_writeBytes_disjoint m (by simpa using h), Memory.word]

/-- The state after `PixWrite(x, y, p)`. -/
def State.pixPut (s : State) (x y : Nat) (p : Pixel) : State :=
  { s with
    mem := s.mem.writeBytes (pixAddr s x y) (wordBytes p)
    history := writeEvents (pixAddr s x y) (wordBytes p) s.history }

theorem pixWrite_ok {x y : Nat} {s : State} (p : Pixel) (h : pixAddr s x y + 4 ≤ 2 ^ Config.addrBits) :
    pixWrite x y p s = .ok () (s.pixPut x y p) := by
  rw [pixWrite, run_readState_bind, memWriteBytes_ok (by simpa using h)]
  rfl

theorem pixRead_ok {x y : Nat} {s : State} (h : pixAddr s x y + 4 ≤ 2 ^ Config.addrBits) :
    pixRead x y s =
      .ok (s.mem.word (pixAddr s x y))
        { s with history := readEvents s.mem (pixAddr s x y) 4 s.history } := by
  rw [pixRead, run_readState_bind, run_bind_ok (memReadBytes_ok h s)]
  rfl

/-- A pixel inside the image lies inside the first `WIDTH*HEIGHT*4` bytes of PIX (R71, R78). -/
theorem pixAddr_lt {s : State} {x y : Nat} (hx : x < width s) (hy : y < height s) :
    pixAddr s x y + 4 ≤ pixBase s + width s * height s * 4 := by
  obtain ⟨k, hk⟩ := Nat.exists_eq_add_of_lt hy
  have h1 : width s * height s = y * width s + k * width s + width s := by rw [hk]; ring
  have h2 : y * (width s * 4) = 4 * (y * width s) := by ring
  simp only [pixAddr, h2, h1]
  nlinarith [Nat.zero_le (k * width s)]

/-- Distinct pixels inside the image share no byte. -/
theorem pixAddr_disjoint {s : State} {x y x' y' : Nat} (hx : x < width s) (hx' : x' < width s)
    (hne : x ≠ x' ∨ y ≠ y') : pixAddr s x y + 4 ≤ pixAddr s x' y' ∨ pixAddr s x' y' + 4 ≤ pixAddr s x y := by
  have e : ∀ u v, pixAddr s u v = pixBase s + 4 * (v * width s + u) := by intro u v; simp only [pixAddr]; ring
  simp only [e]
  rcases Nat.lt_trichotomy y y' with h | h | h
  · left
    obtain ⟨k, hk⟩ := Nat.exists_eq_add_of_lt h
    have : y' * width s = y * width s + k * width s + width s := by rw [hk]; ring
    have := Nat.zero_le (k * width s)
    omega
  · subst h
    omega
  · right
    obtain ⟨k, hk⟩ := Nat.exists_eq_add_of_lt h
    have : y * width s = y' * width s + k * width s + width s := by rw [hk]; ring
    have := Nat.zero_le (k * width s)
    omega

/-! ### Output bytes -/

/-- The state after `OutByte(b)`. -/
def State.emitted (s : State) (b : Byte) : State :=
  { s with
    mem := s.mem.write (outBase s + s.outN) b
    history := ⟨.write, outBase s + s.outN, b⟩ :: s.history
    outN := s.outN + 1 }

theorem outByte_ok {b : Byte} {s : State} (hn : s.outN < outCap s)
    (hb : outBase s + outCap s ≤ 2 ^ Config.addrBits) : outByte b s = .ok () (s.emitted b) := by
  rw [outByte, run_readState_bind, run_ite, if_neg (by omega), run_bind_ok (memWrite_ok b (by omega) s)]
  rfl

/-- R80: a full output region raises Generic. -/
theorem outByte_full {b : Byte} {s : State} (hn : outCap s ≤ s.outN) :
    outByte b s = .error (.raised .generic) s := by
  rw [outByte, run_readState_bind, run_ite, if_pos (by omega), run_raise]

/-- Output bytes that fit are written one after the other from `OUT_BASE + n` on. -/
theorem outBytes_ok {bs : List Byte} {s : State} (hn : s.outN + bs.length ≤ outCap s)
    (hb : outBase s + outCap s ≤ 2 ^ Config.addrBits) :
    outBytes bs s =
      .ok () { s with
        mem := s.mem.writeBytes (outBase s + s.outN) bs
        history := writeEvents (outBase s + s.outN) bs s.history
        outN := s.outN + bs.length } := by
  induction bs generalizing s with
  | nil => rfl
  | cons b bs ih =>
    simp only [List.length_cons] at hn
    rw [outBytes, run_bind_ok (outByte_ok (by omega) hb),
      ih (s := s.emitted b) (by simp [State.emitted, outCap] at *; omega) hb]
    simp only [State.emitted, outBase, List.length_cons, Memory.writeBytes, writeEvents]
    simp only [Nat.add_assoc, Nat.add_comm 1]

/-! ### Palette -/

theorem palLookup_ok {i : Nat} {p : Pixel} {s : State} (h : cellGet? s.pal i = some p) :
    palLookup i s = .ok p s := by simp [palLookup, h]

/-- R57: looking up an unwritten entry is outside the modelled behaviour. -/
theorem palLookup_unwritten {i : Nat} {s : State} (h : cellGet? s.pal i = none) :
    palLookup i s = .error (.fault (.unwrittenPaletteEntry i s.history)) s := by simp [palLookup, h]

/-- R294. -/
theorem lookupBmp_ok {i : Nat} {p : Pixel} {s : State}
    (h : cellGet? s.pal (if i < palEntries s then i else 0) = some p) : lookupBmp i s = .ok p s := by
  rw [lookupBmp, run_readState_bind, palLookup_ok h]

/-! ### Commands -/

theorem runCommand_gate {op : Op} {arg : Byte} {body : Eng Unit} {after : State → State} {s : State}
    {c : Code} (h : check op arg s = some c) (hr : regionsRefusal op s = none) :
    runCommand op arg body after s = .next (endCommand op false c { s with outN := 0 }) := by
  simp [runCommand, h, hr]

theorem runCommand_refused {op : Op} {arg : Byte} {body : Eng Unit} {after : State → State} {s : State}
    {r : Refusal} (h : regionsRefusal op s = some r) : runCommand op arg body after s = .refused r := by
  simp [runCommand, h]

theorem runCommand_body {op : Op} {arg : Byte} {body : Eng Unit} {after : State → State} {s : State}
    (h : check op arg s = none) (hr : regionsRefusal op s = none) :
    runCommand op arg body after s = conclude op after (body { s with outN := 0 }) := by
  simp [runCommand, h, hr]

@[simp] theorem conclude_ok (op : Op) (after : State → State) (s : State) :
    conclude op after (.ok () s) = .next (after s) := rfl

@[simp] theorem conclude_raised (op : Op) (after : State → State) (c : Code) (s : State) :
    conclude op after (.error (.raised c) s) = .next (endCommand op true c s) := rfl

/-- A command that gives a next state was not refused for its regions, and ended at a gate or ran its body. -/
theorem runCommand_next {op : Op} {arg : Byte} {body : Eng Unit} {after : State → State} {s t : State}
    (h : runCommand op arg body after s = .next t) :
    regionsRefusal op s = none ∧
    ((∃ c, check op arg s = some c ∧ t = endCommand op false c { s with outN := 0 }) ∨
      (check op arg s = none ∧ conclude op after (body { s with outN := 0 }) = .next t)) := by
  unfold runCommand at h
  split at h
  · cases h
  · next hr =>
    split at h
    · next c hc => exact ⟨hr, .inl ⟨c, hc, by simpa using h.symm⟩⟩
    · next hc => exact ⟨hr, .inr ⟨hc, h⟩⟩

/-- What an operation's outcome can be when it gives a next state. -/
theorem conclude_next {op : Op} {after : State → State} {r : EStateM.Result Stop State Unit} {t : State}
    (h : conclude op after r = .next t) :
    (∃ s, r = .ok () s ∧ t = after s) ∨ (∃ c s, r = .error (.raised c) s ∧ t = endCommand op true c s) := by
  unfold conclude at h
  split at h
  · next s => exact .inl ⟨s, rfl, by simpa using h.symm⟩
  · next c s => exact .inr ⟨c, s, rfl, by simpa using h.symm⟩
  · cases h
  · cases h

/-- The first gate decides when its condition `P` holds, the rest of them otherwise. -/
theorem firstFailing_cons {b : Bool} {P : Prop} [Decidable P] {c : Code} {gs : List (Bool × Code)} {x : Option Code}
    (h : b = true ↔ P) (hr : firstFailing gs = x) : firstFailing ((b, c) :: gs) = if P then some c else x := by
  rw [firstFailing, hr]
  by_cases hp : P
  · rw [if_pos hp, if_pos (h.2 hp)]
  · rw [if_neg hp, if_neg (fun k => hp (h.1 k))]

/-- When no gate fails, every gate's condition is false. -/
theorem firstFailing_none {gs : List (Bool × Code)} :
    firstFailing gs = none ↔ ∀ g ∈ gs, g.1 = false := by
  induction gs with
  | nil => simp [firstFailing]
  | cons g gs ih =>
    obtain ⟨b, c⟩ := g
    cases b <;> simp [firstFailing, ih]

end Sys2Proof.Machine
end

