-- ==== Sys2Proof/Laws/Frame.lean ====
section
/-!
SUPPORT. What every engine operation keeps, whatever its outcome: the registers of the host, the status, the canonical form
of storage, and every byte outside the region it writes.
-/

namespace Sys2Proof.Machine

/-- The state in which an operation ends or stops. -/
def stateAfter {α : Type} : EStateM.Result Stop State α → State
  | .ok _ t => t
  | .error _ t => t

/-- The bus events `made` are those of `s` and later ones, whose writes are in region `R`. -/
def madeFrom (R : Nat × Nat) (s : State) (made : List BusEvent) : Prop :=
  ∃ evs, made = evs ++ s.history ∧ ∀ e ∈ evs, e.kind = .write → inRegion e.addr R = true

/-- How an operation that writes only region `R` may stop from `s`: with an error of R340, or at an unwritten entry. -/
def goodStop (R : Nat × Nat) (s : State) : Stop → Prop
  | .raised c => c ≠ .success
  | .fault (.unwrittenPaletteEntry i made) => cellGet? s.pal i = none ∧ madeFrom R s made
  | .fault (.noSuchBusAddress _ _) => False
  | .refused _ => False

/-- State `t` comes from `s` by engine work that writes only bytes of region `R`, and, when `keepCount` holds, leaves
PAL_COUNT. -/
structure Kept (keepCount : Bool) (R : Nat × Nat) (s t : State) : Prop where
  csr : t.csr = s.csr
  palCount : keepCount = true → t.palCount = s.palCount
  palCountMask : s.palCount &&& regMask .palCount = s.palCount → t.palCount &&& regMask .palCount = t.palCount
  status : t.status = s.status
  outLen : t.outLen = s.outLen
  curX : t.curX = s.curX
  curY : t.curY = s.curY
  pixDone : t.pixDone = s.pixDone
  resultDepth : t.resultDepth = s.resultDepth
  phase : t.phase = s.phase
  memStart : t.memStart = s.memStart
  turns : t.turns = s.turns
  hostData : t.hostData = s.hostData
  draws : t.draws = s.draws
  devices : t.devices = s.devices
  palette : s.pal.wf = true → t.pal.wf = true
  written : ∀ i, cellGet? t.pal i = none → cellGet? s.pal i = none
  source : srcOff s ≤ srcLen s → srcOff s ≤ srcOff t ∧ srcOff t ≤ srcLen t
  trace : ∃ evs, t.history = evs ++ s.history ∧ t.mem = s.mem.replay evs.reverse ∧
    ∀ e ∈ evs, e.kind = .write → inRegion e.addr R = true

theorem Kept.refl (kc : Bool) (R : Nat × Nat) (s : State) : Kept kc R s s where
  csr := rfl
  palCount := fun _ => rfl
  palCountMask := id
  status := rfl
  outLen := rfl
  curX := rfl
  curY := rfl
  pixDone := rfl
  resultDepth := rfl
  phase := rfl
  memStart := rfl
  turns := rfl
  hostData := rfl
  draws := rfl
  devices := rfl
  palette := id
  written := fun _ => id
  source := fun h => ⟨Nat.le_refl _, h⟩
  trace := ⟨[], rfl, rfl, by simp⟩

theorem Kept.trans {kc : Bool} {R : Nat × Nat} {s t u : State} (h : Kept kc R s t) (k : Kept kc R t u) :
    Kept kc R s u where
  csr := k.csr.trans h.csr
  palCount := fun e => (k.palCount e).trans (h.palCount e)
  palCountMask := fun e => k.palCountMask (h.palCountMask e)
  status := k.status.trans h.status
  outLen := k.outLen.trans h.outLen
  curX := k.curX.trans h.curX
  curY := k.curY.trans h.curY
  pixDone := k.pixDone.trans h.pixDone
  resultDepth := k.resultDepth.trans h.resultDepth
  phase := k.phase.trans h.phase
  memStart := k.memStart.trans h.memStart
  turns := k.turns.trans h.turns
  hostData := k.hostData.trans h.hostData
  draws := k.draws.trans h.draws
  devices := k.devices.trans h.devices
  palette := fun e => k.palette (h.palette e)
  written := fun i e => h.written i (k.written i e)
  source := fun e => by
    have h1 := h.source e
    have h2 := k.source h1.2
    exact ⟨by omega, h2.2⟩
  trace := by
    obtain ⟨es, h1, h2, h3⟩ := h.trace
    obtain ⟨fs, k1, k2, k3⟩ := k.trace
    refine ⟨fs ++ es, by rw [k1, h1, List.append_assoc], ?_, ?_⟩
    · rw [k2, h2, List.reverse_append, Memory.replay_append]
    · intro e he
      rcases List.mem_append.mp he with he | he
      · exact k3 e he
      · exact h3 e he

/-- An operation keeps what `Kept` says from `s`, and stops only as `goodStop` says. -/
structure Keeps {α : Type} (kc : Bool) (R : Nat × Nat) (m : Eng α) (s : State) : Prop where
  after : Kept kc R s (stateAfter (m s))
  stop : ∀ e t, m s = .error e t → goodStop R s e

section Rules
variable {α β : Type} {kc : Bool} {R : Nat × Nat}

theorem Keeps.ofOk {m : Eng α} {s t : State} {a : α} (h : m s = .ok a t) (k : Kept kc R s t) : Keeps kc R m s where
  after := by rw [h]; exact k
  stop := by intro e u he; rw [h] at he; cases he

theorem Keeps.ofError {m : Eng α} {s : State} {e : Stop} (h : m s = .error e s) (g : goodStop R s e) :
    Keeps kc R m s where
  after := by rw [h]; exact .refl kc R s
  stop := by intro e' u he; rw [h] at he; cases he; exact g

theorem madeFrom_refl (s : State) : madeFrom R s s.history := ⟨[], rfl, by simp⟩

theorem Kept.madeFrom {s t : State} (h : Kept kc R s t) {made : List BusEvent} (k : Machine.madeFrom R t made) :
    Machine.madeFrom R s made := by
  obtain ⟨es, h1, -, h2⟩ := h.trace
  obtain ⟨fs, k1, k2⟩ := k
  refine ⟨fs ++ es, by rw [k1, h1, List.append_assoc], fun e he => ?_⟩
  rcases List.mem_append.mp he with he | he
  · exact k2 e he
  · exact h2 e he

theorem Kept.goodStop {s t : State} (h : Kept kc R s t) {e : Stop} (g : Machine.goodStop R t e) :
    Machine.goodStop R s e := by
  unfold Machine.goodStop at *
  split at g
  · exact g
  · exact ⟨h.written _ g.1, h.madeFrom g.2⟩
  · exact g
  · exact g

theorem Keeps.bind {m : Eng α} {f : α → Eng β} {s : State} (hm : Keeps kc R m s)
    (hf : ∀ a t, m s = .ok a t → Kept kc R s t → Keeps kc R (f a) t) : Keeps kc R (m >>= f) s := by
  have ha := hm.after
  cases h : m s with
  | ok a t =>
    rw [h] at ha
    have := hf a t h ha
    refine ⟨?_, ?_⟩
    · rw [run_bind_ok h]; exact ha.trans this.after
    · intro e u he
      rw [run_bind_ok h] at he
      exact ha.goodStop (this.stop e u he)
  | error e t =>
    rw [h] at ha
    refine ⟨?_, ?_⟩
    · rw [run_bind_error h]; exact ha
    · intro e' u he
      rw [run_bind_error h] at he
      cases he
      exact hm.stop e t h

theorem Keeps.pure (a : α) (s : State) : Keeps kc R (Pure.pure a : Eng α) s := .ofOk rfl (.refl kc R s)

theorem Keeps.readState {f : State → Eng β} {s : State} (h : Keeps kc R (f s) s) :
    Keeps kc R (Machine.readState >>= f) s := by
  refine ⟨?_, ?_⟩
  · rw [run_readState_bind]; exact h.after
  · intro e t he; rw [run_readState_bind] at he; exact h.stop e t he

theorem Keeps.update {g : State → State} {s : State} (h : Kept kc R s (g s)) : Keeps kc R (Machine.update g) s :=
  .ofOk rfl h

theorem Keeps.raise {c : Code} {s : State} (h : c ≠ .success) : Keeps kc R (Machine.raise c : Eng α) s :=
  .ofError rfl h

theorem Keeps.ite {c : Prop} [Decidable c] {m n : Eng α} {s : State} (hm : c → Keeps kc R m s)
    (hn : ¬ c → Keeps kc R n s) : Keeps kc R (if c then m else n) s := by
  split
  · next h => exact hm h
  · next h => exact hn h

/-- A loop keeps what every round keeps; `P` is what may be assumed of the state before round `i`. -/
theorem Keeps.forUpTo {n : Nat} {body : Nat → Eng Unit} {s : State} (P : Nat → State → Prop) (h0 : P 0 s)
    (hP : ∀ i t u, i < n → Kept kc R s t → P i t → body i t = .ok () u → P (i + 1) u)
    (hb : ∀ i t, i < n → Kept kc R s t → P i t → Keeps kc R (body i) t) : Keeps kc R (Machine.forUpTo n body) s := by
  suffices h : Keeps kc R (Machine.forUpTo n body) s ∧ ∀ u, Machine.forUpTo n body s = .ok () u → P n u from h.1
  induction n with
  | zero => exact ⟨.pure () s, by intro u hu; cases hu; exact h0⟩
  | succ n ih =>
    obtain ⟨k, kP⟩ := ih (fun i t u hi => hP i t u (by omega)) (fun i t hi => hb i t (by omega))
    refine ⟨k.bind fun a t ht hk => hb n t (by omega) hk (kP t ht), ?_⟩
    intro u hu
    rw [Machine.forUpTo] at hu
    cases h : Machine.forUpTo n body s with
    | ok a t =>
      rw [run_bind_ok h] at hu
      have ka := k.after
      rw [h] at ka
      exact hP n t u (by omega) ka (kP t h) hu
    | error e t => rw [run_bind_error h] at hu; cases hu

/-- A loop whose rounds need nothing but what `Kept` says. -/
theorem Keeps.forUpTo' {n : Nat} {body : Nat → Eng Unit} {s : State}
    (hb : ∀ i t, i < n → Kept kc R s t → Keeps kc R (body i) t) : Keeps kc R (Machine.forUpTo n body) s :=
  .forUpTo (fun _ _ => True) trivial (fun _ _ _ _ _ _ _ => trivial) (fun i t hi hk _ => hb i t hi hk)

end Rules

/-! ### Updates of fields that `Kept` does not mention -/

section Updates
variable (kc : Bool) (R : Nat × Nat)

/-- An update of the cursor, LINE and the counters. -/
theorem Kept.internal (s : State) (x y : Cursor) (line : List Byte) (outN pixK row : Nat) (ex : Bool) :
    Kept kc R s { s with x := x, y := y, line := line, outN := outN, pixK := pixK, row := row, exhausted := ex } where
  csr := rfl
  palCount := fun _ => rfl
  palCountMask := id
  status := rfl
  outLen := rfl
  curX := rfl
  curY := rfl
  pixDone := rfl
  resultDepth := rfl
  phase := rfl
  memStart := rfl
  turns := rfl
  hostData := rfl
  draws := rfl
  devices := rfl
  palette := id
  written := fun _ => id
  source := fun h => ⟨Nat.le_refl _, h⟩
  trace := ⟨[], rfl, rfl, by simp⟩

theorem Kept.logRead (s : State) (a : Nat) : Kept kc R s (s.logRead a) where
  csr := rfl
  palCount := fun _ => rfl
  palCountMask := id
  status := rfl
  outLen := rfl
  curX := rfl
  curY := rfl
  pixDone := rfl
  resultDepth := rfl
  phase := rfl
  memStart := rfl
  turns := rfl
  hostData := rfl
  draws := rfl
  devices := rfl
  palette := id
  written := fun _ => id
  source := fun h => ⟨Nat.le_refl _, h⟩
  trace := ⟨[⟨.read, a, s.mem.read a⟩], rfl, rfl, by simp⟩

theorem Kept.busWrite {R : Nat × Nat} (s : State) {a : Nat} (v : Byte) (h : inRegion a R = true) :
    Kept kc R s (s.busWrite a v) where
  csr := rfl
  palCount := fun _ => rfl
  palCountMask := id
  status := rfl
  outLen := rfl
  curX := rfl
  curY := rfl
  pixDone := rfl
  resultDepth := rfl
  phase := rfl
  memStart := rfl
  turns := rfl
  hostData := rfl
  draws := rfl
  devices := rfl
  palette := id
  written := fun _ => id
  source := fun h => ⟨Nat.le_refl _, h⟩
  trace := ⟨[⟨.write, a, v⟩], rfl, rfl, by simpa using h⟩

theorem Kept.palPut (s : State) {i : Nat} (v : Pixel) (h : i < Config.palMax) : Kept kc R s (s.palPut i v) where
  csr := rfl
  palCount := fun _ => rfl
  palCountMask := id
  status := rfl
  outLen := rfl
  curX := rfl
  curY := rfl
  pixDone := rfl
  resultDepth := rfl
  phase := rfl
  memStart := rfl
  turns := rfl
  hostData := rfl
  draws := rfl
  devices := rfl
  palette := fun e => PaletteRam.wf_put v h e
  written := fun j e => by
    simp only [State.palPut_pal, cellGet?_put] at e
    split at e
    · cases e
    · exact e
  source := fun h => ⟨Nat.le_refl _, h⟩
  trace := ⟨[], rfl, rfl, by simp⟩

/-- `SRC_POS <- SRC_POS + n` within the source. -/
theorem Kept.advance (s : State) {n : Nat} (h : srcOff s + n ≤ srcLen s) : Kept kc R s (s.advance n) where
  csr := rfl
  palCount := fun _ => rfl
  palCountMask := id
  status := rfl
  outLen := rfl
  curX := rfl
  curY := rfl
  pixDone := rfl
  resultDepth := rfl
  phase := rfl
  memStart := rfl
  turns := rfl
  hostData := rfl
  draws := rfl
  devices := rfl
  palette := id
  written := fun _ => id
  source := fun _ => by
    have hl := s.csr.srcLen.isLt
    simp only [srcOff, srcLen, State.advance, BitVec.toNat_ofNat] at *
    rw [Nat.mod_eq_of_lt (by omega)]
    omega
  trace := ⟨[], rfl, rfl, by simp⟩

theorem Kept.setPalCount (R : Nat × Nat) (s : State) {v : Word} (h : v &&& regMask .palCount = v) :
    Kept false R s { s with palCount := v } where
  csr := rfl
  palCount := fun e => absurd e (by simp)
  palCountMask := fun _ => h
  status := rfl
  outLen := rfl
  curX := rfl
  curY := rfl
  pixDone := rfl
  resultDepth := rfl
  phase := rfl
  memStart := rfl
  turns := rfl
  hostData := rfl
  draws := rfl
  devices := rfl
  palette := id
  written := fun _ => id
  source := fun h => ⟨Nat.le_refl _, h⟩
  trace := ⟨[], rfl, rfl, by simp⟩

end Updates

/-! ### Operations -/

section Ops
variable {kc : Bool} {R : Nat × Nat}

/-- The register values that `Kept` keeps. -/
theorem Kept.values {s t : State} (h : Kept kc R s t) :
    srcBase t = srcBase s ∧ srcLen t = srcLen s ∧ pixBase t = pixBase s ∧ width t = width s ∧ height t = height s ∧
      outBase t = outBase s ∧ outCap t = outCap s ∧ depth t = depth s ∧ pcxStride t = pcxStride s := by
  simp [srcBase, srcLen, pixBase, width, height, outBase, outCap, depth, pcxStride, pcxBpl, pcxPlanes, h.csr]

theorem Kept.sourceFits {s t : State} (h : Kept kc R s t) (k : sourceFits s) : Machine.sourceFits t := by
  unfold Machine.sourceFits at *
  obtain ⟨h1, h2, -⟩ := h.values
  rw [h1, h2]; exact k

theorem Kept.imageFits {s t : State} (h : Kept kc R s t) (k : imageFits s) : Machine.imageFits t := by
  unfold Machine.imageFits at *
  obtain ⟨-, -, h3, h4, h5, -⟩ := h.values
  rw [h3, h4, h5]; exact k

/-- The image of PIX as a region (R71). -/
def imageRegion (s : State) : Nat × Nat := (pixBase s, width s * height s * 4)

theorem Kept.imageRegion {s t : State} (h : Kept kc R s t) : Machine.imageRegion t = Machine.imageRegion s := by
  obtain ⟨-, -, h3, h4, h5, -⟩ := h.values
  simp [Machine.imageRegion, h3, h4, h5]

theorem Keeps.memRead {a : Nat} (h : a < 2 ^ Config.addrBits) (s : State) : Keeps kc R (memRead a) s :=
  .ofOk (memRead_ok h s) (.logRead kc R s a)

theorem Keeps.memWrite {a : Nat} (v : Byte) (h : a < 2 ^ Config.addrBits) (hR : inRegion a R = true) (s : State) :
    Keeps kc R (memWrite a v) s := .ofOk (memWrite_ok v h s) (.busWrite kc s v hR)

theorem Keeps.memReadBytes {a n : Nat} (h : a + n ≤ 2 ^ Config.addrBits) (s : State) :
    Keeps kc R (memReadBytes a n) s := by
  induction n generalizing a s with
  | zero => exact .pure _ s
  | succ n ih =>
    exact (Keeps.memRead (by omega) s).bind fun _ t _ _ => (ih (by omega) t).bind fun _ u _ _ => .pure _ u

theorem Keeps.memWriteBytes {a : Nat} {vs : List Byte} (h : a + vs.length ≤ 2 ^ Config.addrBits)
    (hR : R.1 ≤ a ∧ a + vs.length ≤ R.1 + R.2) (s : State) : Keeps kc R (memWriteBytes a vs) s := by
  induction vs generalizing a s with
  | nil => exact .pure _ s
  | cons v vs ih =>
    simp only [List.length_cons] at h hR
    exact (Keeps.memWrite v (by omega) (by simp [inRegion]; omega) s).bind fun _ t _ _ =>
      ih (by omega) ⟨by omega, by omega⟩ t

theorem Keeps.srcByte {off : Nat} {s : State} (h : off < srcLen s) (hf : sourceFits s) : Keeps kc R (srcByte off) s :=
  .readState (.memRead (by unfold sourceFits at hf; omega) s)

theorem Keeps.takeSrc {n : Nat} {s : State} (h : srcOff s + n ≤ srcLen s) (hf : sourceFits s) :
    Keeps kc R (takeSrc n) s := by
  have hb : srcBase s + srcOff s + n ≤ 2 ^ Config.addrBits := by unfold sourceFits at hf; omega
  refine .readState ((Keeps.memReadBytes hb s).bind fun bs t ht hk => ?_)
  refine (Keeps.update (Kept.advance kc R t ?_)).bind fun _ u _ _ => .pure _ u
  rw [memReadBytes_ok hb s] at ht
  cases ht
  exact h

/-- R76. -/
theorem Keeps.readSrc {n : Nat} {s : State} (hf : sourceFits s) : Keeps kc R (readSrc n) s :=
  .readState (.ite (fun _ => .raise (by simp)) fun h => .takeSrc (by omega) hf)

theorem Keeps.pixWrite {x y : Nat} {s : State} (p : Pixel) (hx : x < width s) (hy : y < height s) (hf : imageFits s)
    (hR : R = imageRegion s) : Keeps kc R (pixWrite x y p) s := by
  have h := pixAddr_lt hx hy
  have hb : pixBase s ≤ pixAddr s x y := by unfold pixAddr; omega
  unfold Machine.imageFits at hf
  refine .readState (.memWriteBytes (by rw [wordBytes_length]; omega) ?_ s)
  rw [wordBytes_length, hR]
  exact ⟨hb, h⟩

theorem Keeps.pixRead {x y : Nat} {s : State} (hx : x < width s) (hy : y < height s) (hf : imageFits s) :
    Keeps kc R (pixRead x y) s := by
  have h := pixAddr_lt hx hy
  unfold Machine.imageFits at hf
  exact .readState ((Keeps.memReadBytes (by omega) s).bind fun _ t _ _ => .pure _ t)

theorem Keeps.outByte {b : Byte} {s : State} (hf : outBase s + outCap s ≤ 2 ^ Config.addrBits)
    (hR : R = outRegion s) : Keeps kc R (outByte b) s := by
  refine .readState (.ite (fun _ => .raise (by simp)) fun h => ?_)
  refine (Keeps.memWrite b (by omega) ?_ s).bind fun _ t _ _ => .update ?_
  · rw [hR]; simp [inRegion, outRegion]; omega
  · exact .internal kc R t t.x t.y t.line (t.outN + 1) t.pixK t.row t.exhausted

theorem Keeps.outBytes {bs : List Byte} {s : State} (hf : outBase s + outCap s ≤ 2 ^ Config.addrBits)
    (hR : R = outRegion s) : Keeps kc R (outBytes bs) s := by
  induction bs generalizing s with
  | nil => exact .pure _ s
  | cons b bs ih =>
    refine (Keeps.outByte hf hR).bind fun _ t _ hk => ?_
    obtain ⟨-, -, -, -, -, h6, h7, -⟩ := hk.values
    exact ih (by rw [h6, h7]; exact hf) (by rw [hR]; simp [outRegion, h6, h7])

theorem Keeps.palLookup (i : Nat) (s : State) : Keeps kc R (palLookup i) s := by
  cases h : cellGet? s.pal i with
  | some p => exact .ofOk (palLookup_ok h) (.refl ..)
  | none => exact .ofError (palLookup_unwritten h) ⟨h, madeFrom_refl s⟩

theorem Keeps.palWrite {i : Nat} (v : Pixel) (h : i < Config.palMax) (s : State) : Keeps kc R (palWrite i v) s :=
  .update (.palPut kc R s v h)

theorem Keeps.lookupBmp (i : Nat) (s : State) : Keeps kc R (lookupBmp i) s := .readState (.palLookup _ s)

theorem Keeps.lookupPcx (i : Nat) (s : State) : Keeps kc R (lookupPcx i) s :=
  .readState (.ite (fun _ => .pure _ s) fun _ => .palLookup _ s)

theorem Keeps.lookupTga (i : Nat) (s : State) : Keeps kc R (lookupTga i) s :=
  .readState (.ite (fun _ => .palLookup _ s) fun _ => .pure _ s)

end Ops

end Sys2Proof.Machine
end

