-- ==== Sys2Proof/Laws/Bodies.lean ====
section
/-!
SUPPORT. Every body and every token of Machine/ keeps what `Kept` says, from a state that is ready for it.
-/

namespace Sys2Proof.Machine

variable {kc : Bool} {R : Nat × Nat}

/-! ### What the gates give -/

theorem regionFits_of {op : Op} {arg : Byte} {s : State} (h : check op arg s = none) {r : Nat × Nat}
    (hr : r ∈ regionsOf op s) : r.1 + r.2 ≤ 2 ^ Config.addrBits := by
  have := firstFailing_none.mp h ((regionsOf op s).any (fun r => !regionFits r), .generic)
    (by simp [commonGates])
  simp only [List.any_eq_false, regionFits] at this
  simpa using this r hr

theorem ready.sourceFits {op : Op} {arg : Byte} {s : State} (h : ready op arg s) (u : usesSrc op = true) :
    Machine.sourceFits s := regionFits_of h.1 (r := srcRegion s) (by simp [regionsOf, u])

theorem ready.outFits {op : Op} {arg : Byte} {s : State} (h : ready op arg s) (u : usesOut op = true) :
    outBase s + outCap s ≤ 2 ^ Config.addrBits := regionFits_of h.1 (r := outRegion s) (by simp [regionsOf, u])

theorem ready.pixCap {op : Op} {arg : Byte} {s : State} (h : ready op arg s) (u : usesPix op = true) :
    pixBase s + Machine.pixCap s ≤ 2 ^ Config.addrBits ∧ width s * height s * 4 ≤ Machine.pixCap s := by
  refine ⟨regionFits_of h.1 (r := pixRegion s) (by simp [regionsOf, u]), ?_⟩
  have := firstFailing_none.mp h.1
    (usesPix op && decide (width s * height s * 4 > Machine.pixCap s), .generic) (by simp [commonGates])
  simpa [u] using this

theorem ready.imageFits {op : Op} {arg : Byte} {s : State} (h : ready op arg s) (u : usesPix op = true) :
    Machine.imageFits s := by
  obtain ⟨h1, h2⟩ := h.pixCap u
  unfold Machine.imageFits
  omega

theorem ready.source {op : Op} {arg : Byte} {s : State} (h : ready op arg s) (u : usesSrc op = true) :
    srcOff s ≤ srcLen s := by
  have := firstFailing_none.mp h.1 (usesSrc op && decide (srcOff s > srcLen s), .generic) (by simp [commonGates])
  simpa [u] using this

/-! ### Palettes -/

theorem keeps_palLoadBody {arg : Byte} {s : State} (hf : sourceFits s) (hc : palEntries s ≤ 65536) :
    Keeps kc R (palLoadBody arg) s :=
  .readState ((Keeps.readSrc hf).bind fun _ _ _ _ => .forUpTo' fun i t hi _ =>
    .palWrite _ (by simp only [Config.palMax]; omega) t)

theorem keeps_pcxEgaLoadBody {s : State} (hf : sourceFits s) : Keeps false R pcxEgaLoadBody s :=
  .readState ((Keeps.readSrc hf).bind fun _ _ _ _ =>
    (Keeps.forUpTo' fun i t hi _ => .palWrite _ (by simp only [Config.palMax]; omega) t).bind fun _ t _ _ =>
      .update (.setPalCount R t (by decide)))

/-! ### BMP -/

theorem keeps_bmpPixel (row : List Byte) (x : Nat) (s : State) : Keeps kc R (bmpPixel row x) s :=
  .readState (.ite (fun _ => .lookupBmp _ s) fun _ => .ite (fun _ => .pure _ s) fun _ =>
    .ite (fun _ => .pure _ s) fun _ => .pure _ s)

/-- A pixel inside the image, written from a state that `Kept` relates to `s`. -/
theorem Kept.pixWrite {s t : State} (h : Kept kc (Machine.imageRegion s) s t) {x y : Nat} (p : Pixel) (hf : Machine.imageFits s)
    (hx : x < width s) (hy : y < height s) : Keeps kc (Machine.imageRegion s) (Machine.pixWrite x y p) t := by
  obtain ⟨-, -, -, hw, hh, -⟩ := h.values
  exact .pixWrite p (by rw [hw]; exact hx) (by rw [hh]; exact hy) (h.imageFits hf) h.imageRegion.symm

theorem keeps_bmpDecodeRawBody {s : State} (hs : sourceFits s) (hf : imageFits s) :
    Keeps kc (imageRegion s) bmpDecodeRawBody s := by
  refine .readState ((Keeps.readSrc hs).bind fun data t _ h1 => .forUpTo' fun r u hr h2 =>
    .forUpTo' fun x v hx h3 => ?_)
  refine (keeps_bmpPixel _ _ v).bind fun p w _ h4 => ?_
  refine (((h1.trans h2).trans h3).trans h4).pixWrite p hf hx ?_
  unfold bmpRow
  split <;> omega

theorem keeps_prefill {s : State} (hf : imageFits s) : Keeps kc (imageRegion s) prefill s :=
  .readState (.forUpTo' fun _ _ hy h1 => .forUpTo' fun _ _ hx h2 => (h1.trans h2).pixWrite _ hf hx hy)

theorem keeps_bmpRleSetup {s : State} (hf : imageFits s) : Keeps kc (imageRegion s) bmpRleSetup s :=
  (keeps_prefill hf).bind fun _ t _ _ =>
    .update (.internal kc _ t _ _ t.line t.outN t.pixK t.row t.exhausted)

theorem keeps_putIdx {s t : State} (h : Kept kc (imageRegion s) s t) (hf : imageFits s) (x y : Int) (i : Nat) :
    Keeps kc (imageRegion s) (putIdx x y i) t := by
  refine .readState (.ite (fun hin => ?_) fun _ => .pure _ t)
  obtain ⟨-, -, -, hw, hh, -⟩ := h.values
  simp only [inImage, hw, hh, Bool.and_eq_true, decide_eq_true_eq] at hin
  exact (Keeps.lookupBmp i t).bind fun p u _ h2 => (h.trans h2).pixWrite p hf (by omega) (by omega)

theorem keeps_placeIndices {s t : State} (h : Kept kc (imageRegion s) s t) (hf : imageFits s) (n : Nat)
    (index : Nat → Nat) : Keeps kc (imageRegion s) (placeIndices n index) t :=
  .readState ((Keeps.forUpTo' fun _ _ _ h2 => keeps_putIdx (h.trans h2) hf _ _ _).bind fun _ u _ _ =>
    .update (.internal kc _ u _ u.y u.line u.outN u.pixK u.row u.exhausted))

theorem keeps_abs8 {s : State} (n : Byte) (hs : sourceFits s) (hf : imageFits s) :
    Keeps kc (imageRegion s) (abs8 n) s :=
  (Keeps.readSrc hs).bind fun _ _ _ h => keeps_placeIndices h hf _ _

theorem keeps_abs4 {s : State} (n : Byte) (hs : sourceFits s) (hf : imageFits s) :
    Keeps kc (imageRegion s) (abs4 n) s :=
  (Keeps.readSrc hs).bind fun _ _ _ h => keeps_placeIndices h hf _ _

theorem keeps_rleEol (s : State) : Keeps kc R rleEol s :=
  .update (.internal kc R s _ _ s.line s.outN s.pixK s.row s.exhausted)

theorem keeps_rleDelta {s : State} (hs : sourceFits s) : Keeps kc R rleDelta s :=
  (Keeps.readSrc hs).bind fun _ t _ _ => .update (.internal kc R t _ _ t.line t.outN t.pixK t.row t.exhausted)

/-! ### Encoders -/

theorem keeps_readPixels {s t : State} (h : Kept kc R s t) (hf : imageFits s) (y x n : Nat) (hy : y < height s)
    (hx : x + n ≤ width s) : Keeps kc R (readPixels y x n) t := by
  induction n generalizing x t with
  | zero => exact .pure _ t
  | succ n ih =>
    obtain ⟨-, -, -, hw, hh, -⟩ := h.values
    exact (Keeps.pixRead (by omega) (by omega) (h.imageFits hf)).bind fun _ u _ h2 =>
      (ih (h.trans h2) (x + 1) (by omega)).bind fun _ v _ _ => .pure _ v

theorem Kept.outBytes {s t : State} (h : Kept kc (outRegion s) s t) (ho : outBase s + outCap s ≤ 2 ^ Config.addrBits)
    (bs : List Byte) : Keeps kc (outRegion s) (Machine.outBytes bs) t := by
  obtain ⟨-, -, -, -, -, h6, h7, -⟩ := h.values
  exact .outBytes (by rw [h6, h7]; exact ho) (by simp [outRegion, h6, h7])

theorem keeps_bmpEncodeBody {s : State} (hf : imageFits s) (ho : outBase s + outCap s ≤ 2 ^ Config.addrBits) :
    Keeps kc (outRegion s) bmpEncodeBody s := by
  refine .readState ((Keeps.forUpTo' fun i t hi h1 => .ite (fun _ => ?_) fun _ => ?_).bind fun _ u _ h =>
    .ite (fun _ => h.outBytes ho _) fun _ => .pure _ u)
  · have hw := h1.values.2.2.2.1
    refine .readState ((keeps_readPixels h1 hf _ 0 _ (by omega) (by omega)).bind fun _ u _ h2 => ?_)
    exact ((h1.trans h2).outBytes ho _).bind fun _ v _ h3 => ((h1.trans h2).trans h3).outBytes ho _
  · have hw := h1.values.2.2.2.1
    have hh := h1.values.2.2.2.2.1
    refine .readState ((Keeps.forUpTo' fun x u hx h2 => ?_).bind fun _ u _ h2 => (h1.trans h2).outBytes ho _)
    have h12 := h1.trans h2
    have hw2 := h12.values.2.2.2.1
    have hh2 := h12.values.2.2.2.2.1
    exact (Keeps.pixRead (by omega) (by omega) (h12.imageFits hf)).bind fun _ v _ h3 => (h12.trans h3).outBytes ho _

theorem keeps_tgaEncodeBody {s : State} (hf : imageFits s) (ho : outBase s + outCap s ≤ 2 ^ Config.addrBits) :
    Keeps kc (outRegion s) tgaEncodeBody s := by
  refine .readState (.forUpTo' fun i t hi h1 => ?_)
  have hw := h1.values.2.2.2.1
  refine .readState ((keeps_readPixels h1 hf _ 0 _ (by omega) (by omega)).bind fun _ u _ h2 => ?_)
  exact .ite (fun _ => (h1.trans h2).outBytes ho _) fun _ => (h1.trans h2).outBytes ho _

/-! ### TGA -/

theorem logicalRow_one (h fy : Nat) :
    logicalRow 1 h fy = if fy < (h + 1) / 2 then 2 * fy else 2 * (fy - (h + 1) / 2) + 1 := rfl

theorem logicalRow_two (m h fy : Nat) : logicalRow (m + 2) h fy =
    if fy < (h + 3) / 4 then 4 * fy
    else if fy < (h + 3) / 4 + (h - 1 + 3) / 4 then 4 * (fy - (h + 3) / 4) + 1
    else if fy < (h + 3) / 4 + (h - 1 + 3) / 4 + (h - 2 + 3) / 4 then
      4 * (fy - ((h + 3) / 4 + (h - 1 + 3) / 4)) + 2
    else 4 * (fy - ((h + 3) / 4 + (h - 1 + 3) / 4 + (h - 2 + 3) / 4)) + 3 := rfl

/-- R298: the logical row of a file row is a row of the image. -/
theorem logicalRow_lt {mode h fy : Nat} (hfy : fy < h) : logicalRow mode h fy < h := by
  match mode with
  | 0 => exact hfy
  | 1 => rw [logicalRow_one]; split <;> omega
  | m + 2 => rw [logicalRow_two]; split_ifs <;> omega

/-- R298: the canonical position of a file pixel is inside the image. -/
theorem tgaMap_lt {s : State} {fx fy : Nat} (hx : fx < width s) (hy : fy < height s) :
    (tgaMap s fx fy).1 < width s ∧ (tgaMap s fx fy).2 < height s := by
  have := logicalRow_lt (mode := interleave s) hy
  constructor
  · simp only [tgaMap]; split <;> omega
  · simp only [tgaMap]; split <;> omega

theorem tgaPlace_lt {s : State} {k : Nat} (h : k < pixelTotal s) :
    (tgaPlace s k).1 < width s ∧ (tgaPlace s k).2 < height s := by
  unfold pixelTotal at h
  have hw : 0 < width s := Nat.pos_of_ne_zero (by intro e; simp [e] at h)
  exact tgaMap_lt (Nat.mod_lt _ hw) (Nat.div_lt_of_lt_mul h)

theorem keeps_tgaSample (bs : List Byte) (s : State) : Keeps kc R (tgaSample bs) s :=
  .readState (.ite (fun _ => .pure _ s) fun _ => .ite (fun _ => .pure _ s) fun _ => .lookupTga _ s)

theorem Kept.pixelTotal {s t : State} (h : Kept kc R s t) : Machine.pixelTotal t = Machine.pixelTotal s := by
  simp [Machine.pixelTotal, h.values]

theorem keeps_placeNext {s t : State} (h : Kept kc (imageRegion s) s t) (hf : imageFits s) (p : Pixel)
    (hk : t.pixK < pixelTotal s) : Keeps kc (imageRegion s) (placeNext p) t := by
  obtain ⟨-, -, -, hw, hh, -⟩ := h.values
  have := tgaPlace_lt (s := t) (k := t.pixK) (by rw [h.pixelTotal]; exact hk)
  refine .readState ((h.pixWrite p hf (by rw [← hw]; exact this.1) (by rw [← hh]; exact this.2)).bind fun _ u _ _ => ?_)
  exact .update (.internal kc _ u u.x u.y u.line u.outN (u.pixK + 1) u.row u.exhausted)

/-- `t` has the pixel counter, the scanline and LINE of `s`. -/
def sameCounters (s t : State) : Prop := t.pixK = s.pixK ∧ t.row = s.row ∧ t.line = s.line

/-- Operations that leave the pixel counter, the scanline and LINE. -/
def fixesCounters {α : Type} (m : Eng α) : Prop := ∀ s t a, m s = .ok a t → sameCounters s t

theorem fixesCounters.bind {α β : Type} {m : Eng α} {f : α → Eng β} (hm : fixesCounters m) (hf : ∀ a, fixesCounters (f a)) :
    fixesCounters (m >>= f) := by
  intro s u b h
  cases hr : m s with
  | ok a t =>
    rw [run_bind_ok hr] at h
    obtain ⟨h1, h2, h3⟩ := hm s t a hr
    obtain ⟨k1, k2, k3⟩ := hf a t u b h
    exact ⟨k1.trans h1, k2.trans h2, k3.trans h3⟩
  | error e t => rw [run_bind_error hr] at h; cases h

theorem fixesCounters_pure {α : Type} (a : α) : fixesCounters (pure a : Eng α) := by
  intro s t b h; cases h; exact ⟨rfl, rfl, rfl⟩

theorem fixesCounters_readState : fixesCounters readState := by intro s t a h; cases h; exact ⟨rfl, rfl, rfl⟩

theorem fixesCounters_ite {α : Type} {c : Prop} [Decidable c] {m n : Eng α} (hm : fixesCounters m)
    (hn : fixesCounters n) : fixesCounters (if c then m else n) := by
  split
  · exact hm
  · exact hn

theorem fixesCounters_forUpTo {n : Nat} {body : Nat → Eng Unit} (h : ∀ i, fixesCounters (body i)) :
    fixesCounters (forUpTo n body) := by
  induction n with
  | zero => exact fixesCounters_pure ()
  | succ n ih => exact ih.bind fun _ => h n

theorem fixesCounters_update {g : State → State} (hg : ∀ s, sameCounters s (g s)) : fixesCounters (update g) := by
  intro s t a h; cases h; exact hg s

theorem fixesCounters_memRead (a : Nat) : fixesCounters (memRead a) := by
  intro s t b h
  unfold memRead at h
  split at h <;> cases h
  exact ⟨rfl, rfl, rfl⟩

theorem fixesCounters_memWrite (a : Nat) (v : Byte) : fixesCounters (memWrite a v) := by
  intro s t b h
  unfold memWrite at h
  split at h <;> cases h
  exact ⟨rfl, rfl, rfl⟩

theorem fixesCounters_memReadBytes (a n : Nat) : fixesCounters (memReadBytes a n) := by
  induction n generalizing a with
  | zero => exact fixesCounters_pure _
  | succ n ih => exact (fixesCounters_memRead a).bind fun _ => (ih (a + 1)).bind fun _ => fixesCounters_pure _

theorem fixesCounters_memWriteBytes (a : Nat) (vs : List Byte) : fixesCounters (memWriteBytes a vs) := by
  induction vs generalizing a with
  | nil => exact fixesCounters_pure _
  | cons v vs ih => exact (fixesCounters_memWrite a v).bind fun _ => ih (a + 1)

theorem fixesCounters_readSrc (n : Nat) : fixesCounters (readSrc n) := by
  refine fixesCounters_readState.bind fun s => ?_
  split
  · intro u t b h; cases h
  · exact fixesCounters_readState.bind fun t => (fixesCounters_memReadBytes _ _).bind fun _ =>
      (fixesCounters_update (g := (·.advance n)) (fun _ => ⟨rfl, rfl, rfl⟩)).bind fun _ => fixesCounters_pure _

theorem fixesCounters_palLookup (i : Nat) : fixesCounters (palLookup i) := by
  intro s t b h
  unfold palLookup at h
  split at h <;> cases h
  exact ⟨rfl, rfl, rfl⟩

theorem fixesCounters_pixWrite (x y : Nat) (p : Pixel) : fixesCounters (pixWrite x y p) :=
  fixesCounters_readState.bind fun _ => fixesCounters_memWriteBytes _ _

theorem fixesCounters_pixRead (x y : Nat) : fixesCounters (pixRead x y) :=
  fixesCounters_readState.bind fun _ => (fixesCounters_memReadBytes _ _).bind fun _ => fixesCounters_pure _

theorem fixesCounters_srcByte (off : Nat) : fixesCounters (srcByte off) :=
  fixesCounters_readState.bind fun _ => fixesCounters_memRead _

theorem fixesCounters_palWrite (i : Nat) (v : Pixel) : fixesCounters (palWrite i v) :=
  fixesCounters_update fun _ => ⟨rfl, rfl, rfl⟩

theorem fixesCounters_tgaSample (bs : List Byte) : fixesCounters (tgaSample bs) := by
  refine fixesCounters_readState.bind fun s => ?_
  split
  · exact fixesCounters_pure _
  · split
    · exact fixesCounters_pure _
    · refine fixesCounters_readState.bind fun s => ?_
      split
      · exact fixesCounters_palLookup _
      · exact fixesCounters_pure _

/-- R252: placing a pixel counts it. -/
theorem placeNext_pixK {p : Pixel} {s t : State} (h : placeNext p s = .ok () t) : t.pixK = s.pixK + 1 := by
  rw [placeNext, run_readState_bind] at h
  cases hr : pixWrite (tgaMap s (s.pixK % width s) (s.pixK / width s)).1
    (tgaMap s (s.pixK % width s) (s.pixK / width s)).2 p s with
  | ok a u =>
    rw [run_bind_ok hr] at h
    cases h
    simp [(fixesCounters_pixWrite _ _ _ s u a hr).1]
  | error e u => rw [run_bind_error hr] at h; cases h

theorem keeps_tgaReadSample {s t : State} (h : Kept kc (imageRegion s) s t) (hs : sourceFits s) (hf : imageFits s)
    (hk : t.pixK < pixelTotal s) : Keeps kc (imageRegion s) tgaReadSample t := by
  refine .readState ((Keeps.readSrc (h.sourceFits hs)).bind fun bs u hu h1 => ?_)
  refine (keeps_tgaSample bs u).bind fun p v hv h2 => ?_
  have e1 := (fixesCounters_readSrc _ t u bs hu).1
  have e2 := (fixesCounters_tgaSample _ u v p hv).1
  exact keeps_placeNext ((h.trans h1).trans h2) hf p (by omega)

theorem tgaReadSample_pixK {s t : State} (h : tgaReadSample s = .ok () t) : t.pixK = s.pixK + 1 := by
  rw [tgaReadSample, run_readState_bind] at h
  cases hr : readSrc (sampleSize s) s with
  | ok bs u =>
    rw [run_bind_ok hr] at h
    cases hv : tgaSample bs u with
    | ok p v =>
      rw [run_bind_ok hv] at h
      rw [placeNext_pixK h, (fixesCounters_tgaSample _ u v p hv).1, (fixesCounters_readSrc _ s u bs hr).1]
    | error e v => rw [run_bind_error hv] at h; cases h
  | error e u => rw [run_bind_error hr] at h; cases h

theorem keeps_tgaDecodeRawBody {s : State} (hs : sourceFits s) (hf : imageFits s) :
    Keeps kc (imageRegion s) tgaDecodeRawBody s := by
  have h0 := Kept.internal kc (imageRegion s) s s.x s.y s.line s.outN 0 s.row s.exhausted
  refine (Keeps.update h0).bind fun _ t ht _ => .readState ?_
  cases ht
  refine .forUpTo (fun i u => u.pixK = i) rfl ?_ ?_
  · intro i u v hi _ e hu
    rw [tgaReadSample_pixK hu, e]
  · intro i u hi h1 e
    refine keeps_tgaReadSample (h0.trans h1) hs hf ?_
    rw [e]
    exact hi

theorem keeps_packetTooLong (n : Nat) (s : State) : Keeps kc R (packetTooLong n) s :=
  .readState (.ite (fun _ => .raise (by simp)) fun _ => .pure _ s)

theorem packetTooLong_ok {n : Nat} {s t : State} (h : packetTooLong n s = .ok () t) :
    t = s ∧ s.pixK + n ≤ pixelTotal s := by
  rw [packetTooLong, run_readState_bind, run_ite] at h
  split at h
  · cases h
  · cases h; exact ⟨rfl, by omega⟩

theorem keeps_sampleCut (s : State) : Keeps kc R sampleCut s :=
  .readState (.ite (fun _ => .raise (by simp)) fun _ => .pure _ s)

theorem sampleCut_ok {s t : State} (h : sampleCut s = .ok () t) : t = s ∧ sourceHolds s (sampleSize s) := by
  rw [sampleCut, run_readState_bind, run_ite] at h
  split at h
  · cases h
  · cases h; exact ⟨rfl, by unfold sourceHolds; omega⟩

theorem keeps_tgaRun {s : State} (n : Nat) (hs : sourceFits s) (hf : imageFits s) :
    Keeps kc (imageRegion s) (tgaRun n) s := by
  refine (keeps_packetTooLong n s).bind fun _ t ht _ => ?_
  obtain ⟨rfl, hn⟩ := packetTooLong_ok ht
  refine (keeps_sampleCut t).bind fun _ u hu _ => ?_
  obtain ⟨rfl, -⟩ := sampleCut_ok hu
  refine .readState ((Keeps.readSrc hs).bind fun bs v hv h1 => ?_)
  refine (keeps_tgaSample bs v).bind fun p w hw h2 => ?_
  have e1 := (fixesCounters_readSrc _ u v bs hv).1
  have e2 := (fixesCounters_tgaSample _ v w p hw).1
  refine .forUpTo (fun i z => z.pixK = u.pixK + i) (by omega) ?_ ?_
  · intro i z z' hi _ e hz
    rw [placeNext_pixK hz, e]
    omega
  · intro i z hi h3 e
    exact keeps_placeNext ((h1.trans h2).trans h3) hf p (by omega)

theorem keeps_tgaRaw {s : State} (n : Nat) (hs : sourceFits s) (hf : imageFits s) :
    Keeps kc (imageRegion s) (tgaRaw n) s := by
  refine (keeps_packetTooLong n s).bind fun _ t ht _ => ?_
  obtain ⟨rfl, hn⟩ := packetTooLong_ok ht
  refine .forUpTo (fun i z => z.pixK = t.pixK + i) (by omega) ?_ ?_
  · intro i z z' hi _ e hz
    cases hc : sampleCut z with
    | ok a w =>
      obtain ⟨rfl, -⟩ := sampleCut_ok hc
      rw [run_bind_ok hc] at hz
      rw [tgaReadSample_pixK hz, e]
      omega
    | error c w => rw [run_bind_error hc] at hz; cases hz
  · intro i z hi h1 e
    refine (keeps_sampleCut z).bind fun _ w hw _ => ?_
    obtain ⟨rfl, -⟩ := sampleCut_ok hw
    exact keeps_tgaReadSample h1 hs hf (by omega)

/-- Rounds that each count one pixel count `n` of them. -/
theorem forUpTo_pixK {n : Nat} {body : Nat → Eng Unit} {s t : State}
    (hb : ∀ i u v, body i u = .ok () v → v.pixK = u.pixK + 1) (h : forUpTo n body s = .ok () t) :
    t.pixK = s.pixK + n := by
  induction n generalizing t with
  | zero => cases h; rfl
  | succ n ih =>
    rw [forUpTo] at h
    cases hr : forUpTo n body s with
    | ok a u => rw [run_bind_ok hr] at h; rw [hb n u t h, ih hr]; rfl
    | error e u => rw [run_bind_error hr] at h; cases h

/-- R253: a run packet that is placed counts its pixels, and they are within the image. -/
theorem tgaRun_pixK {n : Nat} {s t : State} (h : tgaRun n s = .ok () t) : t.pixK = s.pixK + n ∧ t.pixK ≤ pixelTotal s := by
  rw [tgaRun] at h
  cases h1 : packetTooLong n s with
  | error e u => rw [run_bind_error h1] at h; cases h
  | ok a u =>
    rw [run_bind_ok h1] at h
    obtain ⟨rfl, hn⟩ := packetTooLong_ok h1
    cases h2 : sampleCut u with
    | error e v => rw [run_bind_error h2] at h; cases h
    | ok b v =>
      rw [run_bind_ok h2, run_readState_bind] at h
      obtain ⟨rfl, -⟩ := sampleCut_ok h2
      cases h3 : readSrc (sampleSize v) v with
      | error e w => rw [run_bind_error h3] at h; cases h
      | ok bs w =>
        rw [run_bind_ok h3] at h
        cases h4 : tgaSample bs w with
        | error e z => rw [run_bind_error h4] at h; cases h
        | ok p z =>
          rw [run_bind_ok h4] at h
          have e1 := (fixesCounters_readSrc _ v w bs h3).1
          have e2 := (fixesCounters_tgaSample _ w z p h4).1
          have e3 := forUpTo_pixK (fun i u' v' hh => placeNext_pixK hh) h
          omega

/-- R254: a raw packet that is placed counts its pixels, and they are within the image. -/
theorem tgaRaw_pixK {n : Nat} {s t : State} (h : tgaRaw n s = .ok () t) : t.pixK = s.pixK + n ∧ t.pixK ≤ pixelTotal s := by
  rw [tgaRaw] at h
  cases h1 : packetTooLong n s with
  | error e u => rw [run_bind_error h1] at h; cases h
  | ok a u =>
    rw [run_bind_ok h1] at h
    obtain ⟨rfl, hn⟩ := packetTooLong_ok h1
    have e3 := forUpTo_pixK (fun i u' v' hh => by
      cases hc : sampleCut u' with
      | ok a w =>
        obtain ⟨rfl, -⟩ := sampleCut_ok hc
        rw [run_bind_ok hc] at hh
        exact tgaReadSample_pixK hh
      | error c w => rw [run_bind_error hc] at hh; cases hh) h
    omega

/-! ### PCX -/

theorem keeps_scanRaw {s : State} (hs : sourceFits s) (h : srcOff s ≤ srcLen s) : Keeps kc R scanRaw s :=
  .readState ((Keeps.takeSrc (by omega) hs).bind fun _ t _ _ =>
    .update (.internal kc R t t.x t.y _ t.outN t.pixK t.row t.exhausted))

theorem keeps_zeroFillLine (s : State) : Keeps kc R zeroFillLine s :=
  .update (.internal kc R s s.x s.y _ s.outN s.pixK s.row s.exhausted)

theorem keeps_pcxRep {s : State} (k : Nat) (hs : sourceFits s) : Keeps kc R (pcxRep k) s := by
  refine .readState (.ite (fun _ => .update (.internal kc R s s.x s.y s.line s.outN s.pixK s.row true)) fun h => ?_)
  refine (Keeps.srcByte (by omega) hs).bind fun v t ht _ => ?_
  have e : t = s.logRead (srcBase s + srcOff s) := by
    rw [srcByte, run_readState_bind, memRead_ok (by unfold sourceFits at hs; omega)] at ht
    cases ht; rfl
  subst e
  refine (Keeps.update (Kept.advance kc R _ ?_)).bind fun _ u _ _ =>
    .update (.internal kc R u u.x u.y _ u.outN u.pixK u.row u.exhausted)
  simp only [srcOff, srcLen, State.logRead_srcPos, State.logRead_csr] at *
  omega

theorem keeps_pcxLit (b : Byte) (s : State) : Keeps kc R (pcxLit b) s :=
  .update (.internal kc R s s.x s.y _ s.outN s.pixK s.row s.exhausted)

theorem keeps_pcxPixel (x : Nat) (s : State) : Keeps kc R (pcxPixel x) s := by
  refine .readState ?_
  split
  · exact .ite (fun _ => .pure _ s) fun _ => .lookupPcx _ s
  · exact .lookupPcx _ s
  · exact .lookupPcx _ s
  · exact .pure _ s
  · exact .pure _ s
  · exact .pure _ s

theorem keeps_assembleRow {s t : State} (h : Kept kc (imageRegion s) s t) (hf : imageFits s) (hr : t.row < height s) :
    Keeps kc (imageRegion s) assembleRow t := by
  have hw := h.values.2.2.2.1
  exact .readState (.forUpTo' fun x u hx h1 => (keeps_pcxPixel x u).bind fun p v _ h2 =>
    ((h.trans h1).trans h2).pixWrite p hf (by omega) hr)

/-- A byte of the source (R75). -/
theorem srcByte_ok {off : Nat} {s : State} (h : off < srcLen s) (hs : sourceFits s) :
    srcByte off s = .ok (sourceByte s off) (s.logRead (srcBase s + off)) := by
  rw [srcByte, run_readState_bind, memRead_ok (by unfold sourceFits at hs; omega)]
  rfl

/-- R306: `FindVGA` reads at most two bytes and answers the trailer's offset. -/
theorem findVga_ok {s : State} (hs : sourceFits s) : ∃ t, findVga s = .ok (vgaTrailer s) t ∧
    (t = s ∨ (∃ a, t = s.logRead a) ∨ ∃ a b, t = (s.logRead a).logRead b) := by
  unfold vgaTrailer
  rw [findVga, run_readState_bind]
  by_cases h1 : srcOff s + 769 ≤ srcLen s
  · have e1 := srcByte_ok (off := srcOff s) (by omega) hs
    simp only [h1, if_true, true_and]
    by_cases hb : sourceByte s (srcOff s) = 0x0C
    · refine ⟨s.logRead (srcBase s + srcOff s), ?_, .inr (.inl ⟨_, rfl⟩)⟩
      rw [run_bind_ok e1]
      simp [hb]
    · have hl : 769 ≤ srcLen s := by omega
      have e2 := srcByte_ok (off := srcLen s - 769) (s := s.logRead (srcBase s + srcOff s)) (by
        show srcLen s - 769 < srcLen s
        omega) hs
      refine ⟨(s.logRead (srcBase s + srcOff s)).logRead (srcBase s + (srcLen s - 769)), ?_,
        .inr (.inr ⟨_, _, rfl⟩)⟩
      have hb' : (sourceByte s (srcOff s) == 12) = false := by simpa using hb
      rw [run_bind_ok e1]
      simp only [pure_bind, hb', Bool.false_eq_true, if_false, ge_iff_le, hl, if_true, hb, true_and]
      rw [run_bind_ok e2]
      rfl
  · simp only [h1, if_false, false_and]
    by_cases hl : 769 ≤ srcLen s
    · have e2 := srcByte_ok (off := srcLen s - 769) (by omega) hs
      refine ⟨s.logRead (srcBase s + (srcLen s - 769)), ?_, .inr (.inl ⟨_, rfl⟩)⟩
      simp only [pure_bind, Bool.false_eq_true, if_false, ge_iff_le, hl, if_true, true_and]
      rw [run_bind_ok e2]
      rfl
    · exact ⟨s, by simp [hl], .inl rfl⟩

/-- R306: a trailer that is found lies inside the source with its 768 bytes. -/
theorem vgaTrailer_le {s : State} {o : Nat} (h : vgaTrailer s = some o) : o + 769 ≤ srcLen s := by
  unfold vgaTrailer at h
  split_ifs at h with h1 h2
  · injection h with h; omega
  · injection h with h; omega

theorem keeps_findVga {s : State} (hs : sourceFits s) : Keeps kc R findVga s := by
  obtain ⟨t, ht, h⟩ := findVga_ok hs
  refine .ofOk ht ?_
  rcases h with rfl | ⟨a, rfl⟩ | ⟨a, b, rfl⟩
  · exact .refl ..
  · exact .logRead kc R s a
  · exact (Kept.logRead kc R s a).trans (.logRead kc R _ b)

theorem keeps_loadVga {s t : State} (h : Kept false R s t) (hs : sourceFits s) {o : Nat} (ho : o + 769 ≤ srcLen s) :
    Keeps false R (loadVga o) t := by
  have byte : ∀ {u : State} {off : Nat}, Kept false R s u → off < o + 769 →
      Keeps false R (srcByte off) u := by
    intro u off hk hlt
    exact .srcByte (by rw [hk.values.2.1]; omega) (hk.sourceFits hs)
  refine (Keeps.forUpTo' fun i u hi h1 => ?_).bind fun _ u _ _ => .update (.setPalCount R u (by decide))
  refine (byte (h.trans h1) (by omega)).bind fun b v _ h2 => ?_
  refine (byte ((h.trans h1).trans h2) (by omega)).bind fun g w _ h3 => ?_
  refine (byte (((h.trans h1).trans h2).trans h3) (by omega)).bind fun r z _ _ => ?_
  exact .palWrite _ (by simp only [Config.palMax]; omega) z

theorem keeps_resolveIndex (found : Bool) (i : Byte) (s : State) : Keeps kc R (resolveIndex found i) s :=
  .readState (.ite (fun _ => .palLookup _ s) fun _ => .pure _ s)

theorem keeps_resolveVga {s : State} (hs : sourceFits s) (hf : imageFits s) :
    Keeps false (imageRegion s) resolveVga s := by
  refine (keeps_findVga hs).bind fun o t ht h1 => ?_
  have rest : ∀ u, Kept false (imageRegion s) s u → Keeps false (imageRegion s) (do
      let s ← readState
      forUpTo (height s) (fun y =>
        forUpTo (width s) (fun x => do
          let w ← pixRead x y
          let p ← resolveIndex o.isSome (byteOf w 0)
          pixWrite x y p))) u := by
    intro u h12
    have hw := h12.values.2.2.2.1
    have hh := h12.values.2.2.2.2.1
    refine .readState (.forUpTo' fun y v hy h3 => .forUpTo' fun x w hx h4 => ?_)
    have hk := (h12.trans h3).trans h4
    have hkw := hk.values.2.2.2.1
    have hkh := hk.values.2.2.2.2.1
    refine (Keeps.pixRead (by omega) (by omega) (hk.imageFits hf)).bind fun p z _ h5 => ?_
    refine (keeps_resolveIndex _ _ z).bind fun q z' _ h6 => ?_
    exact ((hk.trans h5).trans h6).pixWrite q hf (by omega) (by omega)
  cases o with
  | none => exact rest t h1
  | some off =>
    obtain ⟨u, hu, -⟩ := findVga_ok hs
    rw [hu] at ht
    exact (keeps_loadVga h1 hs (vgaTrailer_le (by injection ht))).bind fun _ u _ h2 => rest u (h1.trans h2)

theorem fixesCounters_pcxPixel (x : Nat) : fixesCounters (pcxPixel x) := by
  have look : ∀ i, fixesCounters (lookupPcx i) := by
    intro i
    refine fixesCounters_readState.bind fun s => ?_
    split
    · exact fixesCounters_pure _
    · exact fixesCounters_palLookup _
  refine fixesCounters_readState.bind fun s => ?_
  split
  · split
    · exact fixesCounters_pure _
    · exact look _
  · exact look _
  · exact look _
  · exact fixesCounters_pure _
  · exact fixesCounters_pure _
  · exact fixesCounters_pure _

theorem fixesCounters_resolveVga : fixesCounters resolveVga := by
  have find : fixesCounters findVga := by
    refine fixesCounters_readState.bind fun s => ?_
    have last : fixesCounters (if srcLen s ≥ 769 then (do
        let b ← srcByte (srcLen s - 769)
        pure (if b = 0x0C then some (srcLen s - 769) else none)) else (pure none : Eng (Option Nat))) := by
      split
      · exact (fixesCounters_srcByte _).bind fun _ => fixesCounters_pure _
      · exact fixesCounters_pure _
    have next : ∀ first : Bool, fixesCounters (if first = true then (pure (some (srcOff s)) : Eng (Option Nat)) else
        if srcLen s ≥ 769 then (do
          let b ← srcByte (srcLen s - 769)
          pure (if b = 0x0C then some (srcLen s - 769) else none)) else (pure none : Eng (Option Nat))) := by
      intro first
      split
      · exact fixesCounters_pure _
      · exact last
    exact fixesCounters_ite ((fixesCounters_srcByte _).bind fun _ => (fixesCounters_pure _).bind next)
      ((fixesCounters_pure _).bind next)
  have load : ∀ o, fixesCounters (loadVga o) := by
    intro o
    refine (fixesCounters_forUpTo fun i => ?_).bind fun _ => fixesCounters_update fun _ => ⟨rfl, rfl, rfl⟩
    exact (fixesCounters_srcByte _).bind fun _ => (fixesCounters_srcByte _).bind fun _ =>
      (fixesCounters_srcByte _).bind fun _ => fixesCounters_palWrite _ _
  have rest : ∀ found, fixesCounters (do
      let s ← readState
      forUpTo (height s) (fun y =>
        forUpTo (width s) (fun x => do
          let w ← pixRead x y
          let p ← resolveIndex found (byteOf w 0)
          pixWrite x y p))) := by
    intro found
    refine fixesCounters_readState.bind fun s => fixesCounters_forUpTo fun y => fixesCounters_forUpTo fun x => ?_
    refine (fixesCounters_pixRead _ _).bind fun w => fixesCounters.bind ?_ fun p => fixesCounters_pixWrite _ _ _
    refine fixesCounters_readState.bind fun s => ?_
    split
    · exact fixesCounters_palLookup _
    · exact fixesCounters_pure _
  refine find.bind fun o => ?_
  cases o with
  | none => exact rest _
  | some off => exact (load off).bind fun _ => rest _

theorem fixesCounters_assembleRow : fixesCounters assembleRow :=
  fixesCounters_readState.bind fun _ => fixesCounters_forUpTo fun _ =>
    (fixesCounters_pcxPixel _).bind fun _ => fixesCounters_pixWrite _ _ _

/-- A scanline that is finished starts the next one with an empty LINE. -/
theorem finishScanline_row {s t : State} (h : finishScanline s = .ok () t) : t.row = s.row + 1 ∧ t.line = [] := by
  rw [finishScanline, zeroFillLine, run_update_bind] at h
  cases h1 : assembleRow { s with line := s.line ++ List.replicate (pcxStride s - s.line.length) 0 } with
  | error e u => rw [run_bind_error h1] at h; cases h
  | ok a u =>
    rw [run_bind_ok h1, run_update_bind, run_readState_bind] at h
    have e1 := (fixesCounters_assembleRow _ u a h1).2.1
    rw [run_ite] at h
    split at h
    · obtain ⟨-, h2, h3⟩ := fixesCounters_resolveVga _ t () h
      exact ⟨by rw [h2]; simp [e1], h3⟩
    · cases h
      exact ⟨by simp [e1], rfl⟩

theorem keeps_finishScanline {s t : State} (h : Kept false (imageRegion s) s t) (hs : sourceFits s)
    (hf : imageFits s) (hr : t.row < height s) : Keeps false (imageRegion s) finishScanline t := by
  refine (keeps_zeroFillLine t).bind fun _ u hu h1 => ?_
  have e : u.row = t.row := by cases hu; rfl
  refine (keeps_assembleRow (h.trans h1) hf (by omega)).bind fun _ v _ h2 => ?_
  refine (Keeps.update (.internal false _ v v.x v.y [] v.outN v.pixK (v.row + 1) v.exhausted)).bind
    fun _ w _ h3 => .readState (.ite (fun _ => ?_) fun _ => .pure _ w)
  have hk := (((h.trans h1).trans h2).trans h3)
  rw [← hk.imageRegion]
  exact keeps_resolveVga (hk.sourceFits hs) (hk.imageFits hf)

end Sys2Proof.Machine
end

