-- ==== Sys2Proof/Laws/Paint.lean ====
section
/-!
SUPPORT. Writing pixels: what one pixel write adds to a painting, and what the loops that place indices, fill the image or
copy a row leave.
-/

namespace Sys2Proof.Machine

/-! ### One pixel -/

theorem pixelAt_eq_word (s : State) (x y : Nat) : pixelAt s x y = s.mem.word (pixAddr s x y) := rfl

/-- `t` is `s` but for memory and the history. -/
def onlyMemory (s t : State) : Prop := t = { s with mem := t.mem, history := t.history }

theorem onlyMemory.refl (s : State) : onlyMemory s s := rfl

theorem onlyMemory.trans {s t u : State} (h : onlyMemory s t) (k : onlyMemory t u) : onlyMemory s u := by
  unfold onlyMemory at *
  rw [k, h]

theorem onlyMemory_pixPut (s : State) (x y : Nat) (p : Pixel) : onlyMemory s (s.pixPut x y p) := rfl

theorem onlyMemory.csr {s t : State} (h : onlyMemory s t) : t.csr = s.csr := by rw [h]

theorem onlyMemory.pixAddr {s t : State} (h : onlyMemory s t) (x y : Nat) :
    Machine.pixAddr t x y = Machine.pixAddr s x y := by rw [h]; rfl

/-- The painting of one more pixel (R78): it shows the pixel, whatever it showed before. -/
theorem painted_pixPut {s t : State} {hit hit' : Nat → Nat → Prop} {value value' : Nat → Nat → Pixel}
    {x y : Nat} {p : Pixel} (hm : onlyMemory s t) (h : painted s t hit value) (hx : x < width s)
    (hy : y < height s) (hxy : hit' x y) (hsub : ∀ u v, hit u v → hit' u v)
    (hnew : ∀ u v, hit' u v → (u = x ∧ v = y) ∨ (hit u v ∧ value' u v = value u v))
    (hval : value' x y = p) : painted s (t.pixPut x y p) hit' value' := by
  have ha := hm.pixAddr
  constructor
  · intro u v hu hv hh
    have e : pixelAt (t.pixPut x y p) u v = (t.mem.writeBytes (pixAddr t x y) (wordBytes p)).word (pixAddr t u v) := rfl
    by_cases huv : u = x ∧ v = y
    · obtain ⟨rfl, rfl⟩ := huv
      rw [e, Memory.word_write_self, hval]
    · rcases hnew u v hh with h1 | ⟨h1, h2⟩
      · exact absurd h1 huv
      · rw [e, Memory.word_write_disjoint, h2, ← h.1 u v hu hv h1]
        · rfl
        · rw [ha, ha]
          exact pixAddr_disjoint hu hx (by omega)
  · intro a hout
    have h1 := h.2 a (fun u v hu hv hh => hout u v hu hv (hsub u v hh))
    have h2 := hout x y hx hy hxy
    rw [← h1]
    refine Memory.read_writeBytes_outside _ _ _ ?_
    rw [wordBytes_length, ha]
    unfold inPixel at h2
    omega

theorem painted_none (s : State) {hit : Nat → Nat → Prop} (value : Nat → Nat → Pixel)
    (h : ∀ x y, x < width s → y < height s → ¬ hit x y) : painted s s hit value :=
  ⟨fun x y hx hy hh => absurd hh (h x y hx hy), fun _ _ => rfl⟩

theorem painted_congr {s t : State} {hit hit' : Nat → Nat → Prop} {value value' : Nat → Nat → Pixel}
    (h : painted s t hit value) (hh : ∀ x y, x < width s → y < height s → (hit x y ↔ hit' x y))
    (hv : ∀ x y, x < width s → y < height s → hit' x y → value' x y = value x y) : painted s t hit' value' :=
  ⟨fun x y hx hy hxy => (h.1 x y hx hy ((hh x y hx hy).2 hxy)).trans (hv x y hx hy hxy).symm,
   fun a ha => h.2 a (fun x y hx hy hxy => ha x y hx hy ((hh x y hx hy).1 hxy))⟩

/-- A pixel write inside the image succeeds. -/
theorem pixWrite_inImage {s : State} {x y : Nat} (p : Pixel) (hf : imageFits s) (hx : x < width s)
    (hy : y < height s) : pixWrite x y p s = .ok () (s.pixPut x y p) := by
  refine pixWrite_ok p ?_
  have := pixAddr_lt hx hy
  unfold imageFits at hf
  omega

/-! ### Placing indices -/

theorem lookupBmp_eq {s : State} {i : Nat} (h : (cellGet? s.pal (bmpEntry s i)).isSome = true) :
    lookupBmp i s = .ok (bmpColor s i) s := by
  obtain ⟨p, hp⟩ := Option.isSome_iff_exists.mp h
  rw [lookupBmp_ok (p := p) hp, bmpColor, hp]
  rfl

theorem onlyMemory.fields {s t : State} (h : onlyMemory s t) :
    t.csr = s.csr ∧ t.pal = s.pal ∧ t.palCount = s.palCount ∧ t.x = s.x ∧ t.y = s.y ∧ t.srcPos = s.srcPos ∧
      t.pixK = s.pixK ∧ t.row = s.row ∧ t.line = s.line ∧ t.outN = s.outN := by
  unfold onlyMemory at h
  rw [h]
  simp

theorem onlyMemory.imageFits {s t : State} (h : onlyMemory s t) (k : imageFits s) : Machine.imageFits t := by
  rw [h]; exact k

/-- R182: one index at a cursor position. Outside the image nothing happens. -/
theorem putIdx_outside {s : State} {x y : Int} {i : Nat} (h : inImage s x y = false) :
    putIdx x y i s = .ok () s := by
  rw [putIdx, run_readState_bind, run_ite, if_neg (by simp [h])]
  rfl

theorem putIdx_inside {s : State} {x y : Nat} {i : Nat} (hf : imageFits s) (hx : x < width s) (hy : y < height s)
    (h : (cellGet? s.pal (bmpEntry s i)).isSome = true) :
    putIdx x y i s = .ok () (s.pixPut x y (bmpColor s i)) := by
  rw [putIdx, run_readState_bind, run_ite, if_pos (by simp [inImage, hx, hy]),
    run_bind_ok (lookupBmp_eq h)]
  exact pixWrite_inImage _ hf hx hy

/-- R183, R184, R188, R189: `n` indices placed from the cursor on. -/
theorem placeIndices_ok {s : State} {n : Nat} {index : Nat → Nat} (hf : imageFits s)
    (hw : indicesWritten s n index) :
    ∃ t, placeIndices n index s = .ok () t ∧
      t = { s with x := s.x + BitVec.ofNat 64 n, mem := t.mem, history := t.history } ∧
      painted s t (underCursor s n) (fun x _ => bmpColor s (index (cursorStep s x))) := by
  have loop := forUpTo_ok
    (fun i t => onlyMemory s t ∧
      painted s t (underCursor s i) (fun x _ => bmpColor s (index (cursorStep s x))))
    (n := n) (body := fun k => putIdx (s.x.toInt + k) s.y.toInt (index k)) (s := s)
    ⟨.refl s, painted_none s _ (by intro x y _ _ h; unfold underCursor at h; omega)⟩
    (by
      intro i hi t ⟨hm, hp⟩
      have hf' := hm.imageFits hf
      obtain ⟨hcsr, hpal, hcount, -⟩ := hm.fields
      have hwid : width t = width s := by simp [width, hcsr]
      have hhei : height t = height s := by simp [height, hcsr]
      by_cases hin : inImage t (s.x.toInt + i) s.y.toInt = true
      · simp only [inImage, hwid, hhei, Bool.and_eq_true, decide_eq_true_eq] at hin
        obtain ⟨u, hu⟩ := Int.eq_ofNat_of_zero_le hin.1.1.1
        obtain ⟨v, hv⟩ := Int.eq_ofNat_of_zero_le hin.1.2
        rw [hu, hv] at hin
        have hu' : u < width s := by omega
        have hv' : v < height s := by omega
        have hstep : cursorStep s u = i := by unfold cursorStep; omega
        have hwr := hw u v hu' hv' ⟨by omega, by omega, by omega⟩
        rw [hstep] at hwr
        have hwr' : (cellGet? t.pal (bmpEntry t (index i))).isSome = true := by
          rw [hm]; exact hwr
        refine ⟨_, by rw [hu, hv]; exact putIdx_inside hf' (by omega) (by omega) hwr', ?_, ?_⟩
        · exact hm.trans (onlyMemory_pixPut ..)
        · have hcol : bmpColor t (index i) = bmpColor s (index i) := by
            rw [hm]; rfl
          rw [hcol]
          refine painted_pixPut hm hp hu' hv' ?_ ?_ ?_ ?_
          · unfold underCursor; omega
          · intro a b h; unfold underCursor at *; omega
          · intro a b h
            by_cases hab : a = u ∧ b = v
            · exact .inl hab
            · refine .inr ⟨?_, rfl⟩
              unfold underCursor at *
              omega
          · simp [hstep]
      · refine ⟨t, putIdx_outside (by simpa using hin), hm, ?_⟩
        refine painted_congr hp ?_ (by simp)
        intro x y hx hy
        simp only [inImage, hwid, hhei, Bool.and_eq_true, decide_eq_true_eq] at hin
        unfold underCursor
        omega)
  obtain ⟨t, ht, hm, hp⟩ := loop
  refine ⟨t.moveX n, ?_, ?_, ?_⟩
  · rw [placeIndices, run_readState_bind, run_bind_ok ht]; rfl
  · rw [hm]; rfl
  · exact ⟨hp.1, hp.2⟩

/-- R192. -/
theorem prefill_ok {s : State} (hf : imageFits s) :
    ∃ t, prefill s = .ok () t ∧ onlyMemory s t ∧ painted s t (fun _ _ => True) (fun _ _ => s.csr.fill) := by
  have loop := forUpTo_ok
    (fun i t => onlyMemory s t ∧ painted s t (fun _ y => y < i) (fun _ _ => s.csr.fill))
    (n := height s) (body := fun y => forUpTo (width s) (fun x => pixWrite x y s.csr.fill)) (s := s)
    ⟨.refl s, painted_none s _ (by intro x y _ _ h; exact absurd h (Nat.not_lt_zero _))⟩
    (by
      intro y hy t ⟨hm, hp⟩
      have row := forUpTo_ok
        (fun i t => onlyMemory s t ∧
          painted s t (fun u v => v < y ∨ v = y ∧ u < i) (fun _ _ => s.csr.fill))
        (n := width s) (body := fun x => pixWrite x y s.csr.fill) (s := t)
        ⟨hm, painted_congr hp (by simp) (by simp)⟩
        (by
          intro x hx u ⟨hm, hp⟩
          have hcsr := hm.csr
          refine ⟨_, pixWrite_inImage _ (hm.imageFits hf) (by simpa [width, hcsr] using hx)
            (by simpa [height, hcsr] using hy), hm.trans (onlyMemory_pixPut ..), ?_⟩
          refine painted_pixPut hm hp hx hy (by simp) (by intro a b h; omega) (by intro a b h; simp; omega) rfl)
      obtain ⟨u, hu, hm, hp⟩ := row
      refine ⟨u, hu, hm, painted_congr hp ?_ (by simp)⟩
      intro a b ha hb; omega)
  obtain ⟨t, ht, hm, hp⟩ := loop
  refine ⟨t, by rw [prefill, run_readState_bind]; exact ht, hm, painted_congr hp ?_ (by simp)⟩
  intro a b ha hb; simp [hb]

end Sys2Proof.Machine
end

