-- ==== Sys2Proof/Laws/Complete.lean ====
section
/-!
SUPPORT. What the bodies do when nothing stops them: palettes written, images decoded, scanlines assembled, output
emitted.
-/

namespace Sys2Proof.Machine

theorem srcPos_add (s : State) (n : Nat) :
    BitVec.ofNat 32 (s.srcPos.toNat + n) = s.srcPos + BitVec.ofNat 32 n := by
  apply BitVec.eq_of_toNat_eq; simp

/-- A read of the source as `afterFetch` says it. -/
theorem takeSrc_afterFetch {s : State} {n : Nat} (hf : sourceFits s) (hn : sourceHolds s n) :
    takeSrc n s = .ok (srcBytes s n) (afterFetch s n) := by
  unfold sourceFits at hf
  unfold sourceHolds at hn
  rw [takeSrc_ok (by omega)]
  simp only [State.consumed, afterFetch, srcPos_add, readEvents_eq, sourceReads, sourceByte, Nat.add_assoc]

/-! ### Conversions read the host's registers, the palette and LINE only -/

/-- `t` has the registers, the palette and LINE of `s`. -/
structure SameSources (s t : State) : Prop where
  csr : t.csr = s.csr
  pal : t.pal = s.pal
  palCount : t.palCount = s.palCount
  line : t.line = s.line

theorem SameSources.refl (s : State) : SameSources s s := ⟨rfl, rfl, rfl, rfl⟩

theorem SameSources.trans {s t u : State} (h : SameSources s t) (k : SameSources t u) : SameSources s u :=
  ⟨k.csr.trans h.csr, k.pal.trans h.pal, k.palCount.trans h.palCount, k.line.trans h.line⟩

theorem onlyMemory.sameSources {s t : State} (h : onlyMemory s t) : SameSources s t := by
  obtain ⟨h1, h2, h3, -, -, -, -, -, h9, -⟩ := h.fields
  exact ⟨h1, h2, h3, h9⟩

/-- An operation whose result depends on the registers, the palette and LINE only, and changes nothing. -/
def looksOnly (m : Eng Pixel) : Prop := ∀ s t p, SameSources s t → gives m s p → gives m t p

theorem looksOnly_pure (p : Pixel) : looksOnly (pure p) := by
  intro s t q _ h
  cases h
  rfl

theorem looksOnly_palLookup (i : Nat) : looksOnly (palLookup i) := by
  intro s t p h g
  unfold gives palLookup at *
  rw [h.pal]
  cases hc : cellGet? s.pal i with
  | none => rw [hc] at g; cases g
  | some q => rw [hc] at g; cases g; rfl

/-- An operation that reads the state first, and of it the registers, the palette and LINE only. -/
theorem looksOnly_readState {f : State → Eng Pixel} (hf : ∀ s, looksOnly (f s))
    (hc : ∀ s t : State,
      f t = f { s with csr := t.csr, pal := t.pal, palCount := t.palCount, line := t.line }) :
    looksOnly (readState >>= f) := by
  intro s t p h g
  unfold gives at *
  rw [run_readState_bind] at *
  rw [hc s t, h.csr, h.pal, h.palCount, h.line]
  exact hf s s t p h g

theorem looksOnly_ite {c : Prop} [Decidable c] {m n : Eng Pixel} (hm : looksOnly m) (hn : looksOnly n) :
    looksOnly (if c then m else n) := by
  split
  · exact hm
  · exact hn

theorem looksOnly_lookupBmp (i : Nat) : looksOnly (lookupBmp i) :=
  looksOnly_readState (fun _ => looksOnly_palLookup _) (fun _ _ => rfl)

theorem looksOnly_lookupPcx (i : Nat) : looksOnly (lookupPcx i) :=
  looksOnly_readState (fun _ => looksOnly_ite (looksOnly_pure _) (looksOnly_palLookup _)) (fun _ _ => rfl)

theorem looksOnly_lookupTga (i : Nat) : looksOnly (lookupTga i) :=
  looksOnly_readState (fun _ => looksOnly_ite (looksOnly_palLookup _) (looksOnly_pure _)) (fun _ _ => rfl)

theorem looksOnly_bmpPixel (row : List Byte) (x : Nat) : looksOnly (bmpPixel row x) :=
  looksOnly_readState (fun _ => looksOnly_ite (looksOnly_lookupBmp _) <| looksOnly_ite (looksOnly_pure _) <|
    looksOnly_ite (looksOnly_pure _) (looksOnly_pure _)) (fun _ _ => rfl)

theorem looksOnly_tgaSample (bs : List Byte) : looksOnly (tgaSample bs) :=
  looksOnly_readState (fun _ => looksOnly_ite (looksOnly_pure _) <| looksOnly_ite (looksOnly_pure _) <|
    looksOnly_lookupTga _) (fun _ _ => rfl)

/-- The planar index reads the registers and LINE only. -/
theorem planarIndex_congr (s t : State) (x : Nat) :
    ∀ np, planarIndex t x np = planarIndex { s with csr := t.csr, line := t.line } x np
  | 0 => rfl
  | np + 1 => by
    show planarIndex t x np + _ = planarIndex _ x np + _
    rw [planarIndex_congr s t x np]
    rfl

theorem looksOnly_pcxPixel (x : Nat) : looksOnly (pcxPixel x) := by
  refine looksOnly_readState (fun s => ?_) (fun s t => ?_)
  · split
    · exact looksOnly_ite (looksOnly_pure _) (looksOnly_lookupPcx _)
    · exact looksOnly_lookupPcx _
    · exact looksOnly_lookupPcx _
    · exact looksOnly_pure _
    · exact looksOnly_pure _
    · exact looksOnly_pure _
  · have e : planarIndex t x (pcxPlanes t) = planarIndex
        { s with csr := t.csr, pal := t.pal, palCount := t.palCount, line := t.line } x (pcxPlanes t) :=
      planarIndex_congr { s with pal := t.pal, palCount := t.palCount } t x _
    rw [e]
    rfl

/-! ### Palettes -/

/-- Entries `0 .. n-1` written in order. -/
theorem palWrites_ok (n : Nat) (f : Nat → Pixel) (s : State) :
    ∃ t, forUpTo n (fun i => palWrite i (f i)) s = .ok () t ∧ t = { s with pal := t.pal } ∧
      ∀ i, cellGet? t.pal i = if i < n then some (f i) else cellGet? s.pal i := by
  obtain ⟨t, h1, h2, h3⟩ := forUpTo_ok
    (fun k t => t = { s with pal := t.pal } ∧ ∀ i, cellGet? t.pal i = if i < k then some (f i) else cellGet? s.pal i)
    (n := n) (body := fun i => palWrite i (f i)) (s := s) ⟨rfl, by simp⟩ (by
      intro i _ t ⟨h2, h3⟩
      refine ⟨t.palPut i (f i), rfl, by rw [h2]; rfl, fun j => ?_⟩
      rw [State.palPut_pal, cellGet?_put, h3]
      by_cases e : i = j
      · subst e; simp
      · rw [if_neg e]
        by_cases hj : j < i
        · rw [if_pos hj, if_pos (by omega)]
        · rw [if_neg hj, if_neg (by omega)])
  exact ⟨t, h1, h2, h3⟩

/-! ### One row of pixels, and a whole image -/

/-- A row copied pixel by pixel: `value x` is what the conversion gives for column `x`. -/
theorem rowCopy_ok {s t : State} {pixel : Nat → Eng Pixel} {y : Nat} {hit : Nat → Nat → Prop}
    {value : Nat → Nat → Pixel} (hm : onlyMemory s t) (hp : painted s t hit value) (hf : imageFits s)
    (hy : y < height s) (hlook : ∀ x, looksOnly (pixel x))
    (hval : ∀ x, x < width s → gives (pixel x) s (value x y)) :
    ∃ u, forUpTo (width s) (fun x => do
        let p ← pixel x
        pixWrite x y p) t = .ok () u ∧ onlyMemory s u ∧
      painted s u (fun a b => hit a b ∨ b = y) value := by
  obtain ⟨u, hu, hmu, hpu⟩ := forUpTo_ok
    (fun i u => onlyMemory s u ∧ painted s u (fun a b => hit a b ∨ b = y ∧ a < i) value)
    (n := width s) (body := fun x => do
      let p ← pixel x
      pixWrite x y p) (s := t)
    ⟨hm, painted_congr hp (by simp) (by simp)⟩ (by
      intro x hx u ⟨hmu, hpu⟩
      have hg := hlook x s u _ hmu.sameSources (hval x hx)
      have hw : width u = width s := by simp only [width, hmu.csr]
      have hh : height u = height s := by simp only [height, hmu.csr]
      refine ⟨_, by rw [run_bind_ok hg]; exact pixWrite_inImage _ (hmu.imageFits hf) (by omega) (by omega),
        hmu.trans (onlyMemory_pixPut ..), ?_⟩
      refine painted_pixPut hmu hpu hx hy (.inr ⟨rfl, by omega⟩) ?_ ?_ rfl
      · intro a b h
        rcases h with h | h
        · exact .inl h
        · exact .inr ⟨h.1, by omega⟩
      · intro a b h
        rcases h with h | h
        · exact .inr ⟨.inl h, rfl⟩
        · by_cases hax : a = x
          · exact .inl ⟨hax, h.1⟩
          · exact .inr ⟨.inr ⟨h.1, by omega⟩, rfl⟩)
  refine ⟨u, hu, hmu, painted_congr hpu ?_ (by simp)⟩
  intro a b ha _
  simp [ha]

/-! ### Output -/

/-- Memory after `bs` were emitted from a state that had emitted `n` bytes. -/
theorem outBytes_run {bs : List Byte} {s : State} (hb : outBase s + outCap s ≤ 2 ^ Config.addrBits) :
    (s.outN + bs.length ≤ outCap s → ∃ t, outBytes bs s = .ok () t ∧
      t = { s with mem := s.mem.writeBytes (outBase s + s.outN) bs, history := t.history, outN := s.outN + bs.length }) ∧
    (outCap s < s.outN + bs.length → s.outN ≤ outCap s → ∃ t, outBytes bs s = .error (.raised .generic) t ∧
      t = { s with
        mem := s.mem.writeBytes (outBase s + s.outN) (bs.take (outCap s - s.outN))
        history := t.history
        outN := outCap s }) := by
  constructor
  · intro h
    exact ⟨_, outBytes_ok h hb, rfl⟩
  · intro h hn
    induction bs generalizing s with
    | nil => simp at h; omega
    | cons b bs ih =>
      simp only [List.length_cons] at h
      by_cases hfull : outCap s ≤ s.outN
      · refine ⟨s, by rw [outBytes, run_bind_error (outByte_full hfull)], ?_⟩
        have e : s.outN = outCap s := by omega
        rw [show outCap s - s.outN = 0 by omega, List.take_zero, Memory.writeBytes, ← e]
      · have hlt : s.outN < outCap s := by omega
        obtain ⟨t, ht, e⟩ := ih (s := s.emitted b) hb (by simp only [State.emitted, outCap] at *; omega)
          (by simp only [State.emitted, outCap] at *; omega)
        refine ⟨t, by rw [outBytes, run_bind_ok (outByte_ok hlt hb), ht], ?_⟩
        rw [e]
        have e2 : outCap s - s.outN = (outCap s - (s.outN + 1)) + 1 := by omega
        simp only [State.emitted, outCap, outBase] at *
        rw [e2, List.take_succ_cons, Memory.writeBytes]
        simp only [Nat.add_assoc]

end Sys2Proof.Machine
end

