-- ==== Sys2Proof/Laws/Outcome.lean ====
section
/-!
SUPPORT. What an operation that keeps `Kept` can end in, as a step: one lemma per way a step is built, and one per
instruction and per other move of the engine.
-/

namespace Sys2Proof.Machine

variable {kc : Bool} {R : Nat × Nat}

/-- How a step from `s` that keeps `Kept` ends: in `after u` for a state `u` its operation gives, in the end of the command
with an error, or in the fault of an unwritten palette entry, which carries the bus events made up to there. -/
inductive StepEnd (kc : Bool) (R : Nat × Nat) (op : Op) (P : State → Prop) (after : State → State) (s : State) :
    Host.Outcome State Fault Refusal → Prop where
  | done (u : State) (h : Kept kc R s u) (p : P u) : StepEnd kc R op P after s (.next (after u))
  | failed (u : State) (c : Code) (h : Kept kc R s u) (hc : c ≠ .success) :
      StepEnd kc R op P after s (.next (endCommand op true c u))
  | unwritten (i : Nat) (made : List BusEvent) (h : cellGet? s.pal i = none) (hm : madeFrom R s made) :
      StepEnd kc R op P after s (.fault (.unwrittenPaletteEntry i made))

theorem conclude_stepEnd {op : Op} {P : State → Prop} {after : State → State} {m : Eng Unit} {s : State}
    (h : Keeps kc R m s) (hP : ∀ u, m s = .ok () u → Kept kc R s u → P u) :
    StepEnd kc R op P after s (conclude op after (m s)) := by
  have ha := h.after
  have hs := h.stop
  cases hm : m s with
  | ok a u =>
    rw [hm] at ha
    exact .done u ha (hP u hm ha)
  | error e u =>
    rw [hm] at ha
    have g := hs e u hm
    cases e with
    | raised c => exact .failed u c ha g
    | fault f =>
      cases f with
      | unwrittenPaletteEntry i made => exact .unwritten i made g.1 g.2
      | noSuchBusAddress a made => exact g.elim
    | refused r => exact g.elim

/-- How the start of a command ends: in a refusal of its regions, else at a gate or in the run of its body. -/
theorem runCommand_cases {op : Op} {arg : Byte} {body : Eng Unit} {after : State → State} {s : State} :
    (∃ r, regionsRefusal op s = some r ∧ runCommand op arg body after s = .refused r) ∨
    (regionsRefusal op s = none ∧ ∃ c, check op arg s = some c ∧
      runCommand op arg body after s = .next (endCommand op false c { s with outN := 0 })) ∨
    (ready op arg s ∧ runCommand op arg body after s = conclude op after (body { s with outN := 0 })) := by
  cases hr : regionsRefusal op s with
  | some r => exact .inl ⟨r, rfl, runCommand_refused hr⟩
  | none =>
    cases h : check op arg s with
    | some c => exact .inr (.inl ⟨rfl, c, rfl, runCommand_gate h hr⟩)
    | none => exact .inr (.inr ⟨⟨h, hr⟩, runCommand_body h hr⟩)

theorem Kept.outN0 (kc : Bool) (R : Nat × Nat) (s : State) : Kept kc R s { s with outN := 0 } :=
  .internal kc R s s.x s.y s.line 0 s.pixK s.row s.exhausted

/-- A command that runs whole, or sets up a loop, from a state that is ready. -/
theorem runCommand_stepEnd {op : Op} {arg : Byte} {P : State → Prop} {body : Eng Unit} {after : State → State}
    {s : State} (hr : ready op arg s) (h : Keeps kc R body { s with outN := 0 })
    (hP : ∀ u, body { s with outN := 0 } = .ok () u → Kept kc R s u → P u) :
    StepEnd kc R op P after s (runCommand op arg body after s) := by
  rw [runCommand_body hr.1 hr.2]
  have k := conclude_stepEnd (op := op) (P := P) (after := after) h
    (fun u hu hk => hP u hu ((Kept.outN0 kc R s).trans hk))
  cases hc : conclude op after (body { s with outN := 0 }) with
  | next t =>
    rw [hc] at k
    cases k with
    | done u h p => exact .done u ((Kept.outN0 kc R s).trans h) p
    | failed u c h hne => exact .failed u c ((Kept.outN0 kc R s).trans h) hne
  | fault f =>
    rw [hc] at k
    cases k with
    | unwritten i made h hm => exact .unwritten i made h ((Kept.outN0 kc R s).madeFrom hm)
  | refused r =>
    rw [hc] at k
    cases k

/-! ### Commands -/

/-- The region that a command may write. -/
def writeRegion (op : Op) (s : State) : Nat × Nat :=
  if usesOut op then outRegion s else if usesPix op then imageRegion s else (0, 0)

/-- The body of a command. -/
def bodyOf : Instr → Eng Unit
  | .palLoad arg => palLoadBody arg
  | .pcxEgaLoad => pcxEgaLoadBody
  | .bmpDecodeRaw => bmpDecodeRawBody
  | .bmpDecodeRle8 | .bmpDecodeRle4 => bmpRleSetup
  | .bmpEncode => bmpEncodeBody
  | .tgaDecodeRaw => tgaDecodeRawBody
  | .tgaDecodeRle => update (fun t => { t with pixK := 0 })
  | .tgaEncode => tgaEncodeBody
  | .pcxDecode => update (fun t => { t with row := 0, line := [], exhausted := false })
  | _ => pure ()

/-- What follows the body of a command. -/
def afterOf : Instr → State → State
  | .bmpDecodeRle8 => fun t => { t with phase := .rle8 }
  | .bmpDecodeRle4 => fun t => { t with phase := .rle4 }
  | .tgaDecodeRle => fun t => { t with phase := .tga }
  | .pcxDecode => fun t => { t with phase := .pcx }
  | i => endCommand (opOf i) true .success

/-- A command is `runCommand` of its body. -/
theorem exec_command {i : Instr} (hi : i.stream = .command) (s : State) :
    exec i s = runCommand (opOf i) (argOf i) (bodyOf i) (afterOf i) s := by
  cases i <;> first | rfl | cases hi

theorem ready.palCount {arg : Byte} {s : State} (h : ready .palLoad arg s) : palEntries s ≤ 65536 := by
  have := firstFailing_none.mp h.1
    (decide (Op.palLoad = Op.palLoad) && decide (palEntries s > 65536), .generic) (by simp [commonGates])
  simpa using this

/-- The body of a command that is ready keeps what `Kept` says; only PCX_EGA_LOAD writes PAL_COUNT here. -/
theorem keeps_bodyOf {i : Instr} (hi : i.stream = .command) {s : State} (hr : ready (opOf i) (argOf i) s) :
    Keeps (decide (i ≠ .pcxEgaLoad)) (writeRegion (opOf i) s) (bodyOf i) { s with outN := 0 } := by
  cases i <;> try cases hi
  · exact keeps_palLoadBody (hr.sourceFits rfl) hr.palCount
  · exact keeps_pcxEgaLoadBody (hr.sourceFits rfl)
  · exact keeps_bmpDecodeRawBody (s := { s with outN := 0 }) (hr.sourceFits rfl) (hr.imageFits rfl)
  · exact keeps_bmpRleSetup (s := { s with outN := 0 }) (hr.imageFits rfl)
  · exact keeps_bmpRleSetup (s := { s with outN := 0 }) (hr.imageFits rfl)
  · exact keeps_bmpEncodeBody (s := { s with outN := 0 }) (hr.imageFits rfl) (hr.outFits rfl)
  · exact keeps_tgaDecodeRawBody (s := { s with outN := 0 }) (hr.sourceFits rfl) (hr.imageFits rfl)
  · exact .update (.internal _ _ _ s.x s.y s.line 0 0 s.row s.exhausted)
  · exact keeps_tgaEncodeBody (s := { s with outN := 0 }) (hr.imageFits rfl) (hr.outFits rfl)
  · exact .update (.internal _ _ _ s.x s.y [] 0 s.pixK 0 false)

/-- Every move of the engine that starts a command: it is refused for its regions, else it ends at a gate or runs its body. -/
theorem exec_command_cases {i : Instr} (hi : i.stream = .command) (s : State) :
    (∃ r, regionsRefusal (opOf i) s = some r ∧ exec i s = .refused r) ∨
    (regionsRefusal (opOf i) s = none ∧ ∃ c, check (opOf i) (argOf i) s = some c ∧
      exec i s = .next (endCommand (opOf i) false c { s with outN := 0 })) ∨
    (ready (opOf i) (argOf i) s ∧
      StepEnd (decide (i ≠ .pcxEgaLoad)) (writeRegion (opOf i) s) (opOf i) (fun u => bodyOf i { s with outN := 0 } = .ok () u) (afterOf i) s
        (exec i s)) := by
  rw [exec_command hi]
  rcases runCommand_cases (op := opOf i) (arg := argOf i) (body := bodyOf i) (after := afterOf i) (s := s) with
    h | h | ⟨h, -⟩
  · exact .inl h
  · exact .inr (.inl h)
  · exact .inr (.inr ⟨h, runCommand_stepEnd h (keeps_bodyOf hi h) fun u hu _ => hu⟩)

/-! ### Tokens -/

/-- The operation of a token; EOB has none but the end of the command. -/
def tokenOf : Instr → Eng Unit
  | .deltaRle8 | .deltaRle4 => rleDelta
  | .eolRle8 | .eolRle4 => rleEol
  | .abs8 n => abs8 n
  | .abs4 n => abs4 n
  | .run8 c v => run8 c v
  | .run4 c hi lo => run4 c hi lo
  | .pcxRep k => pcxRep k.toNat
  | .pcxLit b => pcxLit b
  | .tgaRun n => tgaRun (n.toNat + 1)
  | .tgaRaw n => tgaRaw (n.toNat + 1)
  | _ => pure ()

/-- What follows a token. -/
def tokenAfter : Instr → State → State
  | .eobRle8 => endCommand .bmpDecodeRle8 true .success
  | .eobRle4 => endCommand .bmpDecodeRle4 true .success
  | _ => id

theorem exec_token {i : Instr} (hi : i.stream ≠ .command) (s : State) :
    exec i s = conclude (opOf i) (tokenAfter i) (tokenOf i s) := by
  cases i <;> first | rfl | exact absurd rfl hi

theorem keeps_tokenOf {i : Instr} (hi : i.stream ≠ .command) {s : State} (hs : sourceFits s) (hf : imageFits s) :
    Keeps true (imageRegion s) (tokenOf i) s := by
  cases i <;> try exact absurd rfl hi
  · exact keeps_rleEol s
  · exact .pure _ s
  · exact keeps_rleDelta hs
  · exact keeps_abs8 _ hs hf
  · exact keeps_placeIndices (.refl ..) hf _ _
  · exact keeps_rleEol s
  · exact .pure _ s
  · exact keeps_rleDelta hs
  · exact keeps_abs4 _ hs hf
  · exact keeps_placeIndices (.refl ..) hf _ _
  · exact keeps_pcxRep _ hs
  · exact keeps_pcxLit _ s
  · exact keeps_tgaRun _ hs hf
  · exact keeps_tgaRaw _ hs hf

end Sys2Proof.Machine
end

