-- ==== Sys2Proof/Laws/Running.lean ====
section
/-!
SUPPORT. What one engine step of a running command does, for the four token loops.
-/

namespace Sys2Proof.Machine

/-- How an engine step of the running command `op` ends: it goes on in its loop, it ends the command, or it needs an
unwritten palette entry, having made the bus events that the fault carries. -/
inductive LoopEnd (op : Op) (s : State) : Host.Outcome State Fault Refusal → Prop where
  | goes (kc : Bool) (u : State) (h : Kept kc (imageRegion s) s u) (hkc : op ≠ .pcxDecode → kc = true)
      (pixels : op = .tgaDecodeRle → u.pixK ≤ pixelTotal s) (rows : op = .pcxDecode → u.row < height s)
      (line : op = .pcxDecode → u.line.length ≤ pcxStride s) : LoopEnd op s (.next u)
  | ends (kc : Bool) (u : State) (c : Code) (h : Kept kc (imageRegion s) s u) :
      LoopEnd op s (.next (endCommand op true c u))
  | unwritten (i : Nat) (made : List BusEvent) (h : cellGet? s.pal i = none) (hm : madeFrom (imageRegion s) s made) :
      LoopEnd op s (.fault (.unwrittenPaletteEntry i made))

/-- A token executed after its fetch. -/
theorem loopEnd_token {i : Instr} {s t : State} (hi : i.stream ≠ .command) (hs : sourceFits s) (hf : imageFits s)
    (hk : Kept true (imageRegion s) s t)
    (pixels : ∀ u, opOf i = .tgaDecodeRle → tokenOf i t = .ok () u → u.pixK ≤ pixelTotal s)
    (rows : ∀ u, opOf i = .pcxDecode → tokenOf i t = .ok () u → u.row < height s ∧ u.line.length ≤ pcxStride s) :
    LoopEnd (opOf i) s (exec i t) := by
  have k := keeps_tokenOf hi (hk.sourceFits hs) (hk.imageFits hf)
  rw [hk.imageRegion] at k
  rw [exec_token hi]
  have e := conclude_stepEnd (op := opOf i) (P := fun u => tokenOf i t = .ok () u) (after := tokenAfter i) k
    (fun u hu _ => hu)
  cases hc : conclude (opOf i) (tokenAfter i) (tokenOf i t) with
  | next v =>
    rw [hc] at e
    cases e with
    | done u h p =>
      by_cases hz : (∃ c, tokenAfter i = endCommand (opOf i) true c)
      · obtain ⟨c, hz⟩ := hz
        rw [hz]
        exact .ends true u c (hk.trans h)
      · have hid : tokenAfter i = id := by
          cases i <;> first | rfl | exact absurd ⟨_, rfl⟩ hz
        rw [hid]
        exact .goes true u (hk.trans h) (fun _ => rfl) (fun ho => pixels u ho p) (fun ho => (rows u ho p).1)
          (fun ho => (rows u ho p).2)
    | failed u c h _ => exact .ends true u c (hk.trans h)
  | fault f =>
    rw [hc] at e
    cases e with
    | unwritten j made h hm => exact .unwritten j made (hk.written j h) (hk.madeFrom hm)
  | refused r =>
    rw [hc] at e
    cases e

/-- A fetch and the token it gives. -/
theorem loopEnd_fetched {α : Type} {op : Op} {fetch : Eng α} {token : α → Instr} {s : State} (hs : sourceFits s)
    (hf : imageFits s) (hfetch : Keeps true (imageRegion s) fetch s)
    (ht : ∀ a, (token a).stream ≠ .command ∧ opOf (token a) = op)
    (pixels : ∀ a t u, op = .tgaDecodeRle → fetch s = .ok a t → tokenOf (token a) t = .ok () u → u.pixK ≤ pixelTotal s)
    (rows : ∀ a t u, op = .pcxDecode → fetch s = .ok a t → tokenOf (token a) t = .ok () u →
      u.row < height s ∧ u.line.length ≤ pcxStride s) :
    LoopEnd op s (match fetched op fetch token s with | .run i t => exec i t | .answer o => o) := by
  unfold fetched
  have ha := hfetch.after
  cases h : fetch s with
  | ok a t =>
    rw [h] at ha
    obtain ⟨h1, h2⟩ := ht a
    have := loopEnd_token h1 hs hf ha (fun u ho hu => pixels a t u (h2 ▸ ho) h hu)
      (fun u ho hu => rows a t u (h2 ▸ ho) h hu)
    rw [h2] at this
    exact this
  | error e t =>
    rw [h] at ha
    have g := hfetch.stop e t h
    cases e with
    | raised c => exact .ends true t c ha
    | fault f =>
      cases f with
      | unwrittenPaletteEntry i made => exact .unwritten i made g.1 g.2
      | noSuchBusAddress a made => exact g.elim
    | refused r => exact g.elim

theorem decodeRle8_token (b0 b1 : Byte) :
    (decodeRle8 b0 b1).stream = .rle8 ∧ opOf (decodeRle8 b0 b1) = .bmpDecodeRle8 := by
  unfold decodeRle8
  split
  · split <;> exact ⟨rfl, rfl⟩
  · exact ⟨rfl, rfl⟩

theorem decodeRle4_token (b0 b1 : Byte) :
    (decodeRle4 b0 b1).stream = .rle4 ∧ opOf (decodeRle4 b0 b1) = .bmpDecodeRle4 := by
  unfold decodeRle4
  split
  · split <;> exact ⟨rfl, rfl⟩
  · exact ⟨rfl, rfl⟩

theorem decodePcx_token (b : Byte) : (decodePcx b).stream = .pcx ∧ opOf (decodePcx b) = .pcxDecode := by
  unfold decodePcx
  split <;> exact ⟨rfl, rfl⟩

theorem decodeTga_token (b : Byte) : (decodeTga b).stream = .tga ∧ opOf (decodeTga b) = .tgaDecodeRle := by
  unfold decodeTga
  split <;> exact ⟨rfl, rfl⟩

variable {kc : Bool} {R : Nat × Nat}

theorem keeps_fetchPair {s : State} (hs : sourceFits s) : Keeps kc R fetchPair s :=
  (Keeps.readSrc hs).bind fun _ t _ _ => .pure _ t

theorem keeps_fetchByte {s : State} (hs : sourceFits s) (h : sourceHolds s 1) : Keeps kc R fetchByte s :=
  (Keeps.takeSrc h hs).bind fun _ t _ _ => .pure _ t

theorem keeps_fetchHeader {s : State} (hs : sourceFits s) : Keeps kc R fetchHeader s :=
  .readState (.ite (fun _ => .raise (by simp)) fun h => keeps_fetchByte hs (by unfold sourceHolds; omega))

theorem fixesCounters_takeSrc (n : Nat) : fixesCounters (takeSrc n) :=
  fixesCounters_readState.bind fun _ => (fixesCounters_memReadBytes _ _).bind fun _ =>
    (fixesCounters_update (g := (·.advance n)) (fun _ => ⟨rfl, rfl, rfl⟩)).bind fun _ => fixesCounters_pure _

theorem fixesCounters_fetchByte : fixesCounters fetchByte :=
  (fixesCounters_takeSrc 1).bind fun _ => fixesCounters_pure _

theorem scanRaw_row {s t : State} (h : scanRaw s = .ok () t) : t.row = s.row := by
  rw [scanRaw, run_readState_bind] at h
  cases hr : takeSrc (min (pcxStride s) (srcLen s - srcOff s)) s with
  | error e u => rw [run_bind_error hr] at h; cases h
  | ok data u =>
    rw [run_bind_ok hr, run_update] at h
    cases h
    exact (fixesCounters_takeSrc _ s u data hr).2.1

/-- R242-R244: a PCX token before the scanline's end leaves the scanline, and LINE no longer than the stride. -/
theorem pcxToken_line {b : Byte} {s t u : State} (hst : Kept true R s t) (hc : sameCounters s t) (hl : s.line.length < pcxStride s)
    (h : tokenOf (decodePcx b) t = .ok () u) : u.row = s.row ∧ u.line.length ≤ pcxStride s := by
  obtain ⟨-, c2, c3⟩ := hc
  have hstride : pcxStride t = pcxStride s := hst.values.2.2.2.2.2.2.2.2
  unfold decodePcx at h
  split at h
  · simp only [tokenOf, pcxRep, run_readState_bind, run_ite] at h
    split at h
    · cases h
      simp only [c2, c3]
      exact ⟨trivial, by omega⟩
    · cases hr : srcByte (srcOff t) t with
      | error e v => rw [run_bind_error hr] at h; cases h
      | ok v w =>
        obtain ⟨-, d2, d3⟩ := fixesCounters_srcByte _ t w v hr
        rw [run_bind_ok hr, run_update_bind, run_update] at h
        cases h
        simp only [State.advance_row, State.advance_line, List.length_append, List.length_replicate, d2, d3, c2, c3,
          hstride]
        exact ⟨trivial, by omega⟩
  · simp only [tokenOf, pcxLit, run_update] at h
    cases h
    simp only [List.length_append, c2, c3, List.length_cons, List.length_nil]
    exact ⟨trivial, by omega⟩

/-- R251: a TGA packet that is placed leaves the pixel counter within the image. -/
theorem tgaToken_pixK {b : Byte} {s t u : State} (hst : Kept true R s t)
    (h : tokenOf (decodeTga b) t = .ok () u) : u.pixK ≤ pixelTotal s := by
  rw [← hst.pixelTotal]
  unfold decodeTga at h
  split at h
  · exact (tgaRun_pixK h).2
  · exact (tgaRaw_pixK h).2

/-- The end of a scanline, in either encoding. -/
theorem loopEnd_scanline {m : Eng Unit} {s : State} (hm : Keeps false (imageRegion s) m s)
    (hrow : ∀ u, m s = .ok () u → u.row = s.row + 1 ∧ u.line = []) :
    LoopEnd .pcxDecode s (conclude .pcxDecode afterScanline (m s)) := by
  have e := conclude_stepEnd (op := .pcxDecode) (P := fun u => m s = .ok () u) (after := afterScanline) hm
    (fun u hu _ => hu)
  cases hc : conclude .pcxDecode afterScanline (m s) with
  | next v =>
    rw [hc] at e
    cases e with
    | done u h p =>
      unfold afterScanline
      split
      · next hlt =>
        have hh := h.values.2.2.2.2.1
        refine .goes false u h (by simp) (by simp) (fun _ => by omega) (fun _ => ?_)
        rw [(hrow u p).2]
        exact Nat.zero_le _
      · exact .ends false u .success h
    | failed u c h _ => exact .ends false u c h
  | fault f =>
    rw [hc] at e
    cases e with
    | unwritten i made h hm => exact .unwritten i made h hm
  | refused r =>
    rw [hc] at e
    cases e

/-- The engine's step while the tokens of a command run. -/
theorem engineStep_loop {op : Op} {s : State} (hp : phaseOp s.phase = some op) (hr : ready op 0 s)
    (hrow : op = .pcxDecode → s.row < height s) : LoopEnd op s (engineStep s) := by
  unfold engineStep engineAction
  cases h : s.phase with
  | idle => rw [h] at hp; cases hp
  | start => rw [h] at hp; cases hp
  | rle8 =>
    rw [h] at hp
    cases hp
    exact loopEnd_fetched (hr.sourceFits rfl) (hr.imageFits rfl) (keeps_fetchPair (hr.sourceFits rfl))
      (fun p => by simp [decodeRle8_token]) (fun _ _ _ e => by cases e) (fun _ _ _ e => by cases e)
  | rle4 =>
    rw [h] at hp
    cases hp
    exact loopEnd_fetched (hr.sourceFits rfl) (hr.imageFits rfl) (keeps_fetchPair (hr.sourceFits rfl))
      (fun p => by simp [decodeRle4_token]) (fun _ _ _ e => by cases e) (fun _ _ _ e => by cases e)
  | tga =>
    rw [h] at hp
    cases hp
    dsimp only
    split
    · next heq =>
      split at heq
      · next hlt =>
        have := loopEnd_fetched (hr.sourceFits rfl) (hr.imageFits rfl) (keeps_fetchHeader (hr.sourceFits rfl))
          (token := decodeTga) (op := .tgaDecodeRle) (fun p => by simp [decodeTga_token])
          (fun a t u _ ha hu => by
            have k := (keeps_fetchHeader (kc := true) (R := imageRegion s) (hr.sourceFits rfl)).after
            rw [ha] at k
            exact tgaToken_pixK k hu)
          (fun _ _ _ e => by cases e)
        rw [heq] at this
        exact this
      · cases heq
    · next heq =>
      split at heq
      · next hlt =>
        have := loopEnd_fetched (hr.sourceFits rfl) (hr.imageFits rfl) (keeps_fetchHeader (hr.sourceFits rfl))
          (token := decodeTga) (op := .tgaDecodeRle) (fun p => by simp [decodeTga_token])
          (fun a t u _ ha hu => by
            have k := (keeps_fetchHeader (kc := true) (R := imageRegion s) (hr.sourceFits rfl)).after
            rw [ha] at k
            exact tgaToken_pixK k hu)
          (fun _ _ _ e => by cases e)
        rw [heq] at this
        exact this
      · cases heq
        exact .ends true s .success (.refl ..)
  | pcx =>
    rw [h] at hp
    cases hp
    dsimp only
    have hs := hr.sourceFits rfl
    have hf := hr.imageFits rfl
    have hrow := hrow rfl
    by_cases henc : pcxEncoding s = 0
    · rw [if_pos henc]
      refine loopEnd_scanline (m := (do scanRaw; finishScanline : Eng Unit)) ?_ ?_
      · refine (keeps_scanRaw hs (hr.source rfl)).bind fun _ t ht hk => keeps_finishScanline hk hs hf ?_
        rw [scanRaw_row ht]
        exact hrow
      · intro u hu
        cases ht : scanRaw s with
        | error e t => rw [run_bind_error ht] at hu; cases hu
        | ok a t =>
          rw [run_bind_ok ht] at hu
          have := finishScanline_row hu
          rw [scanRaw_row ht] at this
          exact this
    · rw [if_neg henc]
      by_cases hov : scanlineOver s = true
      · rw [if_pos hov]
        exact loopEnd_scanline (keeps_finishScanline (.refl ..) hs hf hrow) fun u hu => finishScanline_row hu
      · rw [if_neg hov]
        simp only [scanlineOver, Bool.or_eq_true, decide_eq_true_eq, not_or] at hov
        have hh : sourceHolds s 1 := by unfold sourceHolds; omega
        refine loopEnd_fetched hs hf (keeps_fetchByte hs hh) (fun p => by simp [decodePcx_token])
          (fun _ _ _ e => by cases e) (fun a t u _ ha hu => ?_)
        have k := (keeps_fetchByte (kc := true) (R := imageRegion s) hs hh).after
        rw [ha] at k
        have := pcxToken_line k (fixesCounters_fetchByte s t a ha) (by omega) hu
        exact ⟨by omega, this.2⟩

/-! ### What a running command keeps ready -/

/-- The commands that run token loops. -/
def loopOp (op : Op) : Prop :=
  op = .bmpDecodeRle8 ∨ op = .bmpDecodeRle4 ∨ op = .tgaDecodeRle ∨ op = .pcxDecode

theorem phaseOp_loopOp {ph : Phase} {op : Op} (h : phaseOp ph = some op) : loopOp op := by
  cases ph <;> cases h <;> simp [loopOp]

theorem Kept.regionsOf {s t : State} (h : Kept kc R s t) (op : Op) : Machine.regionsOf op t = Machine.regionsOf op s := by
  have e : Machine.regionsOf op t = Machine.regionsOf op { s with csr := t.csr } := rfl
  rw [e, h.csr]

/-- A command that is ready stays ready while its tokens run (R49, R142). -/
theorem ready_kept {op : Op} {s t : State} (h : Kept kc R s t) (hkc : op ≠ .pcxDecode → kc = true)
    (hr : ready op 0 s) (hop : loopOp op) : ready op 0 t := by
  have hsrc : usesSrc op = true := by rcases hop with rfl | rfl | rfl | rfl <;> rfl
  have hs' := (h.source (hr.source hsrc)).2
  have hpl : op ≠ .palLoad := by rcases hop with rfl | rfl | rfl | rfl <;> simp
  have ef : formatGates op t = formatGates op s := by
    by_cases hp : op = .pcxDecode
    · subst hp
      have e : formatGates .pcxDecode t = formatGates .pcxDecode { s with csr := t.csr } := rfl
      rw [e, h.csr]
    · have e : formatGates op t = formatGates op { s with csr := t.csr, palCount := t.palCount } := by
        cases op <;> rfl
      rw [e, h.csr, h.palCount (hkc hp)]
  have ec : ∀ g ∈ commonGates op 0 t, g ∈ commonGates op 0 s ∨ g.1 = false := by
    have e2 : decide (width t * height t * 4 > pixCap t) = decide (width s * height s * 4 > pixCap s) := by
      have e : decide (width t * height t * 4 > pixCap t) =
        decide (width { s with csr := t.csr } * height { s with csr := t.csr } * 4 > pixCap { s with csr := t.csr }) := rfl
      rw [e, h.csr]
    have e3 : (decide (width t = 0) || decide (height t = 0)) = (decide (width s = 0) || decide (height s = 0)) := by
      have e : (decide (width t = 0) || decide (height t = 0)) =
        (decide (width { s with csr := t.csr } = 0) || decide (height { s with csr := t.csr } = 0)) := rfl
      rw [e, h.csr]
    intro g hg
    simp only [commonGates, h.regionsOf op, e2, e3, List.mem_cons, List.not_mem_nil, or_false] at hg ⊢
    rcases hg with rfl | rfl | rfl | rfl | rfl | rfl
    · exact .inl (by simp)
    · exact .inl (by simp)
    · refine .inr ?_
      have hlt : ¬ srcOff t > srcLen t := by omega
      simp [hlt]
    · exact .inl (by simp)
    · exact .inl (by simp)
    · exact .inr (by simp [hpl])
  obtain ⟨h1, h2⟩ := hr
  refine ⟨?_, ?_⟩
  · unfold check at *
    rw [firstFailing_none] at *
    intro g hg
    rw [ef] at hg
    rcases List.mem_append.mp hg with hg | hg
    · rcases ec g hg with hg | hg
      · exact h1 g (List.mem_append_left _ hg)
      · exact hg
    · exact h1 g (List.mem_append_right _ hg)
  · unfold regionsRefusal at *
    rw [h.regionsOf op, h.devices]
    exact h2

end Sys2Proof.Machine
end

