-- ==== Sys2Proof/Laws/Invariant.lean ====
section
/-!
SUPPORT. What keeps the invariant of the machine: the end of a command, a loop that goes on, the script.
-/

namespace Sys2Proof.Machine

variable {kc : Bool} {R : Nat × Nat}

/-- A full mask keeps every bit. -/
theorem and_fullMask (w : Word) : w &&& 0xFFFFFFFF = w := by
  have : (0xFFFFFFFF : Word) = BitVec.allOnes 32 := by decide
  rw [this, BitVec.and_allOnes]

/-- A legal STATUS has no reserved bit. -/
theorem legalStatus_mask {w : Word} (h : legalStatus w) : w &&& 0x703 = w := by
  rcases h with rfl | rfl | ⟨c, rfl⟩
  · decide
  · decide
  · cases c <;> decide

/-- Reserved bits stay 0 where the registers that only the host writes are unchanged. -/
theorem reservedZero_of {s t : State} (h : reservedZero s) (hc : t.csr = s.csr)
    (hp : t.palCount &&& regMask .palCount = t.palCount) (hs : legalStatus t.status) : reservedZero t := by
  intro r
  have := h r
  cases r <;> simp only [regRaw, regMask, hc, and_fullMask] at * <;> first | exact this | exact hp | exact legalStatus_mask hs

/-- The invariant of an idle machine. -/
theorem inv_idle {t : State} (h1 : t.mem.wf = true) (h2 : t.memStart.wf = true) (h3 : t.pal.wf = true)
    (h4 : t.status = 0 ∨ ∃ c, t.status = statusDone c) (h5 : reservedZero t) (h6 : t.phase = .idle) : Inv t where
  memory := h1
  memoryAtStart := h2
  palette := h3
  status := by rcases h4 with h | ⟨c, h⟩; exact .inl h; exact .inr (.inr ⟨c, h⟩)
  busyPhase := by
    have : busy t = false := by
      rcases h4 with h | ⟨c, h⟩
      · unfold busy; rw [h]; rfl
      · unfold busy; rw [h]; cases c <;> rfl
    simp [this, h6]
  reserved := h5
  atStart := by rw [h6]; simp
  running := by rw [h6]; simp [phaseOp]

/-- R370: every register has its reset value, whatever memory is kept. -/
theorem regRaw_resetKeeping (s : State) (m : Memory) (r : Reg) : regRaw r (s.resetKeeping m) = regRaw r State.reset := by
  cases r <;> rfl

/-- The reset state around any canonical memory meets the invariant. -/
theorem inv_resetKeeping (s : State) {m : Memory} (h : m.wf = true) : Inv (s.resetKeeping m) := by
  refine inv_idle h h rfl (.inl rfl) (fun r => ?_) rfl
  rw [regRaw_resetKeeping]
  cases r <;> decide

/-- A reset keeps the invariant, whatever the step that it cuts off would do. -/
theorem inv_platformReset {s t : State} {next : Host.Outcome State Fault Refusal} (hi : Inv s)
    (h : platformReset s next = .next t) : Inv t := by
  unfold platformReset at h
  cases h
  split
  · exact inv_resetKeeping _ (Memory.wf_replay _ hi.memoryAtStart)
  · exact inv_resetKeeping _ hi.memory

/-- An operation that keeps what `Kept` says keeps memory canonical. -/
theorem Kept.memWf {s u : State} (h : Kept kc R s u) (hm : s.mem.wf = true) : u.mem.wf = true := by
  obtain ⟨evs, -, h2, -⟩ := h.trace
  rw [h2]; exact Memory.wf_replay _ hm

/-- The end of a command keeps the invariant. -/
theorem inv_end {s u : State} (hi : Inv s) (h : Kept kc R s u) (op : Op) (st : Bool) (c : Code) :
    Inv (endCommand op st c u) := by
  have hm := Kept.memWf h hi.memory
  have hms : u.memStart.wf = true := by rw [h.memStart]; exact hi.memoryAtStart
  have hp := h.palette hi.palette
  have hcount : u.palCount &&& regMask .palCount = u.palCount := h.palCountMask (hi.reserved .palCount)
  have key : ∀ t : State, t.csr = u.csr → t.palCount = u.palCount → t.mem = u.mem → t.memStart = u.memStart → t.pal = u.pal →
      Inv (t.goIdle c) := by
    intro t t1 t2 t3 t4 t5
    refine inv_idle (by simp [t3, hm]) (by simp [t4, hms]) (by simp [t5, hp]) (.inr ⟨c, rfl⟩) ?_ rfl
    refine reservedZero_of hi.reserved (by simp [t1, h.csr]) (by simp [t2, hcount]) (.inr (.inr ⟨c, rfl⟩))
  unfold endCommand
  cases op <;> dsimp only <;> first
    | exact key _ rfl rfl rfl rfl rfl
    | (cases st
       · exact key _ rfl rfl rfl rfl rfl
       · exact key _ rfl rfl rfl rfl rfl)

/-- A command that its gates end keeps the invariant. -/
theorem inv_gateEnd {s : State} (hi : Inv s) (op : Op) (c : Code) : Inv (endCommand op false c { s with outN := 0 }) :=
  inv_end hi (Kept.outN0 true (0,0) s) op false c

/-- The image of a ready command lies in PIX. -/
theorem imageRegion_pix {s : State} {op : Op} {arg} (hr : ready op arg s) (hu : usesPix op = true) {a : Nat}
    (h : inRegion a (imageRegion s) = true) : inRegion a (pixRegion s) = true := by
  have hc := (hr.pixCap hu).2
  unfold inRegion at *
  rw [Bool.and_eq_true, decide_eq_true_eq, decide_eq_true_eq] at *
  simp only [imageRegion, pixRegion] at h ⊢
  omega

/-- The PIX region does not move. -/
theorem Kept.pixRegion_eq {s u : State} (h : Kept kc R s u) : pixRegion u = pixRegion s := by
  have e : pixRegion u = pixRegion { s with csr := u.csr } := rfl
  rw [e, h.csr]

/-- A running command that goes on with its loop keeps the invariant. -/
theorem inv_goes {s u : State} (hi : Inv s) {op : Op} (hp : phaseOp s.phase = some op) (h : Kept kc (imageRegion s) s u)
    (hkc : op ≠ .pcxDecode → kc = true)
    (pixels : op = .tgaDecodeRle → u.pixK ≤ pixelTotal s) (rows : op = .pcxDecode → u.row < height s)
      (line : op = .pcxDecode → u.line.length ≤ pcxStride s) : Inv u := by
  have hrun := hi.running op hp
  have hop := phaseOp_loopOp hp
  have hpix : usesPix op = true := by rcases hop with rfl | rfl | rfl | rfl <;> rfl
  have hph : u.phase = s.phase := h.phase
  have hst : u.status = s.status := h.status
  refine ⟨Kept.memWf h hi.memory, by rw [h.memStart]; exact hi.memoryAtStart, h.palette hi.palette, by rw [hst]; exact hi.status,
    ?_, ?_, ?_, ?_⟩
  · have : busy u = busy s := by unfold busy; rw [hst]
    rw [this, hph]; exact hi.busyPhase
  · exact reservedZero_of hi.reserved h.csr (h.palCountMask (hi.reserved .palCount)) (by rw [hst]; exact hi.status)
  · intro hs
    rw [hph] at hs
    rw [hs] at hp; cases hp
  · intro op' hp'
    rw [hph, hp] at hp'
    cases hp'
    obtain ⟨evs, e1, e2, e3⟩ := h.trace
    refine ⟨?_, ready_kept h hkc hrun.ready hop, ?_, ?_, ?_, ?_, ?_⟩
    · rw [h.csr]; exact hrun.selected
    · intro ho; rw [h.pixelTotal]; exact pixels ho
    · intro ho; rw [h.values.2.2.2.2.1]; exact rows ho
    · intro ho; rw [h.values.2.2.2.2.2.2.2.2]; exact line ho
    · rw [e2, h.memStart, e1, List.reverse_append, Memory.replay_append, ← hrun.memory]
    · intro e he hk
      rw [Kept.pixRegion_eq h]
      rw [e1] at he
      rcases List.mem_append.mp he with he | he
      · exact imageRegion_pix hrun.ready hpix (e3 e he hk)
      · exact hrun.writes e he hk

/-- The invariant says nothing of the script. -/
theorem Inv.turns {s : State} (hi : Inv s) (ts : List Turn) : Inv { s with turns := ts } := by
  obtain ⟨a,b,c,d,e,f,g,h⟩ := hi
  refine ⟨a,b,c,d,e,f,g,?_⟩
  intro op ho
  obtain ⟨a,b,c,d,e,f,g⟩ := h op ho
  exact ⟨a,b,c,d,e,f,g⟩

/-- A decoded command word is a command. -/
theorem decodeCommand_stream {w : Word} {i : Instr} (hd : decodeCommand w = .ok i) : i.stream = .command := by
  unfold decodeCommand at hd
  split at hd <;> cases hd <;> rfl

/-- A machine that is not busy is idle with no command or an ended one. -/
theorem Inv.idle_of {s : State} (hi : Inv s) (hb : busy s = false) : s.phase = .idle ∧ (s.status = 0 ∨ ∃ c, s.status = statusDone c) := by
  constructor
  · by_contra h
    have := hi.busyPhase.2 h
    rw [hb] at this; cases this
  · rcases hi.status with h | h | h
    · exact .inl h
    · unfold busy at hb; rw [h] at hb; cases hb
    · exact .inr h

end Sys2Proof.Machine
end

