-- ==== Sys2Proof/Laws/PerInstr.lean ====
section
/-!
SUPPORT. What holds of every instruction as syntax, one lemma per constructor.
-/

/-- The bytes that select an instruction of a stream (30_encoding.md R100, R102, R106, R107, R113). -/
def Sys2Proof.Laws.Head.size : Stream → Nat
  | .command => 4
  | .rle8 | .rle4 => 2
  | .pcx | .tga => 1

/-- The encoder gives exactly the bytes that select the instruction, and fewer bytes than these are rejected as cut
off (R113): no decoder reads past them, none decides on less. -/
def Sys2Proof.Laws.Head.Statement (i : Instr) : Prop :=
  (encode i).length = Sys2Proof.Laws.Head.size i.stream ∧
    ∀ n, n < (encode i).length → decode i.stream ((encode i).take n) = .error (.truncated i.stream)

namespace Sys2Proof.Laws

/-- An encoding of four bytes that a command word of four bytes is. -/
theorem Head.ofCommand {i : Instr} (b0 b1 b2 b3 : Byte) (he : encode i = [b0, b1, b2, b3])
    (hs : i.stream = .command) : Head.Statement i := by
  refine ⟨by rw [he, hs]; rfl, ?_⟩
  rw [he, hs]
  intro n hn
  match n, hn with
  | 0, _ => rfl
  | 1, _ => rfl
  | 2, _ => rfl
  | 3, _ => rfl

/-- An encoding of two bytes in a stream of pairs. -/
theorem Head.ofPair {i : Instr} (b0 b1 : Byte) (he : encode i = [b0, b1])
    (hs : i.stream = .rle8 ∨ i.stream = .rle4) : Head.Statement i := by
  rcases hs with hs | hs <;>
  · refine ⟨by rw [he, hs]; rfl, ?_⟩
    rw [he, hs]
    intro n hn
    match n, hn with
    | 0, _ => rfl
    | 1, _ => rfl

/-- An encoding of one byte in a stream of bytes. -/
theorem Head.ofByte {i : Instr} (b : Byte) (he : encode i = [b])
    (hs : i.stream = .pcx ∨ i.stream = .tga) : Head.Statement i := by
  rcases hs with hs | hs <;>
  · refine ⟨by rw [he, hs]; rfl, ?_⟩
    rw [he, hs]
    intro n hn
    match n, hn with
    | 0, _ => rfl

theorem Head.palLoad (arg : BitVec 8) : Head.Statement (.palLoad arg) :=
  Head.ofCommand _ _ _ _ rfl rfl

theorem Head.pcxEgaLoad : Head.Statement .pcxEgaLoad :=
  Head.ofCommand _ _ _ _ rfl rfl

theorem Head.bmpDecodeRaw : Head.Statement .bmpDecodeRaw :=
  Head.ofCommand _ _ _ _ rfl rfl

theorem Head.bmpDecodeRle8 : Head.Statement .bmpDecodeRle8 :=
  Head.ofCommand _ _ _ _ rfl rfl

theorem Head.bmpDecodeRle4 : Head.Statement .bmpDecodeRle4 :=
  Head.ofCommand _ _ _ _ rfl rfl

theorem Head.bmpEncode : Head.Statement .bmpEncode :=
  Head.ofCommand _ _ _ _ rfl rfl

theorem Head.tgaDecodeRaw : Head.Statement .tgaDecodeRaw :=
  Head.ofCommand _ _ _ _ rfl rfl

theorem Head.tgaDecodeRle : Head.Statement .tgaDecodeRle :=
  Head.ofCommand _ _ _ _ rfl rfl

theorem Head.tgaEncode : Head.Statement .tgaEncode :=
  Head.ofCommand _ _ _ _ rfl rfl

theorem Head.pcxDecode : Head.Statement .pcxDecode :=
  Head.ofCommand _ _ _ _ rfl rfl

theorem Head.eolRle8 : Head.Statement .eolRle8 :=
  Head.ofPair _ _ rfl (.inl rfl)

theorem Head.eobRle8 : Head.Statement .eobRle8 :=
  Head.ofPair _ _ rfl (.inl rfl)

theorem Head.deltaRle8 : Head.Statement .deltaRle8 :=
  Head.ofPair _ _ rfl (.inl rfl)

theorem Head.abs8 (n : BitVec 8) : Head.Statement (.abs8 n) :=
  Head.ofPair _ _ rfl (.inl rfl)

theorem Head.run8 (c v : BitVec 8) : Head.Statement (.run8 c v) :=
  Head.ofPair _ _ rfl (.inl rfl)

theorem Head.eolRle4 : Head.Statement .eolRle4 :=
  Head.ofPair _ _ rfl (.inr rfl)

theorem Head.eobRle4 : Head.Statement .eobRle4 :=
  Head.ofPair _ _ rfl (.inr rfl)

theorem Head.deltaRle4 : Head.Statement .deltaRle4 :=
  Head.ofPair _ _ rfl (.inr rfl)

theorem Head.abs4 (n : BitVec 8) : Head.Statement (.abs4 n) :=
  Head.ofPair _ _ rfl (.inr rfl)

theorem Head.run4 (c : BitVec 8) (hi lo : BitVec 4) : Head.Statement (.run4 c hi lo) :=
  Head.ofPair _ _ rfl (.inr rfl)

theorem Head.pcxRep (k : BitVec 6) : Head.Statement (.pcxRep k) :=
  Head.ofByte _ rfl (.inl rfl)

theorem Head.pcxLit (b : BitVec 8) : Head.Statement (.pcxLit b) :=
  Head.ofByte _ rfl (.inl rfl)

theorem Head.tgaRun (n : BitVec 7) : Head.Statement (.tgaRun n) :=
  Head.ofByte _ rfl (.inr rfl)

theorem Head.tgaRaw (n : BitVec 7) : Head.Statement (.tgaRaw n) :=
  Head.ofByte _ rfl (.inr rfl)

end Sys2Proof.Laws
end

