-- ==== Sys2Proof/Tests/Slice0.lean ====
section
/-!
SUPPORT. Tests: ill-formed terms that are refused, each constructor decoded from a word written out from the tables of
30_encoding.md, single steps with the results of spec/95_test_vectors.md, and one witness of the hypotheses of each
statement.
-/

namespace Sys2Proof.Tests

open Sys2Proof Sys2Proof.Machine

set_option Elab.async false

/-! ### Ill-formed terms -/

theorem test_wf_run8_zero : (Instr.run8 0 5).wf = false := by decide
theorem test_wf_run4_zero : (Instr.run4 0 1 2).wf = false := by decide
theorem test_wf_abs8_two : (Instr.abs8 2).wf = false := by decide
theorem test_wf_abs4_two : (Instr.abs4 2).wf = false := by decide
theorem test_wf_lit_marker : (Instr.pcxLit 0xC0).wf = false := by decide

/-! ### Decoding: the words of the tables of R100, R102, R106, R107 -/

theorem test_decode_palLoad : decodeCommand 0x00000601 = .ok (.palLoad 6) := by decide
theorem test_decode_pcxEgaLoad : decodeCommand 0x00000002 = .ok .pcxEgaLoad := by decide
theorem test_decode_bmpDecodeRaw : decodeCommand 0x00000010 = .ok .bmpDecodeRaw := by decide
theorem test_decode_bmpDecodeRle8 : decodeCommand 0x00000011 = .ok .bmpDecodeRle8 := by decide
theorem test_decode_bmpDecodeRle4 : decodeCommand 0x00000012 = .ok .bmpDecodeRle4 := by decide
theorem test_decode_bmpEncode : decodeCommand 0x00000018 = .ok .bmpEncode := by decide
theorem test_decode_tgaDecodeRaw : decodeCommand 0x00000020 = .ok .tgaDecodeRaw := by decide
theorem test_decode_tgaDecodeRle : decodeCommand 0x00000021 = .ok .tgaDecodeRle := by decide
theorem test_decode_tgaEncode : decodeCommand 0x00000028 = .ok .tgaEncode := by decide
theorem test_decode_pcxDecode : decodeCommand 0xFFFFFF30 = .ok .pcxDecode := by decide
theorem test_decode_reserved : decodeCommand 0x00000013 = .error (.reservedOp 0x13) := by decide
theorem test_decode_eolRle8 : decodeRle8 0x00 0x00 = .eolRle8 := by decide
theorem test_decode_eobRle8 : decodeRle8 0x00 0x01 = .eobRle8 := by decide
theorem test_decode_deltaRle8 : decodeRle8 0x00 0x02 = .deltaRle8 := by decide
theorem test_decode_abs8 : decodeRle8 0x00 0x03 = .abs8 3 := by decide
theorem test_decode_run8 : decodeRle8 0x01 0x00 = .run8 1 0 := by decide
theorem test_decode_eolRle4 : decodeRle4 0x00 0x00 = .eolRle4 := by decide
theorem test_decode_eobRle4 : decodeRle4 0x00 0x01 = .eobRle4 := by decide
theorem test_decode_deltaRle4 : decodeRle4 0x00 0x02 = .deltaRle4 := by decide
theorem test_decode_abs4 : decodeRle4 0x00 0xFF = .abs4 255 := by decide
theorem test_decode_run4 : decodeRle4 0x03 0x12 = .run4 3 1 2 := by decide
theorem test_decode_pcxRep : decodePcx 0b11000010 = .pcxRep 2 := by decide
theorem test_decode_pcxLit : decodePcx 0b10111111 = .pcxLit 0xBF := by decide
theorem test_decode_tgaRun : decodeTga 0b11111111 = .tgaRun 127 := by decide
theorem test_decode_tgaRaw : decodeTga 0b00000001 = .tgaRaw 1 := by decide

/-- An odd absolute run is padded (R104); the notation of R130. -/
theorem test_asm_abs8 : asmBytes (.abs8 [1, 2, 3]) = [0x00, 0x03, 1, 2, 3, 0] := by decide

/-- Vector RLE-10: five nibbles take three bytes and one of padding. -/
theorem test_asm_abs4 : asmBytes (.abs4 [0xA, 0xB, 0xC, 0xD, 0xE]) = [0x00, 0x05, 0xAB, 0xCD, 0xE0, 0x00] := by decide

/-! ### Small machines -/

/-- An idle machine: SRC at 0 holds `src`; PIX, at 0x10000, fits the image exactly; OUT is at 0x20000. -/
def machine (fmt w h : Word) (src : List Byte) : State :=
  { State.reset with
    mem := Memory.writeBytes [] 0 src
    memStart := Memory.writeBytes [] 0 src
    csr := { HostRegs.reset with
      srcLen := BitVec.ofNat 32 src.length
      pixBase := 0x10000
      pixCap := w * h * 4
      outBase := 0x20000
      outCap := 64
      width := w
      height := h
      fmt := fmt } }

/-- The palette of section 2 of the vectors, its entries 0 to 4: entry `i` is blue `i`. -/
def withPalette (n : Word) (s : State) : State :=
  { s with
    pal := [(0, 0xFF000000), (1, 0xFF000001), (2, 0xFF000002), (3, 0xFF000003), (4, 0xFF000004)]
    palCount := n }

/-- In the loop `ph` of the command with opcode `cmd`. -/
def inLoop (cmd : Word) (ph : Phase) (s : State) : State :=
  { s with csr := { s.csr with cmd := cmd }, status := statusBusy, phase := ph }

/-- With the cursor at `(x, y)`. -/
def cursorAt (x y : Cursor) (s : State) : State := { s with x := x, y := y }

/-- With the image `pixels`, canonical order, in PIX. -/
def withImage (pixels : List Pixel) (s : State) : State :=
  { s with mem := s.mem.writeBytes 0x10000 (pixels.flatMap wordBytes) }

/-- A field of the next state. -/
def field {α : Type} (f : State → α) (o : Host.Outcome State Fault Refusal) : Option α :=
  match o with
  | .next t => some (f t)
  | _ => none

/-- The first `n` pixels of row 0. -/
def row0 (n : Nat) (s : State) : List Pixel := (List.range n).map (fun x => pixelAt s x 0)

/-- `n` output bytes. -/
def output (n : Nat) (s : State) : List Byte := s.mem.bytesAt 0x20000 n

/-- An RLE8 decode in its loop, `w` by `h` pixels. -/
def rle8 (w h : Word) (src : List Byte) : State := inLoop 0x11 .rle8 (withPalette 5 (machine 8 w h src))

/-- An RLE4 decode in its loop. -/
def rle4 (w h : Word) (src : List Byte) : State := inLoop 0x12 .rle4 (withPalette 5 (machine 4 w h src))

/-- A TGA RLE decode of 24-bit samples in its loop. -/
def tga24 (w h : Word) (src : List Byte) : State := inLoop 0x21 .tga (machine 24 w h src)

/-- A PCX decode in its loop: 8 bits, one plane of `w` bytes, ENCODING `enc`. -/
def pcx8 (enc w h : Word) (src : List Byte) : State :=
  let s := inLoop 0x30 .pcx (machine 8 w h src)
  { s with csr := { s.csr with pcxCfg := enc * 0x1000000 + 0x10000 + w } }

/-- The same as a PCX decode of three 8-bit planes, which needs no second pass. -/
def pcx24 (enc w h : Word) (src : List Byte) : State :=
  let s := inLoop 0x30 .pcx (machine 8 w h src)
  { s with csr := { s.csr with pcxCfg := enc * 0x1000000 + 0x30000 + w } }

/-- An encoder's machine: ENC_CFG as given. -/
def encoder (cfg w h : Word) (pixels : List Pixel) : State :=
  let s := machine 0 w h []
  withImage pixels { s with csr := { s.csr with encCfg := cfg } }

/-! ### Single steps, results from spec/95_test_vectors.md -/

/-- R301 example of R300: format 1, two entries. -/
theorem test_palLoad : field (fun t => (t.pal, t.srcPos, t.status))
    (exec (.palLoad 1) { machine 0 0 0 [0, 0, 0, 0, 0xFF, 0xFF, 0xFF, 0] with palCount := 2 }) =
    some ([(0, 0xFF000000), (1, 0xFFFFFFFF)], 8, 0x002) := by decide +kernel

/-- PAL_LOAD with fewer bytes than its entries: ReadError (R300). -/
theorem test_palLoad_short : field (fun t => (t.pal, t.srcPos, t.status))
    (exec (.palLoad 1) { machine 0 0 0 [0, 0, 0, 0, 0xFF, 0xFF, 0xFF] with palCount := 2 }) =
    some ([], 0, 0x202) := by decide +kernel

/-- An all-zero header palette with VERSION 5 takes the built-in one (R304, R305). -/
theorem test_pcxEgaLoad : field (fun t => (cellGet? t.pal 1, cellGet? t.pal 15, t.palCount, t.srcPos))
    (exec .pcxEgaLoad
      (let s := machine 0 0 0 (List.replicate 48 0)
       { s with csr := { s.csr with pcxAux := 0x50000 } })) =
    some (some 0xFF0000AA, some 0xFFFFFFFF, 16, 48) := by decide +kernel

/-- Vector S1-a, cut to one column: the first stored row is the bottom one. -/
theorem test_bmpDecodeRaw : field (fun t => (pixelAt t 0 0, pixelAt t 0 1, t.status, t.srcPos))
    (exec .bmpDecodeRaw (machine 24 1 2 [1, 2, 3, 0, 7, 8, 9, 0])) =
    some (0xFF090807, 0xFF030201, 0x002, 8) := by decide +kernel

/-- Vector RLE-5: the start row is HEIGHT-1 and every pixel is FILL (R192). -/
theorem test_bmpDecodeRle8 : field (fun t => (t.x, t.y, row0 2 t, t.phase))
    (exec .bmpDecodeRle8 (withPalette 5 (machine 8 2 2 [0, 1]))) =
    some (0, 1, [0xFF000000, 0xFF000000], .rle8) := by decide +kernel

/-- Vector RLE-14: RLE4 with depth 8 is FileCorrupted (gate b of R151). -/
theorem test_bmpDecodeRle4_gate : field (fun t => t.status)
    (exec .bmpDecodeRle4 (withPalette 5 (machine 8 2 2 [0, 1]))) = some 0x402 := by decide +kernel

/-- A top-down RLE4 decode starts at row 0 (R51, R181). -/
theorem test_bmpDecodeRle4 : field (fun t => (t.y, t.phase))
    (exec .bmpDecodeRle4 (withPalette 5 (machine 0x104 2 2 [0, 1]))) = some (0, .rle4) := by decide +kernel

/-- Vector BE-7: the literal stops before a pair; its image is `g(1), g(2), g(3), g(3)`. -/
theorem test_bmpEncode_rle : field (fun t => (output 10 t, t.outLen))
    (exec .bmpEncode (encoder 0x108 4 1 [0xFF010101, 0xFF020202, 0xFF030303, 0xFF030303])) =
    some ([1, 1, 1, 2, 2, 3, 0, 0, 0, 1], 10) := by decide +kernel

/-- Vector BE-2: luma 76, 149, 29 and one pad byte. -/
theorem test_bmpEncode_gray : field (fun t => (output 4 t, t.outLen))
    (exec .bmpEncode (encoder 8 3 1 [0xFFFF0000, 0xFF00FF00, 0xFF0000FF])) =
    some ([0x4C, 0x95, 0x1D, 0], 4) := by decide +kernel

/-- Vector TD-1. -/
theorem test_tgaDecodeRaw : field (fun t => (row0 2 t, t.srcPos, t.pixDone, t.resultDepth))
    (exec .tgaDecodeRaw (machine 24 2 1 [1, 2, 3, 4, 5, 6])) =
    some ([0xFF030201, 0xFF060504], 6, 2, 24) := by decide +kernel

/-- Vector TD-13: a short payload leaves the samples before the cut. -/
theorem test_tgaDecodeRaw_short : field (fun t => (row0 1 t, t.srcPos, t.pixDone, t.status))
    (exec .tgaDecodeRaw (machine 24 2 1 [1, 2, 3, 4, 5])) = some ([0xFF030201], 3, 1, 0x202) := by decide +kernel

theorem test_tgaDecodeRle : field (fun t => (t.pixK, t.phase))
    (exec .tgaDecodeRle { machine 24 2 1 [0x81, 1, 2, 3] with pixK := 9 }) = some (0, .tga) := by decide +kernel

/-- Vector TE-3: a pair of equal samples stays raw; `A = 0xFF030201`, `B = 0xFF060504`. -/
theorem test_tgaEncode : field (fun t => (output 10 t, t.outLen))
    (exec .tgaEncode (encoder 0x118 3 1 [0xFF030201, 0xFF030201, 0xFF060504])) =
    some ([2, 1, 2, 3, 1, 2, 3, 4, 5, 6], 10) := by decide +kernel

theorem test_pcxDecode : field (fun t => (t.row, t.line, t.phase))
    (exec .pcxDecode { pcx8 1 4 1 [1] with row := 3, line := [7], phase := .start }) = some (0, [], .pcx) := by decide +kernel

/-- Vector RLE-11: EOL of a bottom-up image moves Y up. -/
theorem test_eolRle8 : field (fun t => (t.x, t.y)) (exec .eolRle8 (cursorAt 1 0 (rle8 2 1 []))) =
    some (0, -1) := by decide +kernel

/-- Vector RLE-1's end: X 5 and Y 0 are latched. -/
theorem test_eobRle8 : field (fun t => (t.status, t.curX, t.curY, t.phase))
    (exec .eobRle8 (cursorAt 5 0 (rle8 2 1 []))) = some (0x002, 5, 0, .idle) := by decide +kernel

/-- Vector RLE-13's delta. -/
theorem test_deltaRle8 : field (fun t => (t.x, t.y, t.srcPos))
    (exec .deltaRle8 (cursorAt 0 1 (rle8 4 2 [1, 1]))) = some (1, 0, 2) := by decide +kernel

/-- Vector RLE-4: a delta that is cut off. -/
theorem test_deltaRle8_cut : field (fun t => (t.status, t.srcPos, t.curX))
    (exec .deltaRle8 (rle8 4 1 [1])) = some (0x202, 0, 0) := by decide +kernel

/-- An odd absolute run reads its padding (R188). -/
theorem test_abs8 : field (fun t => (row0 3 t, t.x, t.srcPos))
    (exec (.abs8 3) (rle8 3 1 [1, 2, 3, 0])) = some ([0xFF000001, 0xFF000002, 0xFF000003], 3, 4) := by decide +kernel

/-- Vector RLE-3: an absolute run that is cut off writes nothing. -/
theorem test_abs8_cut : field (fun t => (t.status, t.srcPos, row0 1 t))
    (exec (.abs8 5) (rle8 4 1 [1, 2, 3])) = some (0x202, 0, [0]) := by decide +kernel

/-- Vector RLE-1: pixels past the right edge are dropped. -/
theorem test_run8 : field (fun t => (row0 3 t, t.x))
    (exec (.run8 5 1) (rle8 2 1 [])) = some ([0xFF000001, 0xFF000001, 0], 5) := by decide +kernel

/-- Vector RLE-7: an index at or above PAL_COUNT gives entry 0. -/
theorem test_run8_clamped : field (row0 1) (exec (.run8 1 7) (rle8 2 1 [])) = some [0xFF000000] := by decide +kernel

/-- EOL of a top-down image moves Y down (R185). -/
theorem test_eolRle4 : field (fun t => (t.x, t.y))
    (exec .eolRle4 (cursorAt 1 0 (inLoop 0x12 .rle4 (machine 0x104 2 2 [])))) = some (0, 1) := by decide +kernel

theorem test_eobRle4 : field (fun t => (t.status, t.curX, t.curY))
    (exec .eobRle4 (cursorAt 0 (-1) (rle4 2 1 []))) = some (0x002, 0, 0xFFFFFFFF) := by decide +kernel

/-- Vector RLE-6a's delta, in a top-down image: Y goes from 2 to 1. -/
theorem test_deltaRle4 : field (fun t => (t.x, t.y))
    (exec .deltaRle4 (cursorAt 0 2 (inLoop 0x12 .rle4 (machine 0x104 2 3 [0, 1])))) = some (0, 1) := by decide +kernel

/-- Vector RLE-9: indices 1, 2, 3 in two bytes without padding. -/
theorem test_abs4 : field (fun t => (row0 3 t, t.srcPos))
    (exec (.abs4 3) (rle4 3 1 [0x12, 0x30])) = some ([0xFF000001, 0xFF000002, 0xFF000003], 2) := by decide +kernel

/-- Vector RLE-8's first run: indices 1, 2, 1. -/
theorem test_run4 : field (row0 3) (exec (.run4 3 1 2) (rle4 5 1 [])) =
    some [0xFF000001, 0xFF000002, 0xFF000001] := by decide +kernel

/-- Vector PX-2: copies past the scanline are discarded. -/
theorem test_pcxRep : field (fun t => (t.line, t.srcPos)) (exec (.pcxRep 3) (pcx8 1 2 2 [7])) =
    some ([7, 7], 1) := by decide +kernel

/-- Vector PX-5: a count of 0 is one copy. -/
theorem test_pcxRep_zero : field (fun t => t.line) (exec (.pcxRep 0) (pcx8 1 64 1 [0xAA])) = some [0xAA] := by decide +kernel

theorem test_pcxLit : field (fun t => (t.line, t.srcPos)) (exec (.pcxLit 5) { pcx8 1 4 1 [] with line := [1] }) =
    some ([1, 5], 0) := by decide +kernel

/-- Vector TD-14: one run spans two rows. -/
theorem test_tgaRun : field (fun t => (pixelAt t 1 0, pixelAt t 0 1, t.pixK, t.srcPos))
    (exec (.tgaRun 3) (tga24 2 2 [1, 2, 3])) = some (0xFF030201, 0xFF030201, 4, 3) := by decide +kernel

/-- Vector TD-2: a run past the end of the image writes nothing. -/
theorem test_tgaRun_long : field (fun t => (t.status, t.pixDone, t.srcPos, row0 1 t))
    (exec (.tgaRun 2) (tga24 2 1 [1, 2, 3])) = some (0x402, 0, 0, [0]) := by decide +kernel

theorem test_tgaRaw : field (fun t => (row0 2 t, t.pixK, t.srcPos))
    (exec (.tgaRaw 1) (tga24 2 1 [1, 2, 3, 4, 5, 6])) = some ([0xFF030201, 0xFF060504], 2, 6) := by decide +kernel

/-- Vector TD-4: the second sample is cut off. -/
theorem test_tgaRaw_cut : field (fun t => (t.status, t.pixDone, t.srcPos, row0 1 t))
    (exec (.tgaRaw 1) (tga24 2 1 [1, 2, 3, 4])) = some (0x402, 1, 3, [0xFF030201]) := by decide +kernel
/-! ### Witnesses: the hypotheses of each statement, met together

The name says which statement of Certificates/Slice0/Obligations.lean; a statement with several clauses has one part, or one
theorem, for each. -/

/-- A column or row below two is 0 or 1. -/
theorem below_two {x : Nat} (h : x < 2) : x = 0 ∨ x = 1 := by omega

theorem test_witness_decodeOfEncode :
    (Instr.run8 1 0).wf = true ∧ (Instr.abs8 3).wf = true ∧ (Instr.abs4 3).wf = true ∧ (Instr.run4 255 15 0).wf = true ∧
      (Instr.pcxLit 0xBF).wf = true ∧ (Instr.palLoad 255).wf = true := by decide

theorem test_witness_tenOpcodes : ∃ i, decodeCommand 0xFFFF0601 = .ok i := ⟨.palLoad 6, by decide⟩

/-- An 8-bit two-column decode in its loop, the token `01 01` and an EOB in the source, the cursor at the last column. -/
def atEdge : State := cursorAt 1 1 (rle8 2 2 [1, 1, 0, 1])

theorem test_witness_stepRunsTheStartedCommand :
    ({ atEdge with turns := [.engine] }.turns = [.engine] ∧ atEdge.turns = []) ∧
      (({ machine 0 0 0 [] with phase := .start, csr := { HostRegs.reset with cmd := 0x10 } } : State).phase = .start ∧
        decodeCommand 0x10 = .ok .bmpDecodeRaw) ∧ State.reset.phase = .idle :=
  ⟨⟨rfl, rfl⟩, ⟨rfl, by decide⟩, rfl⟩

theorem test_witness_stepRunsTheFetchedToken :
    (atEdge.turns = [] ∧ sourceFits atEdge ∧ atEdge.phase = .rle8 ∧ sourceHolds atEdge 2) ∧
    (let s := rle4 2 2 [0, 1]
     s.turns = [] ∧ sourceFits s ∧ s.phase = .rle4 ∧ sourceHolds s 2) ∧
    (let s := tga24 2 1 [0x81]
     s.turns = [] ∧ sourceFits s ∧ s.phase = .tga ∧ s.pixK < pixelTotal s ∧ sourceHolds s 1) ∧
    (let s := pcx8 1 2 1 [0xC2, 7]
     s.turns = [] ∧ sourceFits s ∧ s.phase = .pcx ∧ pcxEncoding s ≠ 0 ∧ scanlineOver s = false) := by
  unfold sourceFits sourceHolds
  decide +kernel

theorem test_witness_streamEndsWithoutAToken :
    (let s := rle8 2 2 [1]
     s.turns = [] ∧ s.phase = .rle8 ∧ ¬ sourceHolds s 2) ∧
    (let s := rle4 2 2 []
     s.turns = [] ∧ s.phase = .rle4 ∧ ¬ sourceHolds s 2) ∧
    (let s := tga24 2 1 []
     s.turns = [] ∧ s.phase = .tga ∧ s.pixK < pixelTotal s ∧ ¬ sourceHolds s 1) ∧
    (let s := { tga24 2 1 [] with pixK := 2 }
     s.turns = [] ∧ s.phase = .tga ∧ pixelTotal s ≤ s.pixK) := by
  unfold sourceHolds
  decide +kernel

theorem test_witness_run8PlacesOneIndex :
    imageFits atEdge ∧ indicesWritten atEdge (255 : Byte).toNat (fun _ => (200 : Byte).toNat) := by
  refine ⟨by unfold imageFits; decide, ?_⟩
  intro x y _ _ _
  rfl

theorem test_witness_run4AlternatesTwoIndices :
    imageFits (rle4 2 2 []) ∧ indicesWritten (rle4 2 2 []) (2 : Byte).toNat
      (fun k => if k % 2 = 0 then (4 : BitVec 4).toNat else (15 : BitVec 4).toNat) := by
  refine ⟨by unfold imageFits; decide, ?_⟩
  intro x y hx _ _
  have hx : x < 2 := hx
  rcases below_two hx with rfl | rfl <;> rfl

theorem test_witness_abs8PlacesItsBytes :
    (let s := rle8 2 2 [4, 3, 2, 0]
     sourceFits s ∧ sourceHolds s (evenUp (3 : Byte).toNat) ∧ imageFits s ∧ indicesWritten s (3 : Byte).toNat
       (fun k => ((srcBytes s (evenUp (3 : Byte).toNat)).getD k 0).toNat)) ∧
    (let s := rle8 2 2 [4, 3, 2]
     sourceFits s ∧ ¬ sourceHolds s (evenUp (3 : Byte).toNat)) := by
  refine ⟨⟨by unfold sourceFits; decide, by unfold sourceHolds; decide, by unfold imageFits; decide, ?_⟩,
    by unfold sourceFits; decide, by unfold sourceHolds; decide⟩
  intro x y hx _ _
  have hx : x < 2 := hx
  rcases below_two hx with rfl | rfl <;> decide +kernel

theorem test_witness_abs4PlacesItsNibbles :
    (let s := rle4 2 2 [0x43, 0x20]
     sourceFits s ∧ sourceHolds s (evenUp (((3 : Byte).toNat + 1) / 2)) ∧ imageFits s ∧ indicesWritten s (3 : Byte).toNat
       (fun k => nibbleIndex ((srcBytes s (evenUp (((3 : Byte).toNat + 1) / 2))).getD (k / 2) 0) k)) ∧
    (let s := rle4 2 2 [0x43]
     sourceFits s ∧ ¬ sourceHolds s (evenUp (((3 : Byte).toNat + 1) / 2))) := by
  refine ⟨⟨by unfold sourceFits; decide, by unfold sourceHolds; decide, by unfold imageFits; decide, ?_⟩,
    by unfold sourceFits; decide, by unfold sourceHolds; decide⟩
  intro x y hx _ _
  have hx : x < 2 := hx
  rcases below_two hx with rfl | rfl <;> decide +kernel

theorem test_witness_eolAndEob : (Instr.eolRle8 = .eolRle8 ∨ Instr.eolRle8 = .eolRle4) ∧
    (Instr.eobRle4 = .eobRle8 ∨ Instr.eobRle4 = .eobRle4) := by decide

theorem test_witness_deltaMovesTheCursor :
    (let s := rle8 2 2 [255, 255]
     (Instr.deltaRle8 = .deltaRle8 ∨ Instr.deltaRle8 = .deltaRle4) ∧ sourceFits s ∧ sourceHolds s 2) ∧
    (let s := rle4 2 2 [1]
     (Instr.deltaRle4 = .deltaRle8 ∨ Instr.deltaRle4 = .deltaRle4) ∧ sourceFits s ∧ ¬ sourceHolds s 2) := by
  unfold sourceFits sourceHolds
  decide +kernel

theorem test_witness_rleDecodeStartsWithTheFill :
    ready .bmpDecodeRle8 0 (withPalette 256 (machine 8 2 2 [0, 1])) ∧
      ready .bmpDecodeRle4 0 (withPalette 16 (machine 4 1 1 [])) := by
  unfold ready
  decide +kernel

/-- RUN8, RUN4, ABS8 and ABS4 with the cursor at the last column of row 0, one entry written: the entry needed is another. -/
theorem test_witness_unwrittenEntryFaults_tokens :
    (let s := cursorAt 1 0 { rle8 2 1 [0, 3, 3, 0] with pal := [(0, 0xFF000000)] }
     imageFits s ∧ sourceFits s ∧ sourceHolds s (evenUp (3 : Byte).toNat) ∧
       firstUnwritten s (2 : Byte).toNat (cursorPixel s fun _ => (1 : Byte).toNat) 1 ∧
       firstUnwritten s (1 : Byte).toNat
         (cursorPixel s fun k => if k % 2 = 0 then (2 : BitVec 4).toNat else (0 : BitVec 4).toNat) 2) ∧
    (let s := cursorAt 0 0 { rle8 2 1 [0, 3, 3, 0] with pal := [(0, 0xFF000000)] }
     imageFits s ∧ firstUnwritten s (3 : Byte).toNat
       (cursorPixel s fun k => ((srcBytes s (evenUp (3 : Byte).toNat)).getD k 0).toNat) 3) ∧
    (let s := cursorAt 0 0 { rle4 2 1 [0x03, 0x30] with pal := [(0, 0xFF000000)] }
     imageFits s ∧ sourceFits s ∧ sourceHolds s (evenUp (((3 : Byte).toNat + 1) / 2)) ∧ firstUnwritten s (3 : Byte).toNat
       (cursorPixel s fun k =>
         nibbleIndex ((srcBytes s (evenUp (((3 : Byte).toNat + 1) / 2))).getD (k / 2) 0) k) 3) := by
  refine ⟨⟨by unfold imageFits; decide, by unfold sourceFits; decide, by unfold sourceHolds; decide, ⟨0, by decide, rfl, ?_⟩,
    ⟨0, by decide, rfl, ?_⟩⟩, ⟨by unfold imageFits; decide, ⟨1, by decide, rfl, ?_⟩⟩, by unfold imageFits; decide,
    by unfold sourceFits; decide, by unfold sourceHolds; decide, 1, by decide, rfl, ?_⟩ <;>
  · intro i hi
    first
    | exact absurd hi (Nat.not_lt_zero i)
    | (obtain rfl : i = 0 := by omega
       exact ⟨_, rfl⟩)

/-- BMP_DECODE_RAW, TGA_DECODE_RAW and the TGA packets: the second pixel needs an unwritten entry (the first, for TGA.RUN). -/
theorem test_witness_unwrittenEntryFaults_commands :
    (let s := { withPalette 5 (machine 8 2 1 [0, 3, 0, 0]) with pal := [(0, 0xFF000000)] }
     ready .bmpDecodeRaw 0 s ∧ 4 = bmpStride (width s) (depth s) ∧ sourceHolds s (4 * height s) ∧
       firstUnwritten s (width s * height s)
         (fun k => bmpPixel (chunk (srcBytes s (4 * height s)) 4 (k / width s)) (k % width s)) 3) ∧
    (let s := { withPalette 5 (machine 0x300048 2 1 [0, 3]) with pal := [(0, 0xFF000000)] }
     ready .tgaDecodeRaw 0 s ∧ 2 ≤ pixelTotal s ∧ sourceHolds s (2 * sampleSize s) ∧
       firstUnwritten s 2 (fun k => tgaSample (tgaSampleBytes s k)) 3) ∧
    (let s := inLoop 0x21 .tga { withPalette 5 (machine 0x300048 2 1 [0, 3]) with pal := [(0, 0xFF000000)] }
     ready .tgaDecodeRle 0 s ∧ s.pixK + ((1 : BitVec 7).toNat + 1) ≤ pixelTotal s ∧ 2 ≤ (1 : BitVec 7).toNat + 1 ∧
       sourceHolds s (2 * sampleSize s) ∧ firstUnwritten s 2 (fun k => tgaSample (tgaSampleBytes s k)) 3) ∧
    (let s := inLoop 0x21 .tga { withPalette 5 (machine 0x300048 2 1 [3]) with pal := [(0, 0xFF000000)] }
     ready .tgaDecodeRle 0 s ∧ s.pixK + ((1 : BitVec 7).toNat + 1) ≤ pixelTotal s ∧ sourceHolds s (sampleSize s) ∧
       firstUnwritten s 1 (fun _ => tgaSample (tgaSampleBytes s 0)) 3) := by
  refine ⟨⟨by unfold ready; decide +kernel, by decide, by unfold sourceHolds; decide, 1, by decide, rfl, ?_⟩,
    ⟨by unfold ready; decide +kernel, by decide, by unfold sourceHolds; decide, 1, by decide, rfl, ?_⟩,
    ⟨by unfold ready; decide +kernel, by decide, by decide, by unfold sourceHolds; decide, 1, by decide, rfl, ?_⟩,
    by unfold ready; decide +kernel, by decide, by unfold sourceHolds; decide, 0, by decide, rfl, ?_⟩ <;>
  · intro i hi
    first
    | exact absurd hi (Nat.not_lt_zero i)
    | (obtain rfl : i = 0 := by omega
       exact ⟨_, rfl⟩)

/-- A PCX scanline of packed 4-bit indices 0 and 3, in each encoding: the second column needs entry 3. -/
theorem test_witness_unwrittenEntryFaults_scanlines :
    (let s := { inLoop 0x30 .pcx { withPalette 5 (machine 4 2 1 []) with pal := [(0, 0xFF000000)] } with line := [0x03] }
     let t := { s with csr := { s.csr with pcxCfg := 0x1010001 } }
     t.phase = .pcx ∧ ready .pcxDecode 0 t ∧ t.row < height t ∧ pcxEncoding t = 1 ∧ scanlineOver t = true ∧
       t.line.length ≤ pcxStride t ∧ firstUnwritten (withLine t t.line) (width t) pcxPixel 3) ∧
    (let s := inLoop 0x30 .pcx { withPalette 5 (machine 4 2 1 [0x03]) with pal := [(0, 0xFF000000)] }
     let t := { s with csr := { s.csr with pcxCfg := 0x0010001 } }
     t.phase = .pcx ∧ ready .pcxDecode 0 t ∧ t.row < height t ∧ pcxEncoding t = 0 ∧
       firstUnwritten (withLine t (srcBytes t (min (pcxStride t) (srcLen t - srcOff t)))) (width t) pcxPixel 3) := by
  refine ⟨⟨rfl, by unfold ready; decide +kernel, by decide, by decide, by decide, by decide, 1, by decide, rfl, ?_⟩, rfl,
    by unfold ready; decide +kernel, by decide, by decide, 1, by decide, rfl, ?_⟩ <;>
  · intro i hi
    obtain rfl : i = 0 := by omega
    exact ⟨_, rfl⟩

/-- The invariant of a decode in its loop, and of the machine of S1-a before it starts. -/
theorem test_inv_atEdge : Inv atEdge where
  memory := by decide +kernel
  memoryAtStart := by decide +kernel
  palette := by decide +kernel
  status := .inr (.inl rfl)
  busyPhase := by decide +kernel
  reserved := by intro r; cases r <;> decide +kernel
  atStart := by intro h; cases h
  running := by
    intro op h
    cases h
    exact { selected := ⟨.bmpDecodeRle8, by decide +kernel, rfl⟩
            ready := by unfold ready; decide +kernel
            pixels := by intro h; cases h
            rows := by intro h; cases h
            lineLength := by intro h; cases h
            memory := by decide +kernel
            writes := by intro e h; cases h }

theorem test_witness_rleLoopConsumesTheSource :
    Inv atEdge ∧ (atEdge.phase = .rle8 ∨ atEdge.phase = .rle4) ∧
      field (fun t => t.srcPos) (engineStep atEdge) = some 2 :=
  ⟨test_inv_atEdge, .inl rfl, by decide +kernel⟩

theorem test_witness_bmpRawDecodesEveryPixel :
    (let s := machine 24 1 2 [1, 2, 3, 0, 7, 8, 9, 0]
     ready .bmpDecodeRaw 0 s ∧ 4 = bmpStride (width s) (depth s) ∧ sourceHolds s (4 * height s) ∧
       ∀ r x, r < height s → x < width s →
         ∃ p, gives (bmpPixel (chunk (srcBytes s (4 * height s)) 4 r) x) s p) ∧
    (let s := machine 24 1 2 [1, 2, 3, 0, 7, 8, 9]
     ready .bmpDecodeRaw 0 s ∧ 4 = bmpStride (width s) (depth s) ∧ ¬ sourceHolds s (4 * height s)) := by
  refine ⟨⟨by unfold ready; decide +kernel, by decide +kernel, by unfold sourceHolds; decide +kernel, ?_⟩,
    by unfold ready; decide +kernel, by decide +kernel, by unfold sourceHolds; decide +kernel⟩
  intro r x _ _
  exact ⟨_, rfl⟩

theorem test_witness_bmpPixelFormats :
    (depth atEdge ≤ 8 ∧ cellGet? atEdge.pal
      (bmpEntry atEdge (packedIndex (([9] : List Byte).getD (0 * depth atEdge / 8) 0) (depth atEdge) 0)) = some 0xFF000000) ∧
    depth (machine 16 1 1 []) = 16 ∧ depth (machine 24 1 1 []) = 24 ∧ depth (machine 32 1 1 []) = 32 := by decide +kernel

theorem test_witness_maskChannelIsAByte :
    ((0x7E0 : Word) ≠ 0 ∧ (0xFFFF : Word) &&& 0x7E0 = 0x7E0 ∧ (0x1F : Word) &&& 0x7E0 = 0) ∧
      (0x80000000 : Word) ≠ 0 ∧ (1 : Word) ≠ 0 := by decide

theorem test_witness_palLoadWritesItsEntries :
    (let s := { machine 0 0 0 [1, 2, 3, 4, 5, 6] with palCount := 2 }
     ready .palLoad 6 s ∧ 6 = palEntries s * entrySize 6 ∧ sourceHolds s 6) ∧
    (let s := { machine 0 0 0 [1, 2, 3, 4, 5] with palCount := 2 }
     ready .palLoad 6 s ∧ 6 = palEntries s * entrySize 6 ∧ ¬ sourceHolds s 6) := by
  unfold ready sourceHolds
  decide +kernel

theorem test_witness_egaLoadWritesSixteenEntries :
    (let s := machine 0 0 0 (List.replicate 48 1)
     ready .pcxEgaLoad 0 s ∧ sourceHolds s 48) ∧
    (let s := machine 0 0 0 (List.replicate 47 1)
     ready .pcxEgaLoad 0 s ∧ ¬ sourceHolds s 48) := by
  unfold ready sourceHolds
  decide +kernel

theorem test_witness_paletteLookups :
    cellGet? atEdge.pal (if 5 < palEntries atEdge then 5 else 0) = some 0xFF000000 ∧
    (0 = (if 0 < palEntries State.reset then 0 else 0) ∧ cellGet? State.reset.pal 0 = none) ∧
    cellGet? atEdge.pal (if 4 < palEntries atEdge then 4 else 0) = some 0xFF000004 ∧
    palEntries State.reset = 0 ∧ palEntries atEdge ≠ 0 ∧
    (let s := { atEdge with csr := { atEdge.csr with palOrigin := 10 } }
     9 < palOrigin s ∧ palOrigin s + palEntries s ≤ 15 ∧ 14 = palOrigin s + 4 ∧ 4 < palEntries s ∧
       cellGet? s.pal 4 = some 0xFF000004) ∧
    (let s := { atEdge with pal := [], csr := { atEdge.csr with palOrigin := 10 } }
     palEntries s ≠ 0 ∧ 4 = (if 4 < palEntries s then 4 else 0) ∧ 14 = palOrigin s + 4 ∧ 4 < palEntries s ∧
       cellGet? s.pal 4 = none) := by decide +kernel

theorem test_witness_tgaRawDecodesEveryPixel :
    let s := machine 24 2 1 [1, 2, 3, 4, 5, 6]
    ready .tgaDecodeRaw 0 s ∧ 2 = pixelTotal s ∧ sourceHolds s (2 * sampleSize s) ∧
      ∀ k, k < 2 → ∃ p, gives (tgaSample (tgaSampleBytes s k)) s p := by
  refine ⟨by unfold ready; decide +kernel, by decide +kernel, by unfold sourceHolds; decide +kernel, ?_⟩
  intro k _
  exact ⟨_, rfl⟩

theorem test_witness_tgaRawShortPayload :
    let s := machine 24 2 1 [1, 2, 3, 4, 5]
    ready .tgaDecodeRaw 0 s ∧ 1 < pixelTotal s ∧ sourceHolds s (1 * sampleSize s) ∧
      ¬ sourceHolds s ((1 + 1) * sampleSize s) ∧ ∀ k, k < 1 → ∃ p, gives (tgaSample (tgaSampleBytes s k)) s p := by
  refine ⟨by unfold ready; decide +kernel, by decide +kernel, by unfold sourceHolds; decide +kernel,
    by unfold sourceHolds; decide +kernel, ?_⟩
  intro k _
  exact ⟨_, rfl⟩

theorem test_witness_packetAndScanlineLoopsStart :
    ready .tgaDecodeRle 0 (machine 24 2 1 [0x81]) ∧ ready .pcxDecode 0 (pcx8 1 2 1 [7]) := by
  unfold ready
  decide +kernel

theorem test_witness_tgaRunRepeatsOnePixel :
    (let s := tga24 2 1 [1, 2, 3]
     ready .tgaDecodeRle 0 s ∧ 2 = (1 : BitVec 7).toNat + 1 ∧ s.pixK + 2 ≤ pixelTotal s ∧ sourceHolds s (sampleSize s) ∧
       gives (tgaSample (tgaSampleBytes s 0)) s 0xFF030201) ∧
    (let s := { tga24 2 1 [1, 2, 3] with pixK := 1 }
     ready .tgaDecodeRle 0 s ∧ pixelTotal s < s.pixK + 2) ∧
    (let s := tga24 2 1 [1, 2]
     ready .tgaDecodeRle 0 s ∧ ¬ sourceHolds s (sampleSize s)) := by
  refine ⟨⟨by unfold ready; decide +kernel, rfl, by decide +kernel, by unfold sourceHolds; decide +kernel, ?_⟩,
    ⟨by unfold ready; decide +kernel, by decide +kernel⟩, by unfold ready; decide +kernel,
    by unfold sourceHolds; decide +kernel⟩
  rfl

theorem test_witness_tgaRawPacketPlacesItsSamples :
    (let s := tga24 2 1 [1, 2, 3, 4, 5, 6]
     ready .tgaDecodeRle 0 s ∧ 2 = (1 : BitVec 7).toNat + 1 ∧ s.pixK + 2 ≤ pixelTotal s ∧
       sourceHolds s (2 * sampleSize s) ∧ ∀ j, j < 2 → ∃ p, gives (tgaSample (tgaSampleBytes s j)) s p) ∧
    (let s := { tga24 2 1 [] with pixK := 1 }
     ready .tgaDecodeRle 0 s ∧ pixelTotal s < s.pixK + 2) ∧
    (let s := tga24 2 1 [1, 2, 3, 4, 5]
     ready .tgaDecodeRle 0 s ∧ s.pixK + 2 ≤ pixelTotal s ∧ 1 < 2 ∧ sourceHolds s (1 * sampleSize s) ∧
       ¬ sourceHolds s ((1 + 1) * sampleSize s) ∧ ∀ j, j < 1 → ∃ p, gives (tgaSample (tgaSampleBytes s j)) s p) := by
  refine ⟨⟨by unfold ready; decide +kernel, rfl, by decide +kernel, by unfold sourceHolds; decide +kernel, ?_⟩,
    ⟨by unfold ready; decide +kernel, by decide +kernel⟩, by unfold ready; decide +kernel, by decide +kernel, by decide,
    by unfold sourceHolds; decide +kernel, by unfold sourceHolds; decide +kernel, ?_⟩ <;>
  · intro j _
    exact ⟨_, rfl⟩

theorem test_witness_tgaSampleFormats :
    (kind (machine 15 1 1 []) = 0 ∧ depth (machine 15 1 1 []) = 15) ∧
    (kind (machine 16 1 1 []) = 0 ∧ depth (machine 16 1 1 []) = 16) ∧
    (kind (machine 24 1 1 []) = 0 ∧ depth (machine 24 1 1 []) = 24) ∧
    (kind (machine 32 1 1 []) = 0 ∧ depth (machine 32 1 1 []) = 32) ∧
    (kind (machine 0x88 1 1 []) = 2 ∧ depth (machine 0x88 1 1 []) = 8) ∧
    (kind (machine 0x90 1 1 []) = 2 ∧ depth (machine 0x90 1 1 []) = 16) ∧
    (kind (machine 0x48 1 1 []) = 1 ∧ depth (machine 0x48 1 1 []) = 8) ∧
    (kind (machine 0x50 1 1 []) = 1 ∧ depth (machine 0x50 1 1 []) = 16) := by decide +kernel

/-- The interleave modes, with a pixel in every group of rows. -/
theorem test_witness_tgaPlacesAreDistinct :
    (let s := machine 0x088 2 3 []
     interleave s = 0 ∧ rtl s = false ∧ topdown s = false ∧ 5 < pixelTotal s ∧ 0 < pixelTotal s) ∧
    (let s := machine 0x788 2 3 []
     interleave s = 1 ∧ rtl s = true ∧ topdown s = true ∧ 3 < pixelTotal s ∧ 3 / width s < ceilDiv (height s) 2 ∧
       4 < pixelTotal s ∧ ¬ 4 / width s < ceilDiv (height s) 2) ∧
    (let s := machine 0xA88 1 6 []
     interleave s = 2 ∧ rtl s = true ∧ topdown s = false ∧ 5 < pixelTotal s ∧
       1 / width s < (6 - 0 + 3) / 4 ∧ 3 / width s < (6 - 0 + 3) / 4 + (6 - 1 + 3) / 4 ∧
       4 / width s < (6 - 0 + 3) / 4 + (6 - 1 + 3) / 4 + (6 - 2 + 3) / 4 ∧
       (6 - 0 + 3) / 4 + (6 - 1 + 3) / 4 + (6 - 2 + 3) / 4 ≤ 5 / width s) := by decide +kernel

theorem test_witness_pcxTokensExtendTheLine :
    (sourceFits (pcx8 1 2 1 [7]) ∧ sourceHolds (pcx8 1 2 1 [7]) 1) ∧
      (sourceFits (pcx8 1 2 1 []) ∧ ¬ sourceHolds (pcx8 1 2 1 []) 1) := by
  unfold sourceFits sourceHolds
  decide +kernel

/-- A three-plane scanline of one column, all its bytes produced. -/
def fullLine (row : Nat) (h : Word) : State := { pcx24 1 1 h [9] with row := row, line := [1, 2, 3] }

theorem test_witness_pcxScanlineIsAssembled :
    (let s := fullLine 0 2
     s.phase = .pcx ∧ ready .pcxDecode 0 s ∧ s.row < height s ∧ pcxEncoding s = 1 ∧ scanlineOver s = true ∧
       s.line.length ≤ pcxStride s ∧ s.row + 1 < height s ∧
       ∀ x, x < width s → ∃ p, gives (pcxPixel x) (withLine s s.line) p) ∧
    (let s := fullLine 1 2
     s.phase = .pcx ∧ ready .pcxDecode 0 s ∧ s.row < height s ∧ pcxEncoding s = 1 ∧ scanlineOver s = true ∧
       s.line.length ≤ pcxStride s ∧ ¬ s.row + 1 < height s ∧ pcxMode (depth s) (pcxPlanes s) ≠ .indexed8 ∧
       ∀ x, x < width s → ∃ p, gives (pcxPixel x) (withLine s s.line) p) := by
  refine ⟨⟨rfl, by unfold ready; decide +kernel, by decide +kernel, by decide +kernel, by decide +kernel,
    by decide +kernel, by decide +kernel, ?_⟩, rfl, by unfold ready; decide +kernel, by decide +kernel,
    by decide +kernel, by decide +kernel, by decide +kernel, by decide +kernel, by decide +kernel, ?_⟩ <;>
  · intro x _
    exact ⟨_, rfl⟩

theorem test_witness_pcxRawScanlineIsAssembled :
    (let s := pcx24 0 1 1 [1, 2]
     s.phase = .pcx ∧ ready .pcxDecode 0 s ∧ s.row < height s ∧ pcxEncoding s = 0 ∧
       2 = min (pcxStride s) (srcLen s - srcOff s) ∧ ¬ s.row + 1 < height s ∧
       pcxMode (depth s) (pcxPlanes s) ≠ .indexed8 ∧
       ∀ x, x < width s → ∃ p, gives (pcxPixel x) (withLine s (srcBytes s 2)) p) ∧
    (let s := pcx8 0 1 2 [1, 2]
     s.phase = .pcx ∧ ready .pcxDecode 0 s ∧ s.row < height s ∧ pcxEncoding s = 0 ∧
       1 = min (pcxStride s) (srcLen s - srcOff s) ∧ s.row + 1 < height s ∧
       ∀ x, x < width s → ∃ p, gives (pcxPixel x) (withLine s (srcBytes s 1)) p) := by
  refine ⟨⟨rfl, by unfold ready; decide +kernel, by decide +kernel, by decide +kernel, by decide +kernel,
    by decide +kernel, by decide +kernel, ?_⟩, rfl, by unfold ready; decide +kernel, by decide +kernel, by decide +kernel,
    by decide +kernel, by decide +kernel, ?_⟩ <;>
  · intro x _
    exact ⟨_, rfl⟩

/-- A PCX machine with the given depth, planes and PAL_INFO. -/
def pcxMachine (d np info : Word) : State :=
  { State.reset with csr := { HostRegs.reset with fmt := d, pcxCfg := 0x1000001 + np * 0x10000, pcxAux := info } }

theorem test_witness_pcxPixelModes :
    (let s := pcxMachine 1 1 2
     depth s = 1 ∧ pcxPlanes s = 1 ∧ palInfo s = 2) ∧
    (let s := pcxMachine 1 4 2
     depth s = 1 ∧ ¬ (pcxPlanes s = 1 ∧ palInfo s = 2)) ∧
    depth (pcxMachine 2 1 0) = 2 ∧ depth (pcxMachine 4 1 0) = 4 ∧
    (depth (pcxMachine 8 1 0) = 8 ∧ pcxPlanes (pcxMachine 8 1 0) = 1) ∧
    (depth (pcxMachine 8 3 0) = 8 ∧ pcxPlanes (pcxMachine 8 3 0) = 3) ∧
    depth (pcxMachine 8 4 0) = 8 ∧ pcxPlanes (pcxMachine 8 4 0) = 4 := by decide +kernel

/-- Ready with a trailer at SRC_POS, with one at the end of the source only, and with none. -/
theorem test_witness_vgaPassResolvesIndices :
    (let s := { pcx8 1 1 1 [] with
       mem := [(1, 0x0C)]
       csr := { (pcx8 1 1 1 []).csr with srcLen := 770 }
       srcPos := 1 }
     ready .pcxDecode 0 s ∧ vgaTrailer s = some 1) ∧
    (let s := { pcx8 1 1 1 [] with
       mem := [(3, 0x0C)]
       csr := { (pcx8 1 1 1 []).csr with srcLen := 772 }
       srcPos := 2 }
     ready .pcxDecode 0 s ∧ vgaTrailer s = some 3) ∧
    (ready .pcxDecode 0 (pcx8 1 1 1 [0x0C]) ∧ vgaTrailer (pcx8 1 1 1 [0x0C]) = none) := by
  unfold ready
  decide +kernel

/-- The last scanline of an 8-bit image of two rows, in each encoding. -/
theorem test_witness_vgaPassResolvesIndices_step :
    (let s := { pcx8 1 2 2 [] with row := 1, line := [7] }
     ready .pcxDecode 0 s ∧ s.phase = .pcx ∧ s.row + 1 = height s ∧ pcxMode (depth s) (pcxPlanes s) = .indexed8 ∧
       pcxEncoding s = 1 ∧ scanlineOver s = true ∧ s.line.length ≤ pcxStride s) ∧
    (let s := { pcx8 0 2 2 [1, 2, 3] with row := 1, srcPos := 2 }
     ready .pcxDecode 0 s ∧ s.phase = .pcx ∧ s.row + 1 = height s ∧ pcxMode (depth s) (pcxPlanes s) = .indexed8 ∧
       pcxEncoding s = 0 ∧ 1 = min (pcxStride s) (srcLen s - srcOff s)) := by
  unfold ready
  decide +kernel

/-- The example of R240: PAL_INFO 2 and no trailer, so every pixel of index 5 becomes its gray, and the command has ended. -/
theorem test_pcxLastScanline : field (fun t => (row0 4 t, t.status, t.srcPos, t.phase))
    (engineStep
      (let s := { pcx8 1 4 1 [0xC4, 5] with srcPos := 2, line := [5, 5, 5, 5] }
       { s with csr := { s.csr with pcxAux := 2 } })) =
    some ([0xFF050505, 0xFF050505, 0xFF050505, 0xFF050505], 0x002, 2, .idle) := by decide +kernel

/-- Both encoders, with OUT_CAP exactly the length of the output. -/
theorem test_witness_encodersWriteTheirOutput :
    (let s := encoder 0x108 2 1 [0xFF010101, 0xFF020202]
     let t := { s with csr := { s.csr with outCap := 8 } }
     ready .bmpEncode 0 t ∧ (bmpOutput t).length = 8 ∧ outCap t = 8) ∧
    (let s := encoder 0x118 2 1 [0xFF030201, 0xFF060504]
     let t := { s with csr := { s.csr with outCap := 7 } }
     ready .tgaEncode 0 t ∧ (tgaOutput t).length = 7 ∧ outCap t = 7) := by
  unfold ready
  decide +kernel

/-- Both encoders, with OUT_CAP one less. -/
theorem test_witness_encoderOverflowEndsWithGeneric :
    (let s := encoder 8 3 1 [0xFFFF0000, 0xFF00FF00, 0xFF0000FF]
     let t := { s with csr := { s.csr with outCap := 3 } }
     ready .bmpEncode 0 t ∧ outCap t < (bmpOutput t).length) ∧
    (let s := encoder 0x118 2 1 [0xFF030201, 0xFF060504]
     let t := { s with csr := { s.csr with outCap := 6 } }
     ready .tgaEncode 0 t ∧ outCap t < (tgaOutput t).length) := by
  unfold ready
  decide +kernel

theorem test_witness_tgaRowRoundTrip :
    0 < 3 ∧ ∀ b ∈ ([[1, 2, 3], [1, 2, 3], [4, 5, 6]] : List (List Byte)), b.length = 3 := by decide

theorem test_witness_packedSamplesReadBack : depth (machine 24 1 1 []) = 24 ∧ depth (machine 32 1 1 []) = 32 := by
  decide +kernel

theorem test_witness_failedGateEndsTheCommand :
    (Instr.bmpEncode.stream = .command ∧ regionsRefusal (opOf .bmpEncode) (encoder 16 1 1 []) = none ∧
      check (opOf .bmpEncode) (argOf .bmpEncode) (encoder 16 1 1 []) = some .unsupportedFile) ∧
    regionsRefusal (opOf (.palLoad 7)) State.reset = none ∧
      check (opOf (.palLoad 7)) (argOf (.palLoad 7)) State.reset = some .generic := by decide +kernel

theorem test_witness_reservedOpcodeEndsWithGeneric :
    let s := { State.reset with phase := .start }
    s.turns = [] ∧ s.phase = .start ∧
      [0x01, 0x02, 0x10, 0x11, 0x12, 0x18, 0x20, 0x21, 0x28, 0x30].contains (byteOf s.csr.cmd 0) = false := by
  decide +kernel

/-- Each command with its gates passed, and just outside one of its conditions. -/
theorem test_witness_gatesPassExactlyWhenLegal_loaders :
    check .palLoad 6 { machine 0 0 0 [] with palCount := 0x10000 } = none ∧
      check .palLoad 6 { machine 0 0 0 [] with palCount := 0x10001 } = some .generic ∧
      check .pcxEgaLoad 0 { machine 0 0 0 [1] with srcPos := 1 } = none ∧
      check .pcxEgaLoad 0 { machine 0 0 0 [1] with srcPos := 2 } = some .generic := by decide +kernel

@[inherit_doc test_witness_gatesPassExactlyWhenLegal_loaders] theorem test_witness_gatesPassExactlyWhenLegal_bmp :
    check .bmpDecodeRaw 0 (machine 0x10010 1 1 []) = none ∧
      check .bmpDecodeRaw 0 (machine 0x10018 1 1 []) = some .fileCorrupted ∧
      check .bmpDecodeRle8 0 (withPalette 256 (machine 8 1 1 [])) = none ∧
      check .bmpDecodeRle8 0 (withPalette 257 (machine 8 1 1 [])) = some .fileCorrupted ∧
      check .bmpDecodeRle4 0 (withPalette 16 (machine 4 1 1 [])) = none ∧
      check .bmpDecodeRle4 0 (withPalette 17 (machine 4 1 1 [])) = some .fileCorrupted := by decide +kernel

@[inherit_doc test_witness_gatesPassExactlyWhenLegal_loaders] theorem test_witness_gatesPassExactlyWhenLegal_tgaPcx :
    check .tgaDecodeRaw 0 (machine 0x1E0050 1 1 []) = none ∧
      check .tgaDecodeRle 0 (machine 0x0E0050 1 1 []) = some .unsupportedFile ∧
      check .tgaDecodeRle 0 (machine 0x080F 1 1 []) = none ∧
      check .tgaDecodeRaw 0 (machine 0x0C0F 1 1 []) = some .unsupportedFile ∧
      check .pcxDecode 0 (pcx24 1 1 1 []) = none ∧
      check .pcxDecode 0 (pcx24 2 1 1 []) = some .unsupportedFile := by decide +kernel

@[inherit_doc test_witness_gatesPassExactlyWhenLegal_loaders] theorem test_witness_gatesPassExactlyWhenLegal_encoders :
    check .bmpEncode 0 (encoder 0x108 1 1 []) = none ∧ check .bmpEncode 0 (encoder 0x118 1 1 []) = some .unsupportedFile ∧
      check .tgaEncode 0 (encoder 0x118 1 1 []) = none ∧ check .tgaEncode 0 (encoder 8 1 1 []) = some .unsupportedFile ∧
      check .tgaEncode 0 (encoder 24 0 1 []) = some .generic := by decide +kernel

/-- Pairs of gates that fail together: gate 5 before gate 8, gate a before gate d of R151, gate b before gate e. -/
theorem test_witness_firstFailingGateDecides :
    (true = !([Op.bmpEncode, .tgaEncode].contains .bmpDecodeRle8) ∧ true = !([Op.palLoad, .pcxEgaLoad].contains .bmpDecodeRle8) ∧
      false = [Op.bmpEncode, .tgaEncode].contains .bmpDecodeRle8) ∧
    (let s := machine 2 1 1 []
     check .bmpDecodeRle8 0 { s with csr := { s.csr with pixCap := 3 } } = some .generic) ∧
    check .bmpDecodeRle8 0 (machine 2 0 1 []) = some .unsupportedFile ∧
    check .bmpDecodeRle8 0 (machine 24 1 1 []) = some .fileCorrupted := by decide +kernel

theorem test_witness_registersReadBackTheirFields :
    regAt (0x04 : BitVec 8).toNat = some .cmd ∧ plainRegister .cmd = true ∧ regAt (0x64 : BitVec 8).toNat = some .encCfg ∧
      plainRegister .encCfg = true ∧ busy State.reset = false ∧ regAt (0x00 : BitVec 8).toNat = some .ctrl ∧
      regAt (0x74 : BitVec 8).toNat = some .resultDepth ∧ Reg.resultDepth ≠ .palData := by decide +kernel

theorem test_witness_ignoredRegisterWrites :
    ((0x08 : BitVec 8).toNat % 4 = 0 ∧ regAt (0x08 : BitVec 8).toNat = some .status ∧ readOnlyRegister .status = true) ∧
      ((0x78 : BitVec 8).toNat % 4 = 0 ∧ regAt (0x78 : BitVec 8).toNat = none) ∧ busy atEdge = true := by decide +kernel

theorem test_witness_unalignedAccessIsRefused :
    (Width.half ≠ .word ∨ (0x04 : BitVec 8).toNat % 4 ≠ 0) ∧ (Width.word ≠ .word ∨ (0x05 : BitVec 8).toNat % 4 ≠ 0) := by
  decide

theorem test_witness_palDataIsAWindow :
    let s := { withPalette 5 State.reset with csr := { HostRegs.reset with palIndex := 4 } }
    busy s = false ∧ cellGet? s.pal (palIndex s) = some 0xFF000004 ∧ busy atEdge = true := by decide +kernel

theorem test_witness_unspecifiedReadsAreDraws :
    (regAt (0x68 : BitVec 8).toNat = some .curX ∧ busy atEdge = true ∧
      [Reg.srcPos, .outLen, .curX, .curY, .pixDone].contains .curX = true) ∧
    (regAt (0x74 : BitVec 8).toNat = some .resultDepth ∧
      [Reg.srcPos, .outLen, .curX, .curY, .pixDone].contains .resultDepth = false) ∧
    (regAt (0x54 : BitVec 8).toNat = some .palData ∧ busy State.reset = false ∧
      cellGet? State.reset.pal (palIndex State.reset) = none) := by decide +kernel

theorem test_witness_startBitStartsTheEngine :
    busy State.reset = false ∧ (1 : Word).getLsbD 0 = true ∧ (0xFFFFFFFE : Word).getLsbD 0 = false ∧ busy atEdge = true := by
  decide +kernel

/-- The last byte of a region of a running command, the first byte after it, an idle machine with the reserved CMD 0, and a
started one. -/
theorem test_witness_hostStaysOutOfBusyRegions :
    (decodeCommand atEdge.csr.cmd = .ok .bmpDecodeRle8 ∧ busy atEdge = true ∧
      (regionsOf (opOf .bmpDecodeRle8) atEdge).any (inRegion (0x1000F : Word).toNat) = true ∧
      (regionsOf (opOf .bmpDecodeRle8) atEdge).any (inRegion (0x10010 : Word).toNat) = false) ∧
    (decodeCommand State.reset.csr.cmd = .error (.reservedOp 0) ∧ busy State.reset = false) ∧
    (decodeCommand State.reset.startCommand.csr.cmd = .error (.reservedOp 0) ∧ busy State.reset.startCommand = true) := by
  decide +kernel

/-- A started BMP_DECODE_RAW whose SRC and PIX regions share address 0x10003. -/
def overlapping : State :=
  { machine 24 1 1 [] with
    phase := .start
    status := statusBusy
    csr := { (machine 24 1 1 []).csr with cmd := 0x10, srcLen := 0x10004, pixBase := 0x10003 } }

/-- Overlapping regions are refused before a gate, here WIDTH 0, is looked at (R86). -/
theorem test_overlapBeforeGates :
    engineStep { overlapping with csr := { overlapping.csr with width := 0 } } = .refused .overlappingRegions := by rfl

theorem test_witness_resetOfAnIdleMachine :
    let s := { State.reset with turns := [.reset] }
    s.turns = .reset :: [] ∧ busy s = false := by decide +kernel

/-- A reset that cuts off a step with four writes, one that needs an unwritten entry, and one that is refused. -/
theorem test_witness_resetOfARunningCommand :
    (let s := { atEdge with turns := [.reset] }
     s.turns = .reset :: [] ∧ busy s = true ∧
       field (fun u => (writesOf u.history).length) (engineStep { s with turns := [] }) = some 4) ∧
    (let s := { atEdge with turns := [.reset], pal := [] }
     s.turns = .reset :: [] ∧ busy s = true ∧ field (fun t => (t.phase, t.csr.fill)) (step s) = some (.idle, 0xFF000000)) ∧
    (let s := { overlapping with turns := [.reset] }
     s.turns = .reset :: [] ∧ busy s = true ∧ field (fun t => (t.phase, t.status)) (step s) = some (.idle, 0)) :=
  ⟨by decide +kernel, ⟨rfl, rfl, rfl⟩, rfl, rfl, rfl⟩

theorem test_witness_everyStepKeepsTheInvariant :
    Inv atEdge ∧ field (fun t => t.x) (step atEdge) = some 2 := ⟨test_inv_atEdge, by decide +kernel⟩

theorem test_witness_engineKeepsTheHostRegisters :
    Inv atEdge ∧ field (fun t => t.csr) (engineStep atEdge) = some atEdge.csr := ⟨test_inv_atEdge, by decide +kernel⟩

theorem test_witness_engineWritesOnlyItsRegions :
    Inv atEdge ∧ decodeCommand atEdge.csr.cmd = .ok .bmpDecodeRle8 ∧
      field (fun t => t.mem.read 0x1000C) (engineStep atEdge) = some 1 ∧ atEdge.mem.read 0x1000C ≠ 1 :=
  ⟨test_inv_atEdge, by decide +kernel, by decide +kernel, by decide +kernel⟩

/-- The state of `atEdge` with no palette entry written meets the invariant, and its token faults. -/
theorem test_witness_engineStopsOnlyWhereTheSpecSays :
    Inv { atEdge with pal := [] } ∧
      stopsUnwritten { atEdge with pal := [] } 1 (engineStep { atEdge with pal := [] }) := by
  refine ⟨{ test_inv_atEdge with palette := by decide, running := ?_ }, ?_⟩
  · intro op h
    obtain ⟨a, b, c, d, e, f, g⟩ := test_inv_atEdge.running op h
    exact ⟨a, b, c, d, e, f, g⟩
  · exact ⟨[⟨.read, 1, 1⟩, ⟨.read, 0, 1⟩], rfl⟩

/-- A started command whose regions share one address, with its gates passed and with WIDTH 0; one whose PIX region shares
one with a device; a second host. -/
theorem test_witness_engineStopsOnlyWhereTheSpecSays_refusals :
    (overlapping.phase = .start ∧ decodeCommand overlapping.csr.cmd = .ok .bmpDecodeRaw ∧
      check (opOf .bmpDecodeRaw) (argOf .bmpDecodeRaw) overlapping = none ∧
      (let s := { overlapping with csr := { overlapping.csr with width := 0 } }
       check (opOf .bmpDecodeRaw) (argOf .bmpDecodeRaw) s = some .fileCorrupted ∧
         regionsRefusal (opOf .bmpDecodeRaw) s = some .overlappingRegions) ∧
      inRegion 0x10003 (0, 0x10004) = true ∧ inRegion 0x10003 (0x10003, 4) = true ∧
      regionsOf .bmpDecodeRaw overlapping = [(0, 0x10004), (0x10003, 4)]) ∧
    (let s := { machine 24 1 1 [] with
       phase := .start
       csr := { (machine 24 1 1 []).csr with cmd := 0x10 }
       devices := [(0x10003, 1)] }
     decodeCommand s.csr.cmd = .ok .bmpDecodeRaw ∧ check (opOf .bmpDecodeRaw) (argOf .bmpDecodeRaw) s = none ∧
       regionsOf .bmpDecodeRaw s = [(0, 0), (0x10000, 4)] ∧ inRegion 0x10003 (0x10000, 4) = true ∧
       inRegion 0x10003 (0x10003, 1) = true) ∧
    { State.reset with turns := [.secondHost] }.turns = .secondHost :: [] := by decide +kernel

end Sys2Proof.Tests
end

section
/-!
PROOFS. One engine step from a state that meets the invariant: every way it can end, said once. The invariant, the frame of
the host's registers and the stops of the engine (10_state.md R22, R57; 20_memory.md R71, R85, R86) are read off it.
-/

namespace Sys2Proof.Machine

/-! ### Every way an engine step can end -/

/-- The ends of an engine step from `s`, by what the engine was doing: nothing; the start of a reserved or of a real command,
which is refused, stopped at a gate or run; or a step of a running command's loop. -/
inductive EngineEnd (s : State) : Host.Outcome State Fault Refusal → Prop where
  | idle (h : s.phase = .idle) : EngineEnd s (.next s)
  | reserved (h : s.phase = .start) : EngineEnd s (.next (s.goIdle .generic))
  | refused (i : Instr) (r : Refusal) (h : s.phase = .start) (hd : decodeCommand s.csr.cmd = .ok i)
      (hr : regionsRefusal (opOf i) s = some r) : EngineEnd s (.refused r)
  | gate (i : Instr) (c : Code) (h : s.phase = .start) :
      EngineEnd s (.next (endCommand (opOf i) false c { s with outN := 0 }))
  | command (i : Instr) (o : Host.Outcome State Fault Refusal) (h : s.phase = .start)
      (hd : decodeCommand s.csr.cmd = .ok i) (hr : ready (opOf i) (argOf i) s)
      (he : StepEnd (decide (i ≠ .pcxEgaLoad)) (writeRegion (opOf i) s) (opOf i)
        (fun u => bodyOf i { s with outN := 0 } = .ok () u) (afterOf i) s o) : EngineEnd s o
  | loop (op : Op) (o : Host.Outcome State Fault Refusal) (hp : phaseOp s.phase = some op) (he : LoopEnd op s o) :
      EngineEnd s o

theorem engineStep_idle {s : State} (h : s.phase = .idle) : engineStep s = .next s := by
  simp only [engineStep, engineAction, h]

theorem engineStep_start {s : State} {i : Instr} (h : s.phase = .start) (hd : decodeCommand s.csr.cmd = .ok i) :
    engineStep s = exec i s := by
  simp only [engineStep, engineAction, h, hd]

theorem engineStep_reserved {s : State} {e : Reject} (h : s.phase = .start) (hd : decodeCommand s.csr.cmd = .error e) :
    engineStep s = .next (s.goIdle .generic) := by
  simp only [engineStep, engineAction, h, hd]

/-- A phase is idle, the start of a command, or the loop of one. -/
theorem phase_cases (ph : Phase) : ph = .idle ∨ ph = .start ∨ ∃ op, phaseOp ph = some op := by
  cases ph <;> simp [phaseOp]

theorem engineStep_end {s : State} (hi : Inv s) : EngineEnd s (engineStep s) := by
  rcases phase_cases s.phase with h | h | ⟨op, hp⟩
  · rw [engineStep_idle h]
    exact .idle h
  · cases hd : decodeCommand s.csr.cmd with
    | error e =>
      rw [engineStep_reserved h hd]
      exact .reserved h
    | ok i =>
      rw [engineStep_start h hd]
      rcases exec_command_cases (decodeCommand_stream hd) s with ⟨r, hr, e⟩ | ⟨-, c, -, e⟩ | ⟨hr, he⟩
      · rw [e]
        exact .refused i r h hd hr
      · rw [e]
        exact .gate i c h
      · exact .command i _ h hd hr he
  · have hrun := hi.running op hp
    exact .loop op _ hp (engineStep_loop hp hrun.ready hrun.rows)

/-- What follows the body of a command: its end, or the phase of its loop. -/
theorem afterOf_cases (i : Instr) : afterOf i = endCommand (opOf i) true .success ∨
    ∃ ph, phaseOp ph = some (opOf i) ∧ afterOf i = fun t => { t with phase := ph } := by
  cases i with
  | bmpDecodeRle8 => exact .inr ⟨.rle8, rfl, rfl⟩
  | bmpDecodeRle4 => exact .inr ⟨.rle4, rfl, rfl⟩
  | tgaDecodeRle => exact .inr ⟨.tga, rfl, rfl⟩
  | pcxDecode => exact .inr ⟨.pcx, rfl, rfl⟩
  | _ => exact .inl rfl

/-! ### The engine and the host's registers (R22, R142) -/

/-- `t` has the registers that only the host writes, the script, the host's last read, the draws and the devices of `s`. -/
def sameHostSide (s t : State) : Prop :=
  t.csr = s.csr ∧ t.turns = s.turns ∧ t.hostData = s.hostData ∧ t.draws = s.draws ∧ t.devices = s.devices

theorem Kept.sameHostSide {kc : Bool} {R : Nat × Nat} {s t : State} (h : Kept kc R s t) : Machine.sameHostSide s t :=
  ⟨h.csr, h.turns, h.hostData, h.draws, h.devices⟩

/-- The end of a command writes STATUS and result registers only (R145). -/
theorem sameHostSide.endCommand {s u : State} (h : sameHostSide s u) (op : Op) (started : Bool) (c : Code) :
    sameHostSide s (Machine.endCommand op started c u) := by
  cases op <;> cases started <;> exact h

theorem sameHostSide.afterOf {s u : State} (h : sameHostSide s u) (i : Instr) : sameHostSide s (Machine.afterOf i u) := by
  rcases afterOf_cases i with e | ⟨ph, -, e⟩
  · rw [e]
    exact h.endCommand _ _ _
  · rw [e]
    exact h

/-- Settles O58: every end of an engine step keeps the host's side. -/
theorem engineKeepsTheHostRegisters : Obligations.EngineKeepsTheHostRegisters := by
  intro s t hi ht
  have he := engineStep_end hi
  rw [ht] at he
  have same : sameHostSide s s := ⟨rfl, rfl, rfl, rfl, rfl⟩
  show sameHostSide s t
  cases he with
  | idle => exact same
  | reserved => exact same
  | gate i c => exact sameHostSide.endCommand (Kept.outN0 true (0, 0) s).sameHostSide _ _ _
  | command i _ _ _ _ he =>
    cases he with
    | done u h => exact h.sameHostSide.afterOf i
    | failed u c h => exact h.sameHostSide.endCommand _ _ _
  | loop op _ _ he =>
    cases he with
    | goes kc u h => exact h.sameHostSide
    | ends kc u c h => exact h.sameHostSide.endCommand _ _ _

/-! ### The stops of the engine (R57, R70, R71, R85, R86, R354) -/

/-- Two regions overlap exactly when an address lies in both. -/
theorem overlap_iff (q r : Nat × Nat) : overlap q r = true ↔ ∃ a, inRegion a q = true ∧ inRegion a r = true := by
  simp only [overlap, inRegion, Bool.and_eq_true, decide_eq_true_eq]
  constructor
  · intro h
    exact ⟨max q.1 r.1, by omega⟩
  · rintro ⟨a, h⟩
    omega

/-- Some two of the regions overlap exactly when two places of the list hold regions that do. -/
theorem anyOverlap_iff (l : List (Nat × Nat)) :
    anyOverlap l = true ↔ ∃ (m n : Nat) (q r : Nat × Nat), m < n ∧ l[m]? = some q ∧ l[n]? = some r ∧ overlap q r = true := by
  induction l with
  | nil => simp [anyOverlap]
  | cons x rest ih =>
    rw [anyOverlap, Bool.or_eq_true, ih, List.any_eq_true]
    constructor
    · rintro (⟨r, hr, ho⟩ | ⟨m, n, q, r, hmn, hq, hr, ho⟩)
      · obtain ⟨n, hn⟩ := List.mem_iff_getElem?.mp hr
        exact ⟨0, n + 1, x, r, by omega, rfl, hn, ho⟩
      · exact ⟨m + 1, n + 1, q, r, by omega, hq, hr, ho⟩
    · rintro ⟨m, n, q, r, hmn, hq, hr, ho⟩
      obtain ⟨n, rfl⟩ := Nat.exists_eq_succ_of_ne_zero (Nat.ne_zero_of_lt hmn)
      cases m with
      | zero =>
        cases hq
        exact .inl ⟨r, List.mem_iff_getElem?.mpr ⟨n, hr⟩, ho⟩
      | succ m => exact .inr ⟨m, n, q, r, by omega, hq, hr, ho⟩

/-- A started command whose regions are refused does not run, whatever its gates say. -/
theorem engineStep_refused {s : State} {i : Instr} {r : Refusal} (h : s.phase = .start)
    (hd : decodeCommand s.csr.cmd = .ok i) (hr : regionsRefusal (opOf i) s = some r) : engineStep s = .refused r := by
  rw [engineStep_start h hd, exec_command (decodeCommand_stream hd), runCommand_refused hr]

/-- The engine faults at an unwritten palette entry only, having made later bus events than those before. -/
theorem engineStep_fault {s : State} {f : Fault} (hi : Inv s) (hf : engineStep s = .fault f) :
    ∃ i evs, f = .unwrittenPaletteEntry i (evs ++ s.history) ∧ cellGet? s.pal i = none := by
  have he := engineStep_end hi
  rw [hf] at he
  have found : ∀ {R i made}, cellGet? s.pal i = none → madeFrom R s made →
      ∃ j evs, Fault.unwrittenPaletteEntry i made = .unwrittenPaletteEntry j (evs ++ s.history) ∧
        cellGet? s.pal j = none := by
    rintro R i made hn ⟨evs, rfl, -⟩
    exact ⟨i, evs, rfl, hn⟩
  cases he with
  | command i _ _ _ _ he =>
    cases he with
    | unwritten i made hn hm => exact found hn hm
  | loop op _ _ he =>
    cases he with
    | unwritten i made hn hm => exact found hn hm

/-- The engine refuses the regions of the command that starts only. -/
theorem engineStep_refusal {s : State} {r : Refusal} (hi : Inv s) (hr : engineStep s = .refused r) :
    s.phase = .start ∧ ∃ i, decodeCommand s.csr.cmd = .ok i ∧ regionsRefusal (opOf i) s = some r := by
  have he := engineStep_end hi
  rw [hr] at he
  cases he with
  | refused i _ h hd hr => exact ⟨h, i, hd, hr⟩
  | command i _ _ _ _ he => cases he
  | loop op _ _ he => cases he

/-- Settles O60: the stops are those of `engineStep_end`; the refusals are those of `regionsRefusal`, whose tests say that
regions share an address. -/
theorem engineStopsOnlyWhereTheSpecSays : Obligations.EngineStopsOnlyWhereTheSpecSays := by
  refine fun s => ⟨fun hi => ⟨fun f => engineStep_fault hi, fun r => engineStep_refusal hi⟩, ?_, ?_⟩
  · rintro i regions shared h hd rfl hshared
    have hany : shared ↔ anyOverlap (regionsOf (opOf i) s) = true := by
      rw [hshared, anyOverlap_iff]
      simp only [overlap_iff, exists_and_left]
    refine ⟨fun hs => engineStep_refused h hd ?_, fun hs hdev => engineStep_refused h hd ?_⟩
    · rw [regionsRefusal, if_pos (hany.1 hs)]
    · have hd' : (regionsOf (opOf i) s).any (fun r => s.devices.any (overlap r)) = true := by
        simpa only [List.any_eq_true, overlap_iff] using hdev
      rw [regionsRefusal, if_neg (fun e => hs (hany.2 e)), if_pos hd']
  · intro rest h
    simp only [step, nextTurn, h, turnStep]

end Sys2Proof.Machine
end

section
/-!
PROOFS. The register window: what a host access answers, what a write and a read of each kind of register leave
(10_state.md R21-R25, R40, R49, R57; 20_memory.md R84).
-/

namespace Sys2Proof.Machine

/-! ### What an access answers -/

/-- The registers stand at multiples of 4 (R22). -/
theorem regAt_aligned {n : Nat} {r : Reg} (h : regAt n = some r) : n % 4 = 0 := by
  unfold regAt at h
  split at h <;> first | rfl | cases h

theorem goodAccess_word {off : BitVec 8} (h : off.toNat % 4 = 0) : goodAccess off .word = true := by
  simp [goodAccess, h]

section Access
variable {off : BitVec 8} {r : Reg} {s : State}

theorem hostWrite_busy (v : Word) (h : off.toNat % 4 = 0) (hb : busy s = true) : hostWrite off .word v s = .next s := by
  simp [hostWrite, goodAccess_word h, hb]

theorem hostWrite_mapped (v : Word) (h : regAt off.toNat = some r) (hb : busy s = false) :
    hostWrite off .word v s = .next (writeReg r v s) := by
  simp [hostWrite, goodAccess_word (regAt_aligned h), hb, h]

theorem hostWrite_unmapped (v : Word) (ha : off.toNat % 4 = 0) (h : regAt off.toNat = none) :
    hostWrite off .word v s = .next s := by
  simp [hostWrite, goodAccess_word ha, h]

theorem hostRead_mapped (h : regAt off.toNat = some r) : hostRead off .word s = .next (readReg r s) := by
  simp [hostRead, goodAccess_word (regAt_aligned h), h]

theorem hostRead_unmapped (ha : off.toNat % 4 = 0) (h : regAt off.toNat = none) :
    hostRead off .word s = .next (s.answer 0) := by
  simp [hostRead, goodAccess_word ha, h]

/-- A host write that is accepted does nothing, or writes a register of an idle machine. -/
theorem hostWrite_next {w : Width} {v : Word} {t : State} (h : hostWrite off w v s = .next t) :
    t = s ∨ busy s = false ∧ ∃ r, t = writeReg r v s := by
  unfold hostWrite at h
  split at h
  · cases h
  · split at h
    · cases h; exact .inl rfl
    · next hb =>
      split at h
      · next r _ => cases h; exact .inr ⟨by simpa using hb, r, rfl⟩
      · cases h; exact .inl rfl

/-- A host read that is accepted answers 0, or reads a register. -/
theorem hostRead_next {w : Width} {t : State} (h : hostRead off w s = .next t) :
    t = s.answer 0 ∨ ∃ r, t = readReg r s := by
  unfold hostRead at h
  split at h
  · cases h
  · split at h
    · next r _ => cases h; exact .inr ⟨r, rfl⟩
    · cases h; exact .inl rfl

end Access

/-! ### Reads -/

section Reads
variable {r : Reg} {s : State}

theorem regValue_palData (s : State) : regValue .palData s = 0 := BitVec.zero_and

theorem regValue_ctrl (s : State) : regValue .ctrl s = 0 := BitVec.zero_and

theorem readReg_value (hr : r ≠ .palData) (h : busy s = false ∨ unspecifiedWhileBusy r = false) :
    readReg r s = s.answer (regValue r s) := by
  have e : (busy s && unspecifiedWhileBusy r) = false := by rw [Bool.and_eq_false_iff]; exact h
  have hread : readReg r s = if busy s && unspecifiedWhileBusy r then s.answerDraw else s.answer (regValue r s) := by
    cases r with
    | palData => exact absurd rfl hr
    | _ => rfl
  rw [hread, e]
  rfl

/-- R49: the registers whose value while busy is unspecified. -/
theorem readReg_draw (h : unspecifiedWhileBusy r = true) (hb : busy s = true) : readReg r s = s.answerDraw := by
  have hread : readReg r s = if busy s && unspecifiedWhileBusy r then s.answerDraw else s.answer (regValue r s) := by
    cases r with
    | palData => cases h
    | _ => rfl
  rw [hread, hb, h]
  rfl

theorem readReg_palData_busy (hb : busy s = true) : readReg .palData s = s.answer 0 := by
  simp [readReg, readPalData, hb]

theorem readReg_palData_written (hb : busy s = false) {p : Pixel} (h : cellGet? s.pal (palIndex s) = some p) :
    readReg .palData s = (s.answer p).nextPalIndex := by
  simp [readReg, readPalData, hb, h]

theorem readReg_palData_unwritten (hb : busy s = false) (h : cellGet? s.pal (palIndex s) = none) :
    readReg .palData s = s.answerDraw.nextPalIndex := by
  simp [readReg, readPalData, hb, h]

/-- A read changes what the host has read and the draws; a read of PAL_DATA while idle also moves PAL_INDEX. -/
theorem readReg_cases (r : Reg) (s : State) :
    (∃ d n, readReg r s = { s with hostData := d, draws := n }) ∨
      busy s = false ∧ ∃ d n, readReg r s = { s with hostData := d, draws := n }.nextPalIndex := by
  by_cases hr : r = .palData
  · subst hr
    cases hb : busy s with
    | true => exact .inl ⟨0, s.draws, readReg_palData_busy hb⟩
    | false =>
      cases hp : cellGet? s.pal (palIndex s) with
      | some p => exact .inr ⟨rfl, p, s.draws, readReg_palData_written hb hp⟩
      | none => exact .inr ⟨rfl, Config.freeWord s.draws, s.draws + 1, readReg_palData_unwritten hb hp⟩
  · by_cases h : busy s = true ∧ unspecifiedWhileBusy r = true
    · exact .inl ⟨_, _, readReg_draw h.2 h.1⟩
    · refine .inl ⟨_, s.draws, readReg_value hr ?_⟩
      simpa only [not_and_or, Bool.not_eq_true] using h

end Reads

/-! ### Writes -/

section Writes
variable {r : Reg} (v : Word) (s : State)

theorem writeReg_start (h : v.getLsbD 0 = true) : writeReg .ctrl v s = s.startCommand := by
  simp [writeReg, h]

theorem writeReg_noStart (h : v.getLsbD 0 = false) : writeReg .ctrl v s = s := by
  simp only [writeReg, h, Bool.false_eq_true, if_false]

theorem writeReg_readOnly (h : readOnlyRegister r = true) : writeReg r v s = s := by
  cases r with
  | status | outLen | curX | curY | pixDone | resultDepth => rfl
  | _ => cases h

/-- A write of a plain register changes the registers of the host, SRC_POS or PAL_COUNT. -/
theorem writeReg_plain (h : plainRegister r = true) :
    writeReg r v s = { s with
      csr := (writeReg r v s).csr
      srcPos := (writeReg r v s).srcPos
      palCount := (writeReg r v s).palCount } := by
  cases r with
  | ctrl | status | outLen | palData | curX | curY | pixDone | resultDepth => cases h
  | _ => rfl

theorem regRaw_writeReg_same (h : plainRegister r = true) : regRaw r (writeReg r v s) = v &&& regMask r := by
  cases r with
  | ctrl | status | outLen | palData | curX | curY | pixDone | resultDepth => cases h
  | _ => rfl

theorem regRaw_writeReg_ne {q : Reg} (h : plainRegister r = true) (hq : q ≠ r) :
    regRaw q (writeReg r v s) = regRaw q s := by
  cases r with
  | ctrl | status | outLen | palData | curX | curY | pixDone | resultDepth => cases h
  | _ => cases q <;> first | rfl | exact absurd rfl hq

theorem regValue_writeReg_same (h : plainRegister r = true) : regValue r (writeReg r v s) = v &&& regMask r := by
  rw [regValue, regRaw_writeReg_same v s h, BitVec.and_assoc, BitVec.and_self]

/-- No register write but a start touches memory, STATUS or what the engine does. -/
theorem writeReg_frame (h : r ≠ .ctrl) : (writeReg r v s).mem = s.mem ∧ (writeReg r v s).memStart = s.memStart ∧
    (writeReg r v s).status = s.status ∧ (writeReg r v s).phase = s.phase := by
  cases r with
  | ctrl => exact absurd rfl h
  | _ => exact ⟨rfl, rfl, rfl, rfl⟩

end Writes

/-! ### The obligations -/

/-- Settles O46, by the rules of a write and a read of a plain register. -/
theorem registersReadBackTheirFields : Obligations.RegistersReadBackTheirFields := by
  intro v s hb
  have value : ∀ (off : BitVec 8) (r : Reg), regAt off.toNat = some r → r ≠ .palData →
      hostRead off .word s = .next { s with hostData := regRaw r s &&& regMask r } := by
    intro off r h hr
    rw [hostRead_mapped h, readReg_value hr (.inl hb)]
    rfl
  have full : ∀ (off : BitVec 8) (r : Reg), regAt off.toNat = some r → r ≠ .palData → regMask r = 0xFFFFFFFF →
      hostRead off .word s = .next { s with hostData := regRaw r s } := by
    intro off r h hr hm
    rw [value off r h hr, hm, and_fullMask]
  refine ⟨fun off r h hp => ?_, value, value 0x08 .status rfl (by decide), full 0x28 .outLen rfl (by decide) rfl,
    full 0x68 .curX rfl (by decide) rfl, full 0x6C .curY rfl (by decide) rfl, full 0x70 .pixDone rfl (by decide) rfl,
    full 0x74 .resultDepth rfl (by decide) rfl⟩
  have hr : r ≠ .palData := by rintro rfl; cases hp
  have hc : r ≠ .ctrl := by rintro rfl; cases hp
  have hb' : busy (writeReg r v s) = false := by rw [busy, (writeReg_frame v s hc).2.2.1]; exact hb
  refine ⟨hostWrite_mapped v h hb, ?_, fun q => regRaw_writeReg_ne v s hp, writeReg_plain v s hp⟩
  rw [hostRead_mapped h, readReg_value hr (.inl hb'), regValue_writeReg_same v s hp]
  rfl

/-- Settles O47. -/
theorem ignoredRegisterWrites : Obligations.IgnoredRegisterWrites := by
  intro off v s ha
  refine ⟨fun r h hr => ?_, fun h => ⟨hostWrite_unmapped v ha h, hostRead_unmapped ha h⟩, hostWrite_busy v ha⟩
  cases hb : busy s with
  | true => exact hostWrite_busy v ha hb
  | false => rw [hostWrite_mapped v h hb, writeReg_readOnly v s hr]

/-- Settles O49. -/
theorem palDataIsAWindow : Obligations.PalDataIsAWindow := by
  intro v s
  have h : regAt (0x54 : BitVec 8).toNat = some .palData := rfl
  refine ⟨fun hb => ⟨_, hostWrite_mapped v h hb, rfl, rfl, fun i => ?_⟩, fun hb p hp => ?_, fun hb =>
    ⟨hostWrite_busy v rfl hb, ?_⟩⟩
  · rw [writeReg, State.nextPalIndex_pal, State.palPut_pal, cellGet?_put]
    simp only [eq_comm]
  · rw [hostRead_mapped h, readReg_palData_written hb hp]
    rfl
  · rw [hostRead_mapped h, readReg_palData_busy hb]
    rfl

/-- The registers of R49, as its statement lists them. -/
theorem unspecifiedWhileBusy_eq (r : Reg) :
    [Reg.srcPos, .outLen, .curX, .curY, .pixDone].contains r = unspecifiedWhileBusy r := by
  cases r <;> rfl

/-- Settles O50. -/
theorem unspecifiedReadsAreDraws : Obligations.UnspecifiedReadsAreDraws := by
  intro off r s h
  rw [hostRead_mapped h, unspecifiedWhileBusy_eq]
  refine ⟨fun hb hu => ?_, fun hb hu => ?_, ?_⟩
  · rw [readReg_draw hu hb]
    rfl
  · by_cases hr : r = .palData
    · subst hr
      rw [readReg_palData_busy hb, regValue_palData]
      rfl
    · rw [readReg_value hr (.inr hu)]
      rfl
  · rintro hb rfl hp
    rw [readReg_palData_unwritten hb hp]
    rfl

/-- A start sets BUSY and clears DONE and ERR (R25). -/
theorem startCommand_flags (s : State) :
    busy s.startCommand = true ∧ done s.startCommand = false ∧ errField s.startCommand = 0 := by
  simp only [busy, done, errField, State.startCommand_status]
  decide

/-- Settles O51. -/
theorem startBitStartsTheEngine : Obligations.StartBitStartsTheEngine := by
  intro v s
  have h : regAt (0x00 : BitVec 8).toNat = some .ctrl := rfl
  refine ⟨fun hb hv => ⟨s.startCommand, ?_, rfl, startCommand_flags s⟩, fun hv => ?_, ?_⟩
  · rw [hostWrite_mapped v h hb, writeReg_start v s hv]
  · cases hb : busy s with
    | true => exact hostWrite_busy v rfl hb
    | false =>
      rw [hostWrite_mapped v h hb, writeReg_noStart v s (hv.resolve_left (by simp [hb]))]
  · rw [hostRead_mapped h, readReg_value (by decide) (.inr rfl), regValue_ctrl]
    rfl

end Sys2Proof.Machine
end

section
/-!
PROOFS. The step of a token loop: the fetch at SRC_POS, and the token it gives (10_state.md R52; 20_memory.md R73; 41 R180;
43 R242, R251).
-/

namespace Sys2Proof.Machine

/-- With no script left the step is the engine's (log 1). -/
theorem step_engine {s : State} (h : s.turns = []) : step s = engineStep s := by
  simp only [step, nextTurn, h, turnStep]

section Fetch
variable {s : State} (hf : sourceFits s)
include hf

theorem readSrc_afterFetch {n : Nat} (hn : sourceHolds s n) : readSrc n s = .ok (srcBytes s n) (afterFetch s n) := by
  rw [readSrc, run_readState_bind, run_ite, if_neg (Nat.not_lt.mpr hn), takeSrc_afterFetch hf hn]

theorem fetchPair_ok (hn : sourceHolds s 2) :
    fetchPair s = .ok ((srcBytes s 2).getD 0 0, (srcBytes s 2).getD 1 0) (afterFetch s 2) := by
  rw [fetchPair, run_bind_ok (readSrc_afterFetch hf hn), run_pure]

theorem fetchByte_ok (hn : sourceHolds s 1) : fetchByte s = .ok ((srcBytes s 1).getD 0 0) (afterFetch s 1) := by
  rw [fetchByte, run_bind_ok (takeSrc_afterFetch hf hn), run_pure]

theorem fetchHeader_ok (hn : sourceHolds s 1) : fetchHeader s = .ok ((srcBytes s 1).getD 0 0) (afterFetch s 1) := by
  rw [fetchHeader, run_readState_bind, run_ite, if_neg (Nat.not_le.mpr hn), fetchByte_ok hf hn]

end Fetch

/-- The scanline goes on only while the source holds a byte (R242). -/
theorem sourceHolds_of_scanlineOver {s : State} (h : scanlineOver s = false) : sourceHolds s 1 := by
  simp only [scanlineOver, Bool.or_eq_false_iff, decide_eq_false_iff_not, not_le, ge_iff_le] at h
  exact h.2

/-- A fetch that gives a token: the engine's step is its execution. -/
theorem engineStep_fetched {α : Type} (op : Op) (token : α → Instr) {fetch : Eng α} {s t : State} {a : α}
    (h : engineAction s = fetched op fetch token s) (hf : fetch s = .ok a t) : engineStep s = exec (token a) t := by
  simp only [engineStep, h, fetched, hf]

/-- Settles O6: each loop's fetch succeeds, with the reads that `afterFetch` records. -/
theorem stepRunsTheFetchedToken : Obligations.StepRunsTheFetchedToken := by
  intro s ht hf
  rw [step_engine ht]
  refine ⟨fun hp hn => ?_, fun hp hn => ?_, fun hp hk hn => ?_, fun hp he ho => ?_⟩
  · exact engineStep_fetched .bmpDecodeRle8 (fun p => decodeRle8 p.1 p.2) (by simp only [engineAction, hp])
      (fetchPair_ok hf hn)
  · exact engineStep_fetched .bmpDecodeRle4 (fun p => decodeRle4 p.1 p.2) (by simp only [engineAction, hp])
      (fetchPair_ok hf hn)
  · exact engineStep_fetched .tgaDecodeRle decodeTga (by simp only [engineAction, hp, hk, if_true])
      (fetchHeader_ok hf hn)
  · exact engineStep_fetched .pcxDecode decodePcx
      (by simp only [engineAction, hp, he, ho, if_false, Bool.false_eq_true])
      (fetchByte_ok hf (sourceHolds_of_scanlineOver ho))

end Sys2Proof.Machine
end

section
/-!
PROOFS. The invariant of the machine (10_state.md R21, R25, R45, R49; 20_memory.md R71; 40_commands.md R143): one lemma per
agent's move.
-/

namespace Sys2Proof.Machine

/-! ### The engine's moves -/

/-- An image that PCX_DECODE is ready to decode has a row (R153). -/
theorem ready.pcxHeight {arg : Byte} {s : State} (h : ready .pcxDecode arg s) : 0 < height s := by
  have := firstFailing_none.mp h.1
    (decide (width s = 0) || decide (height s = 0) || decide (width s > 32768) || decide (height s > 32768), .fileCorrupted)
    (by simp [formatGates, pcxGates])
  simp only [Bool.or_eq_false_iff, decide_eq_false_iff_not] at this
  omega

/-- The start of a loop puts its counters in range (R240, R251). -/
theorem loopStart_counters {i : Instr} {s u : State} (hi : i.stream = .command) (hr : ready (opOf i) (argOf i) s)
    (hb : bodyOf i { s with outN := 0 } = .ok () u) :
    (opOf i = .tgaDecodeRle → u.pixK ≤ pixelTotal s) ∧ (opOf i = .pcxDecode → u.row < height s) ∧
      (opOf i = .pcxDecode → u.line.length ≤ pcxStride s) := by
  cases i with
  | tgaDecodeRle =>
    cases hb
    exact ⟨fun _ => Nat.zero_le _, nofun, nofun⟩
  | pcxDecode =>
    cases hb
    exact ⟨nofun, fun _ => hr.pcxHeight, fun _ => Nat.zero_le _⟩
  | pcxRep | pcxLit | tgaRun | tgaRaw => cases hi
  | _ => exact ⟨nofun, nofun, nofun⟩

/-- A command with a token loop takes no argument, is not PCX_EGA_LOAD, and writes only its image. -/
theorem loopOp.command {i : Instr} (h : loopOp (opOf i)) (s : State) : argOf i = 0 ∧ i ≠ .pcxEgaLoad ∧
    usesPix (opOf i) = true ∧ writeRegion (opOf i) s = imageRegion s := by
  cases i with
  | palLoad | pcxEgaLoad | bmpDecodeRaw | bmpEncode | tgaDecodeRaw | tgaEncode => simp [loopOp, opOf] at h
  | _ => exact ⟨rfl, nofun, rfl, rfl⟩

section LoopStart
variable {s u : State} {i : Instr} {ph : Phase} (hi : Inv s) (hs : s.phase = .start)
  (hd : decodeCommand s.csr.cmd = .ok i) (hr : ready (opOf i) (argOf i) s)
  (hk : Kept (decide (i ≠ .pcxEgaLoad)) (writeRegion (opOf i) s) s u) (hb : bodyOf i { s with outN := 0 } = .ok () u)
  (hp : phaseOp ph = some (opOf i))
include hi hs hd hr hk hb hp

/-- A command that starts its loop runs as `Running` says: the bus events so far are those of its body. -/
theorem running_loopStart : Running (opOf i) u := by
  have hop := phaseOp_loopOp hp
  obtain ⟨hcounter, hrow, hline⟩ := loopStart_counters (decodeCommand_stream hd) hr hb
  obtain ⟨harg, hega, hpix, hregion⟩ := hop.command s
  obtain ⟨-, -, -, -, hheight, -, -, -, hstride⟩ := hk.values
  obtain ⟨hhist, hmem⟩ := hi.atStart hs
  obtain ⟨evs, e1, e2, e3⟩ := hk.trace
  rw [harg] at hr
  rw [hregion] at e3
  rw [hhist, List.append_nil] at e1
  exact
    { selected := ⟨i, by rw [hk.csr, hd], rfl⟩
      ready := ready_kept hk (fun _ => decide_eq_true hega) hr hop
      pixels := by rw [hk.pixelTotal]; exact hcounter
      rows := by rw [hheight]; exact hrow
      lineLength := by rw [hstride]; exact hline
      memory := by rw [e1, e2, hk.memStart, hmem]
      writes := by
        intro e he hw
        rw [e1] at he
        rw [hk.pixRegion_eq]
        exact imageRegion_pix hr hpix (e3 e he hw) }

/-- A command that starts its loop keeps the invariant. -/
theorem inv_loopStart : Inv { u with phase := ph } := by
  have hrun := running_loopStart hi hs hd hr hk hb hp
  have hph : ph ≠ .idle ∧ ph ≠ .start := by constructor <;> (rintro rfl; cases hp)
  have hstatus : legalStatus u.status := by rw [hk.status]; exact hi.status
  have hbusy : busy u = true := by rw [busy, hk.status]; exact hi.busyPhase.2 (by rw [hs]; decide)
  refine ⟨hk.memWf hi.memory, ?_, hk.palette hi.palette, hstatus, iff_of_true hbusy hph.1,
    reservedZero_of hi.reserved hk.csr (hk.palCountMask (hi.reserved .palCount)) hstatus, fun h => absurd h hph.2,
    fun op hop => ?_⟩
  · show u.memStart.wf = true
    rw [hk.memStart]
    exact hi.memoryAtStart
  · obtain rfl : opOf i = op := Option.some.inj (hp.symm.trans hop)
    obtain ⟨hsel, hready, hpix, hrow, hline, hm, hw⟩ := hrun
    exact ⟨hsel, hready, hpix, hrow, hline, hm, hw⟩

end LoopStart

/-- Every move of the engine keeps the invariant. -/
theorem inv_engineStep {s t : State} (hi : Inv s) (h : engineStep s = .next t) : Inv t := by
  have he := engineStep_end hi
  rw [h] at he
  cases he with
  | idle => exact hi
  | reserved => exact inv_end hi (.refl true (0, 0) s) .palLoad true .generic
  | gate i c => exact inv_gateEnd hi _ c
  | command i _ hs hd hr he =>
    cases he with
    | done u hk hb =>
      rcases afterOf_cases i with e | ⟨ph, hp, e⟩
      · rw [e]
        exact inv_end hi hk _ _ _
      · rw [e]
        exact inv_loopStart hi hs hd hr hk hb hp
    | failed u c hk => exact inv_end hi hk _ _ _
  | loop op _ hp he =>
    cases he with
    | goes kc u hk hkc pixels rows line => exact inv_goes hi hp hk hkc pixels rows line
    | ends kc u c hk => exact inv_end hi hk _ _ _

/-! ### The register window -/

/-- The low 16 bits of a number below 65536 are the number. -/
theorem ofNat_and_0xFFFF {n : Nat} (h : n < 65536) : BitVec.ofNat 32 n &&& 0x0000FFFF = BitVec.ofNat 32 n := by
  apply BitVec.eq_of_toNat_eq
  rw [BitVec.toNat_and, BitVec.toNat_ofNat, Nat.mod_eq_of_lt (by omega)]
  exact (Nat.and_two_pow_sub_one_eq_mod n 16).trans (Nat.mod_eq_of_lt h)

theorem regRaw_nextPalIndex {q : Reg} (s : State) (h : q ≠ .palIndex) : regRaw q s.nextPalIndex = regRaw q s := by
  cases q <;> first | rfl | exact absurd rfl h

/-- PAL_INDEX stays below 65536 (R40). -/
theorem reservedZero_nextPalIndex {s : State} (h : reservedZero s) : reservedZero s.nextPalIndex := by
  intro q
  by_cases hq : q = .palIndex
  · subst hq
    exact ofNat_and_0xFFFF (Nat.mod_lt _ (by decide))
  · rw [regRaw_nextPalIndex s hq]
    exact h q

/-- PAL_INDEX is an index of palette RAM. -/
theorem palIndex_lt (s : State) : palIndex s < Config.palMax := Nat.mod_lt _ (by decide)

/-- A register is plain, read-only, CTRL or PAL_DATA. -/
theorem reg_cases (r : Reg) : plainRegister r = true ∨ readOnlyRegister r = true ∨ r = .ctrl ∨ r = .palData := by
  cases r <;> decide

/-- R21: a register write stores no reserved bit. -/
theorem reservedZero_writeReg {s : State} {r : Reg} (v : Word) (h : reservedZero s) (hc : r ≠ .ctrl) :
    reservedZero (writeReg r v s) := by
  rcases reg_cases r with hp | hro | hctrl | rfl
  · intro q
    by_cases hq : q = r
    · subst hq
      rw [regRaw_writeReg_same v s hp, BitVec.and_assoc, BitVec.and_self]
    · rw [regRaw_writeReg_ne v s hp hq]
      exact h q
  · rw [writeReg_readOnly v s hro]
    exact h
  · exact absurd hctrl hc
  · exact reservedZero_nextPalIndex (s := s.palPut (palIndex s) v) h

/-- R45: a register write leaves palette RAM canonical. -/
theorem wf_pal_writeReg {s : State} (r : Reg) (v : Word) (h : s.pal.wf = true) : (writeReg r v s).pal.wf = true := by
  rcases reg_cases r with hp | hro | rfl | rfl
  · rw [writeReg_plain v s hp]
    exact h
  · rw [writeReg_readOnly v s hro]
    exact h
  · cases hv : v.getLsbD 0 with
    | true => rw [writeReg_start v s hv]; exact h
    | false => rw [writeReg_noStart v s hv]; exact h
  · exact PaletteRam.wf_put v (palIndex_lt s) h

/-- What a move of the host leaves of an idle machine that meets the invariant. -/
theorem Inv.idleMove {s t : State} (hi : Inv s) (hb : busy s = false) (hm : t.mem = s.mem) (hms : t.memStart = s.memStart)
    (hst : t.status = s.status) (hph : t.phase = s.phase) (hp : t.pal.wf = true) (hr : reservedZero t) : Inv t := by
  obtain ⟨hidle, hstatus⟩ := hi.idle_of hb
  exact inv_idle (hm ▸ hi.memory) (hms ▸ hi.memoryAtStart) hp (hst ▸ hstatus) hr (hph.trans hidle)

/-- R140, R25: the start of a command. -/
theorem inv_startCommand {s : State} (hi : Inv s) : Inv s.startCommand where
  memory := hi.memory
  memoryAtStart := hi.memory
  palette := hi.palette
  status := .inr (.inl rfl)
  busyPhase := iff_of_true (startCommand_flags s).1 (by rw [State.startCommand_phase]; decide)
  reserved := reservedZero_of hi.reserved rfl (hi.reserved .palCount) (.inr (.inl rfl))
  atStart := fun _ => ⟨rfl, rfl⟩
  running := fun _ h => by cases h

theorem inv_writeReg {s : State} (r : Reg) (v : Word) (hi : Inv s) (hb : busy s = false) : Inv (writeReg r v s) := by
  by_cases hc : r = .ctrl
  · subst hc
    cases hv : v.getLsbD 0 with
    | true => rw [writeReg_start v s hv]; exact inv_startCommand hi
    | false => rw [writeReg_noStart v s hv]; exact hi
  · obtain ⟨hm, hms, hst, hph⟩ := writeReg_frame v s hc
    exact hi.idleMove hb hm hms hst hph (wf_pal_writeReg r v hi.palette) (reservedZero_writeReg v hi.reserved hc)

/-- The invariant says nothing of what the host has read, nor of the draws. -/
theorem Inv.hostData {s : State} (hi : Inv s) (d : Word) (n : Nat) : Inv { s with hostData := d, draws := n } := by
  obtain ⟨hmem, hms, hpal, hst, hbp, hres, hat, hrun⟩ := hi
  refine ⟨hmem, hms, hpal, hst, hbp, fun r => ?_, hat, fun op hop => ?_⟩
  · have := hres r
    cases r <;> exact this
  · obtain ⟨hsel, hready, hpix, hrow, hline, hm, hw⟩ := hrun op hop
    exact ⟨hsel, hready, hpix, hrow, hline, hm, hw⟩

theorem inv_readReg {s : State} (r : Reg) (hi : Inv s) : Inv (readReg r s) := by
  rcases readReg_cases r s with ⟨d, n, e⟩ | ⟨hb, d, n, e⟩
  · rw [e]
    exact hi.hostData d n
  · rw [e]
    have h := hi.hostData d n
    exact h.idleMove hb rfl rfl rfl rfl h.palette (reservedZero_nextPalIndex h.reserved)

theorem inv_hostWrite {s t : State} {off : BitVec 8} {w : Width} {v : Word} (hi : Inv s)
    (h : hostWrite off w v s = .next t) : Inv t := by
  rcases hostWrite_next h with rfl | ⟨hb, r, rfl⟩
  · exact hi
  · exact inv_writeReg r v hi hb

theorem inv_hostRead {s t : State} {off : BitVec 8} {w : Width} (hi : Inv s) (h : hostRead off w s = .next t) : Inv t := by
  rcases hostRead_next h with rfl | ⟨r, rfl⟩
  · exact hi.hostData 0 s.draws
  · exact inv_readReg r hi

/-! ### The host and bus memory -/

theorem inv_hostPeek {s t : State} {a : Word} (hi : Inv s) (h : hostPeek a s = .next t) : Inv t := by
  unfold hostPeek at h
  split at h <;> cases h
  exact hi.hostData _ s.draws

/-- R380: an address that the host may touch is in no region of the running command. -/
theorem not_inRegion_of_hostMayTouch {s : State} {a : Word} {op : Op} {r : Nat × Nat} (hi : Inv s)
    (hp : phaseOp s.phase = some op) (h : hostMayTouch a s = true) (hr : r ∈ regionsOf op s) : inRegion a.toNat r = false := by
  have hb : busy s = true := hi.busyPhase.2 (by intro e; rw [e] at hp; cases hp)
  obtain ⟨i, hd, rfl⟩ := (hi.running op hp).selected
  simp only [hostMayTouch, guardedRegions, hb, hd, if_true, Bool.not_eq_true', List.any_eq_false,
    Bool.not_eq_true] at h
  exact h r hr

/-- A byte that the host writes outside the regions of the running command is one that the command found. -/
theorem poke_replay {s : State} {a : Word} {op : Op} (v : Byte) (hi : Inv s) (hp : phaseOp s.phase = some op)
    (h : hostMayTouch a s = true) :
    s.mem.write a.toNat v = (s.memStart.write a.toNat v).replay s.history.reverse := by
  have hrun := hi.running op hp
  have hpix : usesPix op = true := by rcases phaseOp_loopOp hp with rfl | rfl | rfl | rfl <;> rfl
  have hout := not_inRegion_of_hostMayTouch hi hp h (r := pixRegion s) (by simp [regionsOf, hpix])
  refine Memory.ext_read (Memory.wf_write _ _ hi.memory)
    (Memory.wf_replay _ (Memory.wf_write _ _ hi.memoryAtStart)) fun b => ?_
  rw [Memory.read_replay_write, Memory.read_write, ← hrun.memory]
  intro e he hk heq
  have := hrun.writes e (List.mem_reverse.mp he) hk
  rw [heq, hout] at this
  cases this

theorem inv_hostPoke {s t : State} {a : Word} {v : Byte} (hi : Inv s) (h : hostPoke a v s = .next t) : Inv t := by
  unfold hostPoke at h
  split at h <;> cases h
  next hmay =>
  refine ⟨Memory.wf_write _ _ hi.memory, Memory.wf_write _ _ hi.memoryAtStart, hi.palette, hi.status, hi.busyPhase,
    fun r => ?_, fun hs => ?_, fun op hop => ?_⟩
  · have := hi.reserved r
    cases r <;> exact this
  · obtain ⟨h1, h2⟩ := hi.atStart hs
    exact ⟨h1, by rw [h2]⟩
  · obtain ⟨hsel, hready, hpix, hrow, hline, -, hw⟩ := hi.running op hop
    exact ⟨hsel, hready, hpix, hrow, hline, poke_replay v hi hop hmay, hw⟩

/-! ### Every move -/

theorem inv_nextTurn {s : State} (hi : Inv s) : Inv (nextTurn s).2 := by
  unfold nextTurn
  split
  · exact hi
  · exact hi.turns _

/-- Settles O57, by the agent whose move it is. -/
theorem everyStepKeepsTheInvariant : Obligations.EveryStepKeepsTheInvariant := by
  intro s t hi h
  have hn := inv_nextTurn hi
  unfold step at h
  cases hm : (nextTurn s).1 with rw [hm] at h
  | engine => exact inv_engineStep hn h
  | regWrite off w v => exact inv_hostWrite hn h
  | regRead off w => exact inv_hostRead hn h
  | poke a v => exact inv_hostPoke hn h
  | peek a => exact inv_hostPeek hn h
  | reset => exact inv_platformReset hn h
  | secondHost => cases h

end Sys2Proof.Machine
end

section
/-!
PROOFS. The stop at an unwritten palette entry (10_state.md R57): a token or command that needs one stops at the first it
needs, whatever it did before. That the fault carries the earlier bus events is what `Keeps` says of every stop; the rest is
which entry.
-/

namespace Sys2Proof.Machine

/-! ### Stops -/

/-- An operation ended at the unwritten palette entry `j`. -/
def stopsAt {α : Type} (j : Nat) (r : EStateM.Result Stop State α) : Prop :=
  ∃ made t, r = .error (.fault (.unwrittenPaletteEntry j made)) t

section Stops
variable {α β : Type} {j : Nat} {s t : State}

theorem stopsAt.bind {m : Eng α} {f : α → Eng β} (h : stopsAt j (m s)) : stopsAt j ((m >>= f) s) := by
  obtain ⟨made, u, e⟩ := h
  exact ⟨made, u, run_bind_error e⟩

theorem stopsAt.after {m : Eng α} {f : α → Eng β} {a : α} (hm : m s = .ok a t) (h : stopsAt j (f a t)) :
    stopsAt j ((m >>= f) s) := by
  rw [run_bind_ok hm]
  exact h

/-- A loop stops in the round that stops, when the rounds before succeed. -/
theorem stopsAt.forUpTo (P : Nat → State → Prop) {n k : Nat} {body : Nat → Eng Unit} (hk : k < n) (h0 : P 0 s)
    (hstep : ∀ i, i < k → ∀ t, P i t → ∃ u, body i t = .ok () u ∧ P (i + 1) u)
    (hstop : ∀ t, P k t → stopsAt j (body k t)) : stopsAt j (Machine.forUpTo n body s) := by
  induction n with
  | zero => exact absurd hk (Nat.not_lt_zero k)
  | succ n ih =>
    rw [Machine.forUpTo]
    rcases Nat.lt_succ_iff_lt_or_eq.mp hk with h | rfl
    · exact (ih h).bind
    · obtain ⟨t, ht, hP⟩ := forUpTo_ok P h0 hstep
      exact .after ht (hstop t hP)

variable {kc : Bool} {R : Nat × Nat} {op : Op}

/-- The fault of a step carries the bus events made since `s`. -/
theorem stopsUnwritten_conclude {m : Eng Unit} {f : State → State} (hk : Keeps kc R m s) (h : stopsAt j (m s)) :
    stopsUnwritten s j (conclude op f (m s)) := by
  obtain ⟨made, t, e⟩ := h
  obtain ⟨-, evs, rfl, -⟩ := hk.stop _ _ e
  exact ⟨evs, by rw [e]; rfl⟩

theorem stopsUnwritten_token {i : Instr} (hi : i.stream ≠ .command) (hk : Keeps kc R (tokenOf i) s)
    (h : stopsAt j (tokenOf i s)) : stopsUnwritten s j (exec i s) := by
  rw [exec_token hi]
  exact stopsUnwritten_conclude hk h

theorem stopsUnwritten_command {i : Instr} (hi : i.stream = .command) (hr : ready (opOf i) (argOf i) s)
    (h : stopsAt j (bodyOf i { s with outN := 0 })) : stopsUnwritten s j (exec i s) := by
  rw [exec_command hi, runCommand_body hr.1 hr.2]
  exact stopsUnwritten_conclude (s := { s with outN := 0 }) (keeps_bodyOf hi hr) h

/-- The same of a step of a loop. -/
theorem LoopEnd.stopsUnwritten {o : Host.Outcome State Fault Refusal} {made : List BusEvent} (h : LoopEnd op s o)
    (ho : o = .fault (.unwrittenPaletteEntry j made)) : Machine.stopsUnwritten s j o := by
  subst ho
  cases h with
  | unwritten i _ _ hm =>
    obtain ⟨evs, rfl, -⟩ := hm
    exact ⟨evs, rfl⟩

end Stops

/-! ### What a conversion needs depends on the registers, the palette and LINE only -/

/-- A conversion that needs the unwritten entry `j`. -/
def needsEntry (m : Eng Pixel) (s : State) (j : Nat) : Prop :=
  m s = .error (.fault (.unwrittenPaletteEntry j s.history)) s

/-- A conversion whose need of an entry depends on the registers, the palette and LINE only; with `looksOnly`, so does all
that it answers. -/
def needsOnly (m : Eng Pixel) : Prop := ∀ s t j, SameSources s t → needsEntry m s j → needsEntry m t j

theorem needsOnly_pure (p : Pixel) : needsOnly (pure p) := by
  intro s t j _ h
  cases h

theorem needsOnly_palLookup (i : Nat) : needsOnly (palLookup i) := by
  intro s t j h hn
  unfold needsEntry palLookup at *
  rw [h.pal]
  cases hc : cellGet? s.pal i with
  | none => rw [hc] at hn; cases hn; rfl
  | some p => rw [hc] at hn; cases hn

/-- A conversion that reads the state first, and of it the registers, the palette and LINE only. -/
theorem needsOnly_readState {f : State → Eng Pixel} (hf : ∀ s, needsOnly (f s))
    (hc : ∀ s t : State, SameSources s t → f t = f s) : needsOnly (readState >>= f) := by
  intro s t j h hn
  unfold needsEntry at *
  rw [run_readState_bind] at *
  rw [hc s t h]
  exact hf s s t j h hn

theorem needsOnly_ite {c : Prop} [Decidable c] {m n : Eng Pixel} (hm : needsOnly m) (hn : needsOnly n) :
    needsOnly (if c then m else n) := by
  split
  · exact hm
  · exact hn

section Sources
variable {s t : State} (h : SameSources s t)
include h

theorem SameSources.state : t = { t with csr := s.csr, pal := s.pal, palCount := s.palCount, line := s.line } := by
  rw [← h.csr, ← h.pal, ← h.palCount, ← h.line]

theorem SameSources.width : Machine.width t = Machine.width s := by rw [h.state]; rfl

theorem SameSources.height : Machine.height t = Machine.height s := by rw [h.state]; rfl

theorem SameSources.imageFits (hf : Machine.imageFits s) : Machine.imageFits t := by rw [h.state]; exact hf

theorem SameSources.inImage (x y : Int) : Machine.inImage t x y = Machine.inImage s x y := by rw [h.state]; rfl

theorem SameSources.planarIndex (x np : Nat) : Machine.planarIndex t x np = Machine.planarIndex s x np := by
  rw [planarIndex_congr s t x np, h.csr, h.line]

end Sources

theorem needsOnly_lookupBmp (i : Nat) : needsOnly (lookupBmp i) :=
  needsOnly_readState (fun _ => needsOnly_palLookup _) (fun s t h => by rw [h.state]; rfl)

theorem needsOnly_lookupPcx (i : Nat) : needsOnly (lookupPcx i) :=
  needsOnly_readState (fun _ => needsOnly_ite (needsOnly_pure _) (needsOnly_palLookup _))
    (fun s t h => by rw [h.state]; rfl)

theorem needsOnly_lookupTga (i : Nat) : needsOnly (lookupTga i) :=
  needsOnly_readState (fun _ => needsOnly_ite (needsOnly_palLookup _) (needsOnly_pure _))
    (fun s t h => by rw [h.state]; rfl)

theorem needsOnly_bmpPixel (row : List Byte) (x : Nat) : needsOnly (bmpPixel row x) :=
  needsOnly_readState (fun _ => needsOnly_ite (needsOnly_lookupBmp _) <| needsOnly_ite (needsOnly_pure _) <|
    needsOnly_ite (needsOnly_pure _) (needsOnly_pure _)) (fun s t h => by rw [h.state]; rfl)

theorem needsOnly_tgaSample (bs : List Byte) : needsOnly (tgaSample bs) :=
  needsOnly_readState (fun _ => needsOnly_ite (needsOnly_pure _) <| needsOnly_ite (needsOnly_pure _) <|
    needsOnly_lookupTga _) (fun s t h => by rw [h.state]; rfl)

theorem needsOnly_pcxPixel (x : Nat) : needsOnly (pcxPixel x) := by
  refine needsOnly_readState (fun s => ?_) (fun s t h => ?_)
  · split
    · exact needsOnly_ite (needsOnly_pure _) (needsOnly_lookupPcx _)
    · exact needsOnly_lookupPcx _
    · exact needsOnly_lookupPcx _
    · exact needsOnly_pure _
    · exact needsOnly_pure _
    · exact needsOnly_pure _
  · simp only [h.planarIndex]
    rw [h.state]
    rfl

/-! ### Pixels written between the conversions -/

section Pixels
variable {s t : State} {x y j : Nat}

theorem SameSources.pixWrite (h : SameSources s t) (hf : Machine.imageFits s) (hx : x < Machine.width s)
    (hy : y < Machine.height s) (p : Pixel) : ∃ u, Machine.pixWrite x y p t = .ok () u ∧ SameSources s u :=
  ⟨_, pixWrite_inImage p (h.imageFits hf) (h.width ▸ hx) (h.height ▸ hy), h.trans ⟨rfl, rfl, rfl, rfl⟩⟩

variable {pixel : Nat → Eng Pixel}

/-- A pixel that its conversion gives is written. -/
theorem SameSources.copyPixel (h : SameSources s t) (hf : Machine.imageFits s) (hx : x < Machine.width s)
    (hy : y < Machine.height s) (hlook : looksOnly (pixel x)) (hg : ∃ p, gives (pixel x) s p) :
    ∃ u, (do
      let p ← pixel x
      Machine.pixWrite x y p : Eng Unit) t = .ok () u ∧ SameSources s u := by
  obtain ⟨p, hp⟩ := hg
  rw [run_bind_ok (hlook s t p h hp)]
  exact h.pixWrite hf hx hy p

/-- A row whose every pixel is given is written, and the conversions after it look at the same. -/
theorem SameSources.row (h : SameSources s t) (hf : Machine.imageFits s) (hy : y < Machine.height s)
    (hlook : ∀ x, looksOnly (pixel x)) (hg : ∀ x, x < Machine.width s → ∃ p, gives (pixel x) s p) :
    ∃ u, forUpTo (Machine.width s) (fun x => do
      let p ← pixel x
      Machine.pixWrite x y p) t = .ok () u ∧ SameSources s u :=
  forUpTo_ok (fun _ u => SameSources s u) h fun x hx _ hu => hu.copyPixel hf hx hy (hlook x) (hg x hx)

/-- A row stops at its first pixel that needs an unwritten entry. -/
theorem SameSources.row_stops (h : SameSources s t) (hf : Machine.imageFits s) (hy : y < Machine.height s)
    (hlook : ∀ x, looksOnly (pixel x)) (hneed : ∀ x, needsOnly (pixel x)) (hx : x < Machine.width s)
    (hg : ∀ i, i < x → ∃ p, gives (pixel i) s p) (hu : needsEntry (pixel x) s j) :
    stopsAt j (forUpTo (Machine.width s) (fun x => do
      let p ← pixel x
      Machine.pixWrite x y p) t) :=
  .forUpTo (fun _ u => SameSources s u) hx h
    (fun i hi _ hk => hk.copyPixel hf (Nat.lt_trans hi hx) hy (hlook i) (hg i hi))
    fun u hk => .bind ⟨_, _, hneed x s u j hk hu⟩

end Pixels

/-! ### The BMP RLE tokens -/

section Cursor
variable {s t : State} {n j : Nat} {index : Nat → Nat}

/-- An index that falls outside the image needs no entry (R182). -/
theorem cursorPixel_inside {k : Nat} (h : needsEntry (cursorPixel s index k) s j) :
    inImage s (s.x.toInt + k) s.y.toInt = true ∧ needsEntry (lookupBmp (index k)) s j := by
  unfold cursorPixel at h
  split at h
  · next hin => exact ⟨hin, h⟩
  · cases h

theorem putIdx_ok {k : Nat} {p : Pixel} (h : SameSources s t) (hf : imageFits s)
    (hg : gives (cursorPixel s index k) s p) :
    ∃ u, putIdx (s.x.toInt + k) s.y.toInt (index k) t = .ok () u ∧ SameSources s u := by
  by_cases hin : inImage s (s.x.toInt + k) s.y.toInt = true
  · rw [cursorPixel, if_pos hin] at hg
    rw [putIdx, run_readState_bind, run_ite, h.inImage, if_pos hin, run_bind_ok (looksOnly_lookupBmp _ s t p h hg)]
    simp only [inImage, Bool.and_eq_true, decide_eq_true_eq] at hin
    exact h.pixWrite hf (by omega) (by omega) p
  · exact ⟨t, putIdx_outside (by rw [h.inImage]; simpa using hin), h⟩

/-- R183, R184, R188, R189: the indices placed stop at the first that needs an unwritten entry; `t` is `s` after a fetch. -/
theorem placeIndices_stops (h : SameSources s t) (hx : t.x = s.x) (hy : t.y = s.y) (hf : imageFits s)
    (hu : firstUnwritten s n (cursorPixel s index) j) : stopsAt j (placeIndices n index t) := by
  obtain ⟨k, hk, hneed, hg⟩ := hu
  rw [placeIndices, run_readState_bind, hx, hy]
  refine stopsAt.bind (.forUpTo (fun _ u => SameSources s u) hk h (fun i hi u hs => ?_) fun u hs => ?_)
  · obtain ⟨p, hp⟩ := hg i hi
    exact putIdx_ok hs hf hp
  · obtain ⟨hin, hl⟩ := cursorPixel_inside hneed
    rw [putIdx, run_readState_bind, run_ite, hs.inImage, if_pos hin]
    exact stopsAt.bind ⟨_, _, needsOnly_lookupBmp _ s u j hs hl⟩

end Cursor

theorem sameSources_afterFetch (s : State) (n : Nat) : SameSources s (afterFetch s n) := ⟨rfl, rfl, rfl, rfl⟩

/-- ABS8 and ABS4 place the indices of the bytes that they fetch. -/
theorem fetchThenPlace_stops {s : State} {n m j : Nat} {index : List Byte → Nat → Nat} (hs : sourceFits s)
    (hf : imageFits s) (hn : sourceHolds s m) (hu : firstUnwritten s n (cursorPixel s (index (srcBytes s m))) j) :
    stopsAt j ((do
      let data ← readSrc m
      placeIndices n (index data) : Eng Unit) s) :=
  .after (readSrc_afterFetch hs hn) (placeIndices_stops (sameSources_afterFetch s m) rfl rfl hf hu)

/-! ### BMP_DECODE_RAW -/

/-- Row and column of a pixel in row-major order. -/
theorem rowMajor {w x : Nat} (hx : x < w) (r : Nat) : (r * w + x) / w = r ∧ (r * w + x) % w = x := by
  have hw : 0 < w := Nat.zero_lt_of_lt hx
  rw [Nat.mul_comm, Nat.mul_add_div hw, Nat.div_eq_of_lt hx, Nat.mul_add_mod, Nat.mod_eq_of_lt hx]
  exact ⟨rfl, rfl⟩

theorem bmpRow_lt {s : State} {r : Nat} (hr : r < height s) : bmpRow s r < height s := by
  unfold bmpRow
  split <;> omega

/-- R289: the image stops at its first stored pixel that needs an unwritten entry. -/
theorem bmpDecodeRawBody_stops {s : State} {j stride : Nat} (hs : sourceFits s) (hf : imageFits s)
    (hstride : stride = bmpStride (width s) (depth s)) (hn : sourceHolds s (stride * height s))
    (hu : firstUnwritten s (width s * height s)
      (fun k => bmpPixel (chunk (srcBytes s (stride * height s)) stride (k / width s)) (k % width s)) j) :
    stopsAt j (bmpDecodeRawBody { s with outN := 0 }) := by
  subst hstride
  obtain ⟨k, hk, hneed, hg⟩ := hu
  have hw : 0 < width s := Nat.pos_of_ne_zero (by rintro e; simp [e] at hk)
  have hrow : k / width s < height s := Nat.div_lt_of_lt_mul hk
  have hkk : k / width s * width s + k % width s = k := Nat.div_add_mod' k (width s)
  have given : ∀ r x, x < width s → r * width s + x < k →
      ∃ p, gives (bmpPixel (chunk (srcBytes s (bmpStride (width s) (depth s) * height s))
        (bmpStride (width s) (depth s)) r) x) s p := by
    intro r x hx hlt
    have := hg _ hlt
    dsimp only at this
    rwa [(rowMajor hx r).1, (rowMajor hx r).2] at this
  rw [bmpDecodeRawBody, run_readState_bind]
  refine .after (readSrc_afterFetch (s := { s with outN := 0 }) hs hn) (.forUpTo (fun _ u => SameSources s u) hrow
    ⟨rfl, rfl, rfl, rfl⟩ (fun r hr u h => ?_) fun u h => ?_)
  · refine h.row hf (bmpRow_lt (s := s) (Nat.lt_trans hr hrow)) (looksOnly_bmpPixel _) fun x hx => given r x hx ?_
    have := Nat.mul_le_mul_right (width s) (Nat.succ_le_of_lt hr)
    rw [Nat.succ_mul] at this
    omega
  · exact h.row_stops hf (bmpRow_lt (s := s) hrow) (looksOnly_bmpPixel _) (needsOnly_bmpPixel _) (Nat.mod_lt k hw)
      (fun x hx => given _ x (Nat.lt_trans hx (Nat.mod_lt k hw)) (by omega)) hneed

/-! ### TGA samples -/

/-- The SRC and PIX regions of a command that is ready share no address (R86). -/
theorem ready.disjoint {op : Op} {arg : Byte} {s : State} (hr : ready op arg s) (hsrc : usesSrc op = true)
    (hpix : usesPix op = true) {a : Nat} (h1 : inRegion a (srcRegion s) = true) (h2 : inRegion a (pixRegion s) = true) :
    False := by
  have hno := hr.2
  have hyes : anyOverlap (regionsOf op s) = true :=
    (anyOverlap_iff _).2 ⟨0, 1, srcRegion s, pixRegion s, by decide, by simp [regionsOf, hsrc],
      by simp [regionsOf, hsrc, hpix], (overlap_iff _ _).2 ⟨a, h1, h2⟩⟩
  rw [regionsRefusal, if_pos hyes] at hno
  cases hno

theorem inRegion_iff (a : Nat) (r : Nat × Nat) : inRegion a r = true ↔ r.1 ≤ a ∧ a < r.1 + r.2 := by
  simp [inRegion]

/-- R77: what a ready command writes into its image leaves the source. -/
theorem Kept.source_read {kc : Bool} {op : Op} {arg : Byte} {s t : State} (h : Kept kc (Machine.imageRegion s) s t)
    (hr : ready op arg s) (hsrc : usesSrc op = true) (hpix : usesPix op = true) {a : Nat}
    (ha : inRegion a (srcRegion s) = true) : t.mem.read a = s.mem.read a := by
  by_contra hne
  obtain ⟨evs, -, e, hw⟩ := h.trace
  rw [e] at hne
  have hin := Memory.inRegion_of_replay (R := Machine.imageRegion s) evs.reverse (fun e he hk =>
    (inRegion_iff ..).1 (hw e (List.mem_reverse.mp he) hk)) hne
  exact hr.disjoint hsrc hpix ha (imageRegion_pix hr hpix ((inRegion_iff ..).2 hin))

theorem srcOff_afterFetch {s : State} {n : Nat} (h : sourceHolds s n) : srcOff (afterFetch s n) = srcOff s + n := by
  have := s.csr.srcLen.isLt
  simp only [sourceHolds, srcOff, srcLen, afterFetch, BitVec.toNat_add, BitVec.toNat_ofNat] at *
  omega

/-- R252: the next pixel is placed. -/
theorem placeNext_ok {s : State} (p : Pixel) (hf : imageFits s) (hk : s.pixK < pixelTotal s) :
    placeNext p s = .ok ()
      { s.pixPut (tgaPlace s s.pixK).1 (tgaPlace s s.pixK).2 p with pixK := s.pixK + 1 } := by
  obtain ⟨hx, hy⟩ := tgaPlace_lt hk
  rw [placeNext, run_readState_bind]
  exact run_bind_ok (pixWrite_inImage p hf hx hy)

/-- `t` is a TGA decode that began in `s` at pixel `k`, after `i` more samples. -/
structure SamplesDone (s : State) (k i : Nat) (t : State) : Prop where
  kept : Kept true (imageRegion s) s t
  same : SameSources s t
  pixK : t.pixK = k + i
  source : srcOff t = srcOff s + i * sampleSize s

section Samples
variable {op : Op} {s t : State} {k i j : Nat}

theorem SamplesDone.sampleSize (h : SamplesDone s k i t) : Machine.sampleSize t = Machine.sampleSize s := by
  rw [h.same.state]
  rfl

theorem SamplesDone.sourceHolds (h : SamplesDone s k i t) (hn : Machine.sourceHolds s ((i + 1) * Machine.sampleSize s)) :
    Machine.sourceHolds t (Machine.sampleSize t) := by
  obtain ⟨-, hl, -⟩ := h.kept.values
  unfold Machine.sourceHolds at *
  rw [h.sampleSize, h.source, hl]
  rw [Nat.succ_mul] at hn
  omega

/-- The next sample is the one that the source held at the start. -/
theorem SamplesDone.sampleBytes (h : SamplesDone s k i t) (hr : ready op 0 s) (hsrc : usesSrc op = true)
    (hpix : usesPix op = true) (hn : Machine.sourceHolds s ((i + 1) * Machine.sampleSize s)) :
    srcBytes t (Machine.sampleSize t) = tgaSampleBytes s i := by
  obtain ⟨hb, -⟩ := h.kept.values
  rw [srcBytes, tgaSampleBytes, h.sampleSize, h.source, hb, ← Nat.add_assoc]
  refine List.map_congr_left fun x hx => h.kept.source_read hr hsrc hpix ?_
  have hx := List.mem_range.mp hx
  unfold Machine.sourceHolds at hn
  rw [Nat.succ_mul] at hn
  rw [inRegion_iff, srcRegion]
  omega

variable (hr : ready op 0 s) (hsrc : usesSrc op = true) (hpix : usesPix op = true)
  (hn : Machine.sourceHolds s ((i + 1) * Machine.sampleSize s))
include hr hsrc hpix hn

/-- A sample that gives its pixel is read and placed. -/
theorem SamplesDone.next {p : Pixel} (h : SamplesDone s k i t) (hk : k + i < pixelTotal s)
    (hg : gives (tgaSample (tgaSampleBytes s i)) s p) : ∃ u, tgaReadSample t = .ok () u ∧ SamplesDone s k (i + 1) u := by
  have hs := hr.sourceFits hsrc
  have hf := hr.imageFits hpix
  have hread := readSrc_afterFetch (h.kept.sourceFits hs) (h.sourceHolds hn)
  have hsame := h.same.trans (sameSources_afterFetch t (Machine.sampleSize t))
  have hplace := placeNext_ok p (hsame.imageFits hf)
    (show t.pixK < pixelTotal t by rw [h.pixK, h.kept.pixelTotal]; exact hk)
  rw [h.sampleBytes hr hsrc hpix hn] at hread
  have hrun : tgaReadSample t = placeNext p (afterFetch t (Machine.sampleSize t)) := by
    rw [tgaReadSample, run_readState_bind, run_bind_ok hread, run_bind_ok (looksOnly_tgaSample _ s _ p hsame hg)]
  rw [hplace] at hrun
  refine ⟨_, hrun, ?_, hsame.trans ⟨rfl, rfl, rfl, rfl⟩, ?_, ?_⟩
  · have := (keeps_tgaReadSample h.kept hs hf (by rw [h.pixK]; exact hk)).after
    rw [hrun] at this
    exact h.kept.trans this
  · show t.pixK + 1 = k + (i + 1)
    rw [h.pixK, Nat.add_assoc]
  · show srcOff (afterFetch t (Machine.sampleSize t)) = _
    rw [srcOff_afterFetch (h.sourceHolds hn), h.sampleSize, h.source, Nat.succ_mul, Nat.add_assoc]

/-- A sample that needs an unwritten entry stops the decode. -/
theorem SamplesDone.stops (h : SamplesDone s k i t) (hu : needsEntry (tgaSample (tgaSampleBytes s i)) s j) :
    stopsAt j (tgaReadSample t) := by
  have hread := readSrc_afterFetch (h.kept.sourceFits (hr.sourceFits hsrc)) (h.sourceHolds hn)
  rw [h.sampleBytes hr hsrc hpix hn] at hread
  rw [tgaReadSample, run_readState_bind]
  exact .after hread (.bind ⟨_, _, needsOnly_tgaSample _ s _ j (h.same.trans (sameSources_afterFetch t _)) hu⟩)

end Samples

theorem sourceHolds_mono {s : State} {i n m : Nat} (h : sourceHolds s (n * m)) (hi : i < n) : sourceHolds s ((i + 1) * m) :=
  Nat.le_trans (Nat.add_le_add_left (Nat.mul_le_mul_right m hi) _) h

/-- R250, R254: a loop over samples stops at the first that needs an unwritten entry; a round reads one sample. -/
theorem samples_stop {op : Op} {s t : State} {k n m j : Nat} {body : Nat → Eng Unit} (hr : ready op 0 s)
    (hsrc : usesSrc op = true) (hpix : usesPix op = true) (h0 : SamplesDone s k 0 t) (hm : n ≤ m)
    (hk : k + n ≤ pixelTotal s) (hn : sourceHolds s (n * sampleSize s))
    (hbody : ∀ i u, sourceHolds u (sampleSize u) → body i u = tgaReadSample u)
    (hu : firstUnwritten s n (fun k => tgaSample (tgaSampleBytes s k)) j) : stopsAt j (forUpTo m body t) := by
  obtain ⟨l, hl, hneed, hg⟩ := hu
  refine .forUpTo (SamplesDone s k) (Nat.lt_of_lt_of_le hl hm) h0 (fun i hi u h => ?_) fun u h => ?_
  · obtain ⟨p, hp⟩ := hg i hi
    have hi' := sourceHolds_mono hn (Nat.lt_trans hi hl)
    rw [hbody i u (h.sourceHolds hi')]
    exact h.next hr hsrc hpix hi' (by omega) hp
  · have hl' := sourceHolds_mono hn hl
    rw [hbody l u (h.sourceHolds hl')]
    exact h.stops hr hsrc hpix hl' hneed

theorem packetTooLong_fits {n : Nat} {s : State} (h : s.pixK + n ≤ pixelTotal s) : packetTooLong n s = .ok () s := by
  rw [packetTooLong, run_readState_bind, run_ite, if_neg (Nat.not_lt.mpr h), run_pure]

theorem sampleCut_fits {s : State} (h : sourceHolds s (sampleSize s)) : sampleCut s = .ok () s := by
  rw [sampleCut, run_readState_bind, run_ite, if_neg (Nat.not_lt.mpr h), run_pure]

theorem samplesDone_zero (s : State) : SamplesDone s s.pixK 0 s :=
  ⟨.refl .., .refl s, rfl, by rw [Nat.zero_mul, Nat.add_zero]⟩

/-- R254. -/
theorem tgaRaw_stops {s : State} {n m j : Nat} (hr : ready .tgaDecodeRle 0 s) (hk : s.pixK + m ≤ pixelTotal s)
    (hm : n ≤ m) (hn : sourceHolds s (n * sampleSize s))
    (hu : firstUnwritten s n (fun k => tgaSample (tgaSampleBytes s k)) j) : stopsAt j (tgaRaw m s) := by
  refine .after (packetTooLong_fits hk) (samples_stop hr rfl rfl (samplesDone_zero s) hm (by omega) hn ?_ hu)
  intro i u h
  rw [run_bind_ok (sampleCut_fits h)]

/-- R253. -/
theorem tgaRun_stops {s : State} {m j : Nat} (hr : ready .tgaDecodeRle 0 s) (hk : s.pixK + m ≤ pixelTotal s)
    (hn : sourceHolds s (sampleSize s)) (hu : needsEntry (tgaSample (tgaSampleBytes s 0)) s j) : stopsAt j (tgaRun m s) := by
  have hread := readSrc_afterFetch (hr.sourceFits rfl) hn
  have hbytes := (samplesDone_zero s).sampleBytes hr rfl rfl (by simpa using hn)
  rw [hbytes] at hread
  refine .after (packetTooLong_fits hk) (.after (sampleCut_fits hn) ?_)
  rw [run_readState_bind]
  exact .after hread (.bind ⟨_, _, needsOnly_tgaSample _ s _ j (sameSources_afterFetch s _) hu⟩)

/-- R250. -/
theorem tgaDecodeRaw_stops {s : State} {n j : Nat} (hr : ready .tgaDecodeRaw 0 s) (hm : n ≤ pixelTotal s)
    (hn : sourceHolds s (n * sampleSize s)) (hu : firstUnwritten s n (fun k => tgaSample (tgaSampleBytes s k)) j) :
    stopsAt j (tgaDecodeRawBody { s with outN := 0 }) := by
  have h0 : SamplesDone s 0 0 { s with outN := 0, pixK := 0 } :=
    ⟨.internal true _ s s.x s.y s.line 0 0 s.row s.exhausted, ⟨rfl, rfl, rfl, rfl⟩, rfl, (samplesDone_zero s).source⟩
  rw [tgaDecodeRawBody, run_update_bind, run_readState_bind]
  exact samples_stop hr rfl rfl h0 hm (by omega) hn (fun _ _ _ => rfl) hu

/-! ### PCX scanlines -/

/-- R240: a scanline whose LINE is filled stops at its first pixel that needs an unwritten entry. -/
theorem finishScanline_stops {z t : State} {j : Nat} (hf : imageFits z) (hrow : t.row < height z)
    (hz : SameSources z { t with line := t.line ++ List.replicate (pcxStride t - t.line.length) 0 })
    (hu : firstUnwritten z (width z) pcxPixel j) : stopsAt j (finishScanline t) := by
  obtain ⟨k, hk, hneed, hg⟩ := hu
  rw [finishScanline, zeroFillLine, run_update_bind]
  refine stopsAt.bind ?_
  rw [assembleRow, run_readState_bind, hz.width]
  exact hz.row_stops hf hrow looksOnly_pcxPixel needsOnly_pcxPixel hk hg hneed

/-- R241: the line that an uncompressed scanline takes is full. -/
theorem scanRaw_ok {s : State} {n : Nat} (hs : sourceFits s) (h : srcOff s ≤ srcLen s)
    (hn : n = min (pcxStride s) (srcLen s - srcOff s)) :
    scanRaw s = .ok () { afterFetch s n with line := (withLine s (srcBytes s n)).line } := by
  have hh : sourceHolds s n := by unfold sourceHolds; omega
  rw [scanRaw, run_readState_bind, ← hn, run_bind_ok (takeSrc_afterFetch hs hh)]
  rfl

theorem withLine_full {s : State} {data : List Byte} (h : data.length ≤ pcxStride s) :
    (withLine s data).line.length = pcxStride s := by
  rw [withLine, List.length_append, List.length_replicate, Nat.add_sub_cancel' h]

/-- R240, R241, R242: the engine's step that ends a scanline, of either encoding, stops at the first pixel of the line that
needs an unwritten entry. -/
theorem scanline_stops {s z : State} {j : Nat} (hp : s.phase = .pcx) (hr : ready .pcxDecode 0 s) (hrow : s.row < height s)
    (hz : (pcxEncoding s = 1 ∧ scanlineOver s = true ∧ s.line.length ≤ pcxStride s ∧ z = withLine s s.line) ∨
      (pcxEncoding s = 0 ∧ z = withLine s (srcBytes s (min (pcxStride s) (srcLen s - srcOff s)))))
    (hu : firstUnwritten z (width s) pcxPixel j) : stopsUnwritten s j (engineStep s) := by
  have hs := hr.sourceFits rfl
  have hf := hr.imageFits rfl
  have loop : LoopEnd .pcxDecode s (engineStep s) := engineStep_loop (by rw [hp]; rfl) hr fun _ => hrow
  suffices h : ∃ m : Eng Unit, engineStep s = conclude .pcxDecode afterScanline (m s) ∧ stopsAt j (m s) by
    obtain ⟨m, e, made, t, h⟩ := h
    exact loop.stopsUnwritten (made := made) (by rw [e, h]; rfl)
  rcases hz with ⟨henc, hover, -, rfl⟩ | ⟨henc, rfl⟩
  · refine ⟨finishScanline, ?_, finishScanline_stops (z := withLine s s.line) hf hrow ⟨rfl, rfl, rfl, rfl⟩ hu⟩
    simp [engineStep, engineAction, hp, henc, hover, pcxLineEnd]
  · refine ⟨do scanRaw; finishScanline, ?_, .after (scanRaw_ok hs (hr.source rfl) rfl)
      (finishScanline_stops (z := withLine s (srcBytes s (min (pcxStride s) (srcLen s - srcOff s)))) hf hrow
        ⟨rfl, rfl, rfl, ?_⟩ hu)⟩
    · simp [engineStep, engineAction, hp, henc, pcxRawLine]
    · show (withLine s _).line ++ List.replicate (pcxStride s - (withLine s _).line.length) 0 = (withLine s _).line
      rw [withLine_full (by rw [srcBytes, Memory.bytesAt_length]; exact Nat.min_le_left _ _), Nat.sub_self,
        List.replicate_zero, List.append_nil]

/-! ### The obligation -/

/-- Settles O16, one clause per family. -/
theorem unwrittenEntryFaults : Obligations.UnwrittenEntryFaults := by
  intro s j
  refine ⟨fun i n index hf hi hu => ?_, fun stride hr hstride hn hu => ?_, fun n hr hm hn hu => ?_,
    fun h hr hk => ⟨fun hn hu => ?_, fun n hm hn hu => ?_⟩, fun z hp hr hrow hz hu => scanline_stops hp hr hrow hz hu⟩
  · rcases hi with ⟨c, v, rfl, rfl, rfl⟩ | ⟨c, hi, lo, rfl, rfl, rfl⟩ | ⟨c, rfl, rfl, hs, hn, rfl⟩ |
      ⟨c, rfl, rfl, hs, hn, rfl⟩
    · exact stopsUnwritten_token (kc := true) nofun (keeps_placeIndices (.refl ..) hf _ _)
        (placeIndices_stops (.refl s) rfl rfl hf hu)
    · exact stopsUnwritten_token (kc := true) nofun (keeps_placeIndices (.refl ..) hf _ _)
        (placeIndices_stops (.refl s) rfl rfl hf hu)
    · exact stopsUnwritten_token (kc := true) nofun (keeps_abs8 c hs hf)
        (fetchThenPlace_stops (index := fun data k => (data.getD k 0).toNat) hs hf hn hu)
    · exact stopsUnwritten_token (kc := true) nofun (keeps_abs4 c hs hf)
        (fetchThenPlace_stops (index := fun data k => nibbleIndex (data.getD (k / 2) 0) k) hs hf hn hu)
  · exact stopsUnwritten_command rfl hr
      (bmpDecodeRawBody_stops (hr.sourceFits rfl) (hr.imageFits rfl) hstride hn hu)
  · exact stopsUnwritten_command rfl hr (tgaDecodeRaw_stops hr hm hn hu)
  · obtain ⟨k, -, hneed, -⟩ := hu
    exact stopsUnwritten_token (kc := true) nofun (keeps_tgaRun _ (hr.sourceFits rfl) (hr.imageFits rfl))
      (tgaRun_stops hr hk hn hneed)
  · exact stopsUnwritten_token (kc := true) nofun (keeps_tgaRaw _ (hr.sourceFits rfl) (hr.imageFits rfl))
      (tgaRaw_stops hr hk hm hn hu)

end Sys2Proof.Machine
end

section
/-!
PROOFS. The bytes that an engine step may change (20_memory.md R71, R77), read off the ends of `engineStep_end`.
-/

namespace Sys2Proof.Machine

/-- Engine work changes bytes of its region only. -/
theorem Kept.inRegion_of_changed {kc : Bool} {R : Nat × Nat} {s t : State} (h : Kept kc R s t) {a : Nat}
    (ha : t.mem.read a ≠ s.mem.read a) : inRegion a R = true := by
  obtain ⟨evs, -, hmem, hw⟩ := h.trace
  rw [hmem] at ha
  exact (inRegion_iff ..).2 (Memory.inRegion_of_replay evs.reverse
    (fun e he hk => (inRegion_iff ..).1 (hw e (List.mem_reverse.mp he) hk)) ha)

/-- The end of a command writes no memory (R145). -/
@[simp] theorem endCommand_mem (op : Op) (started : Bool) (c : Code) (s : State) :
    (endCommand op started c s).mem = s.mem := by
  cases op <;> cases started <;> rfl

@[simp] theorem afterOf_mem (i : Instr) (s : State) : (afterOf i s).mem = s.mem := by
  rcases afterOf_cases i with e | ⟨ph, -, e⟩
  · rw [e, endCommand_mem]
  · rw [e]

/-- A byte that an engine step changes is in the region that its command writes, and the command is ready: only the body of
a command and the steps of its loop write memory. -/
theorem engineStep_changed {s t : State} {a : Nat} (hi : Inv s) (h : engineStep s = .next t)
    (ha : t.mem.read a ≠ s.mem.read a) :
    ∃ i, decodeCommand s.csr.cmd = .ok i ∧ ready (opOf i) (argOf i) s ∧ inRegion a (writeRegion (opOf i) s) = true := by
  have he := engineStep_end hi
  rw [h] at he
  cases he with
  | idle => exact absurd rfl ha
  | reserved => exact absurd rfl ha
  | gate i c => rw [endCommand_mem] at ha; exact absurd rfl ha
  | command i _ _ hd hr he =>
    refine ⟨i, hd, hr, ?_⟩
    cases he with
    | done u hk => rw [afterOf_mem] at ha; exact hk.inRegion_of_changed ha
    | failed u c hk => rw [endCommand_mem] at ha; exact hk.inRegion_of_changed ha
  | loop op _ hp he =>
    have hrun := hi.running op hp
    obtain ⟨i, hd, rfl⟩ := hrun.selected
    obtain ⟨harg, -, -, hregion⟩ := (phaseOp_loopOp hp).command s
    refine ⟨i, hd, harg ▸ hrun.ready, ?_⟩
    rw [hregion]
    cases he with
    | goes kc u hk => exact hk.inRegion_of_changed ha
    | ends kc u c hk => rw [endCommand_mem] at ha; exact hk.inRegion_of_changed ha

/-- The region that a command writes: the image of a decoder, the OUT region of an encoder, nothing of a palette loader. -/
theorem inRegion_writeRegion {op : Op} {s : State} {a : Nat} (h : inRegion a (writeRegion op s) = true) :
    (usesOut op = false ∧ usesPix op = true ∧ inRegion a (imageRegion s) = true) ∨
      (usesOut op = true ∧ inRegion a (outRegion s) = true) := by
  unfold writeRegion at h
  split at h
  · next ho => exact .inr ⟨ho, h⟩
  · next ho =>
    split at h
    · next hp => exact .inl ⟨by simpa using ho, hp, h⟩
    · simp [inRegion] at h

/-- The encoders read PIX and not SRC (R150). -/
theorem usesOut_regions {op : Op} (h : usesOut op = true) : usesSrc op = false ∧ usesPix op = true := by
  cases op with
  | bmpEncode | tgaEncode => exact ⟨rfl, rfl⟩
  | _ => cases h

/-- Settles O59: a changed byte is in the region that the command writes, which shares no address with its source. -/
theorem engineWritesOnlyItsRegions : Obligations.EngineWritesOnlyItsRegions := by
  intro s t i a hi hd ht ha
  obtain ⟨j, hj, hr, hin⟩ := engineStep_changed hi ht ha
  obtain rfl : i = j := Except.ok.inj (hd.symm.trans hj)
  rcases inRegion_writeRegion hin with ⟨ho, hp, himg⟩ | ⟨ho, hout⟩
  · refine ⟨.inl ⟨ho, hp, (inRegion_iff ..).1 himg⟩, fun hsrc => ?_⟩
    exact Bool.eq_false_iff.2 fun h => hr.disjoint hsrc hp h (imageRegion_pix hr hp himg)
  · refine ⟨.inr ⟨ho, hout⟩, fun hsrc => ?_⟩
    rw [(usesOut_regions ho).1] at hsrc
    cases hsrc

end Sys2Proof.Machine
end

section
/-!
PROOFS. Register accesses that are not aligned 32-bit ones (20_memory.md R84).
-/

namespace Sys2Proof.Machine

theorem goodAccess_eq_false {off : BitVec 8} {w : Width} (h : w ≠ .word ∨ off.toNat % 4 ≠ 0) :
    goodAccess off w = false := by
  rw [goodAccess, Bool.and_eq_false_iff, decide_eq_false_iff_not, decide_eq_false_iff_not]
  exact h

/-- Settles O48: the window looks at the access before anything else. -/
theorem unalignedAccessIsRefused : Obligations.UnalignedAccessIsRefused := by
  intro off w v s h
  have hbad := goodAccess_eq_false h
  exact ⟨by simp [hostWrite, hbad], by simp [hostRead, hbad]⟩

end Sys2Proof.Machine
end

section
/-!
PROOFS. The encoders as emitters of bytes (20_memory.md R80; 42_bmp_rle8_encode.md R220; 43_scanline_codec.md R260): the body
of an encoder puts out exactly its output, or its first OUT_CAP bytes and then Generic.
-/

namespace Sys2Proof.Machine

/-! ### States that have put out some bytes -/

/-- `t` is `s` after the bytes `bs`, which OUT_CAP holds, were put out from OUT_BASE on. -/
structure Emitted (s t : State) (bs : List Byte) : Prop where
  state : t = { s with mem := s.mem.writeBytes (outBase s) bs, history := t.history, outN := bs.length }
  fits : bs.length ≤ outCap s

theorem Emitted.none (s : State) : Emitted s { s with outN := 0 } [] := ⟨rfl, Nat.zero_le _⟩

section Emitted
variable {s t : State} {done : List Byte} (h : Emitted s t done)
include h

theorem Emitted.csr : t.csr = s.csr := by rw [h.state]

theorem Emitted.mem : t.mem = s.mem.writeBytes (outBase s) done := by rw [h.state]

theorem Emitted.outN : t.outN = done.length := by rw [h.state]

theorem Emitted.outBase : Machine.outBase t = Machine.outBase s := by rw [Machine.outBase, h.csr]; rfl

theorem Emitted.outCap : Machine.outCap t = Machine.outCap s := by rw [Machine.outCap, h.csr]; rfl

/-- Bus reads do not count as output. -/
theorem Emitted.reads (hist : List BusEvent) : Emitted s { t with history := hist } done :=
  ⟨by rw [h.state], h.fits⟩

theorem Emitted.outputIs : Machine.outputIs s t done := by
  rw [Machine.outputIs, h.mem]
  exact ⟨fun i hi => Memory.read_writeBytes_inside _ _ _ hi, fun a ha => Memory.read_writeBytes_outside _ _ _ ha⟩

/-- Output changes no byte outside the OUT region. -/
theorem Emitted.read_outside {a : Nat} (ha : inRegion a (outRegion s) = false) : t.mem.read a = s.mem.read a := by
  refine h.outputIs.2 a ?_
  have hf := h.fits
  rw [inRegion, outRegion, Bool.and_eq_false_iff, decide_eq_false_iff_not, decide_eq_false_iff_not] at ha
  omega

end Emitted

/-- The PIX and OUT regions of an encoder that is ready share no address (R86). -/
theorem ready.pixOutDisjoint {op : Op} {arg : Byte} {s : State} (hr : ready op arg s) (ho : usesOut op = true) {a : Nat}
    (hpix : inRegion a (pixRegion s) = true) : inRegion a (outRegion s) = false := by
  obtain ⟨hs, hp⟩ := usesOut_regions ho
  have hno := hr.2
  refine Bool.eq_false_iff.2 fun hout => ?_
  have hyes : anyOverlap (regionsOf op s) = true :=
    (anyOverlap_iff _).2 ⟨0, 1, pixRegion s, outRegion s, by decide, by simp [regionsOf, hs, hp],
      by simp [regionsOf, hs, hp, ho], (overlap_iff _ _).2 ⟨a, hpix, hout⟩⟩
  rw [regionsRefusal, if_pos hyes] at hno
  cases hno

section Image
variable {op : Op} {arg : Byte} {s t : State} {done : List Byte} (hr : ready op arg s) (ho : usesOut op = true)
include hr ho

/-- The image that an encoder reads is not changed by what it puts out. -/
theorem Emitted.pixelAt (h : Emitted s t done) {x y : Nat} (hx : x < width s) (hy : y < height s) :
    Machine.pixelAt t x y = Machine.pixelAt s x y := by
  have hp := (usesOut_regions ho).2
  have hlt := pixAddr_lt hx hy
  have haddr : pixAddr t x y = pixAddr s x y := by rw [h.state]; rfl
  rw [Machine.pixelAt, haddr]
  refine congrArg wordFromBytes (List.map_congr_left fun i hi => h.read_outside (hr.pixOutDisjoint ho ?_))
  have hi := List.mem_range.mp hi
  have hbase : pixBase s ≤ pixAddr s x y := by unfold pixAddr; omega
  exact imageRegion_pix hr hp ((inRegion_iff ..).2 (by simp only [imageRegion]; omega))

theorem Emitted.pixRead (h : Emitted s t done) {x y : Nat} (hx : x < width s) (hy : y < height s) :
    ∃ u, Machine.pixRead x y t = .ok (Machine.pixelAt s x y) u ∧ Emitted s u done := by
  have hlt := pixAddr_lt hx hy
  have hf := hr.imageFits (usesOut_regions ho).2
  have haddr : pixAddr t x y = pixAddr s x y := by rw [h.state]; rfl
  unfold imageFits at hf
  have hread := pixRead_ok (s := t) (x := x) (y := y) (by omega)
  rw [← pixelAt_eq_word, h.pixelAt hr ho hx hy] at hread
  exact ⟨_, hread, h.reads _⟩

end Image

/-! ### Operations that put out bytes -/

/-- From every state that has put out some bytes, `m` puts out `bs` after them, or fills the OUT region and raises
Generic (R80). -/
def emits (s : State) (m : Eng Unit) (bs : List Byte) : Prop :=
  ∀ done t, Emitted s t done →
    ((done ++ bs).length ≤ outCap s → ∃ u, m t = .ok () u ∧ Emitted s u (done ++ bs)) ∧
    (outCap s < (done ++ bs).length →
      ∃ u, m t = .error (.raised .generic) u ∧ Emitted s u ((done ++ bs).take (outCap s)))

section Emits
variable {s : State} {as bs : List Byte}

theorem emits_nothing (s : State) : emits s (pure ()) [] := by
  intro done t h
  rw [List.append_nil]
  exact ⟨fun _ => ⟨t, rfl, h⟩, fun hlt => absurd h.fits (by omega)⟩

theorem emits_outBytes (hb : outBase s + outCap s ≤ 2 ^ Config.addrBits) (bs : List Byte) : emits s (outBytes bs) bs := by
  intro done t h
  obtain ⟨hfits, hfull⟩ := outBytes_run (bs := bs) (s := t) (by rw [h.outBase, h.outCap]; exact hb)
  have hle := h.fits
  rw [h.outCap, h.outN, h.outBase] at hfits hfull
  rw [List.length_append]
  constructor
  · intro hlen
    obtain ⟨u, hu, e⟩ := hfits hlen
    refine ⟨u, hu, ?_, by rw [List.length_append]; exact hlen⟩
    rw [e, h.mem, ← Memory.writeBytes_append, List.length_append, h.state]
  · intro hlen
    obtain ⟨u, hu, e⟩ := hfull hlen hle
    have htake : (done ++ bs).take (outCap s) = done ++ bs.take (outCap s - done.length) := by
      rw [List.take_append, List.take_of_length_le hle]
    have hcap : ((done ++ bs).take (outCap s)).length = outCap s := by
      rw [List.length_take, List.length_append]; omega
    refine ⟨u, hu, ?_, hcap.le⟩
    rw [hcap, htake, e, h.mem, ← Memory.writeBytes_append, h.state]

theorem emits.seq {m n : Eng Unit} (hm : emits s m as) (hn : emits s n bs) : emits s (m >>= fun _ => n) (as ++ bs) := by
  intro done t h
  obtain ⟨mfits, mfull⟩ := hm done t h
  rw [← List.append_assoc]
  by_cases hlen : (done ++ as).length ≤ outCap s
  · obtain ⟨u, hu, hdone⟩ := mfits hlen
    rw [run_bind_ok hu]
    exact hn _ u hdone
  · obtain ⟨u, hu, hdone⟩ := mfull (by omega)
    have hlonger : (done ++ as).length ≤ (done ++ as ++ bs).length := by rw [List.length_append (bs := bs)]; omega
    refine ⟨fun hall => absurd hall (by omega), fun _ => ⟨u, run_bind_error hu, ?_⟩⟩
    rw [List.take_append_of_le_length (by omega)]
    exact hdone

theorem emits_forUpTo {n : Nat} {body : Nat → Eng Unit} {out : Nat → List Byte}
    (h : ∀ i, i < n → emits s (body i) (out i)) : emits s (forUpTo n body) ((List.range n).flatMap out) := by
  induction n with
  | zero => exact emits_nothing s
  | succ n ih =>
    rw [List.range_succ, List.flatMap_append, List.flatMap_singleton]
    exact (ih fun i hi => h i (by omega)).seq (h n (by omega))

/-- An operation that reads the state first, and of it the host's registers only. -/
theorem emits_readState {f : State → Eng Unit} (hf : emits s (f s) bs)
    (hc : ∀ t, f t = f { s with csr := t.csr }) : emits s (readState >>= f) bs := by
  intro done t h
  rw [run_readState_bind, hc t, h.csr]
  exact hf done t h

/-- A sequence whose first part puts out nothing and gives `a`. -/
theorem emits_after {α : Type} {m : Eng α} {f : α → Eng Unit} {a : α}
    (hm : ∀ done t, Emitted s t done → ∃ u, m t = .ok a u ∧ Emitted s u done) (hf : emits s (f a) bs) :
    emits s (m >>= f) bs := by
  intro done t h
  obtain ⟨u, hu, hdone⟩ := hm done t h
  rw [run_bind_ok hu]
  exact hf done u hdone

end Emits

/-! ### The bodies of the encoders -/

section Encoders
variable {op : Op} {arg : Byte} {s : State} (hr : ready op arg s) (ho : usesOut op = true)
include hr ho

theorem Emitted.readPixels {y : Nat} (hy : y < height s) (n : Nat) :
    ∀ x, x + n ≤ width s → ∀ done t, Emitted s t done → ∃ u,
      Machine.readPixels y x n t = .ok ((List.range' x n).map fun x => Machine.pixelAt s x y) u ∧ Emitted s u done := by
  induction n with
  | zero => exact fun _ _ done t h => ⟨t, rfl, h⟩
  | succ n ih =>
    intro x hx done t h
    obtain ⟨u, hu, h1⟩ := h.pixRead hr ho (show x < width s by omega) hy
    obtain ⟨v, hv, h2⟩ := ih (x + 1) (by omega) done u h1
    exact ⟨v, by rw [Machine.readPixels, run_bind_ok hu, run_bind_ok hv]; rfl, h2⟩

/-- A row read whole before it is encoded. -/
theorem emits_row {y : Nat} (hy : y < height s) {f : List Pixel → Eng Unit} {bs : List Byte}
    (hf : emits s (f (imageRow s y)) bs) : emits s (readPixels y 0 (width s) >>= f) bs := by
  rw [imageRow, List.range_eq_range'] at hf
  exact emits_after (Emitted.readPixels hr ho hy (width s) 0 (by omega)) hf

theorem emits_bmpEncodeRowRle {y : Nat} (hy : y < height s) :
    emits s (bmpEncodeRowRle y) (encodeRow8 (width s) ((imageRow s y).map luma) ++ [0, 0]) := by
  have hb := hr.outFits ho
  exact emits_readState (emits_row hr ho hy ((emits_outBytes hb _).seq (emits_outBytes hb _))) fun _ => rfl

theorem emits_bmpEncodeRowRaw {y : Nat} (hy : y < height s) :
    emits s (bmpEncodeRowRaw y) ((imageRow s y).flatMap (packAt (outDepth s)) ++
      List.replicate (bmpStride (width s) (outDepth s) - width s * outDepth s / 8) 0) := by
  have hb := hr.outFits ho
  refine emits_readState (.seq ?_ (emits_outBytes hb _)) fun _ => rfl
  rw [imageRow, List.flatMap_map]
  exact emits_forUpTo fun x hx => emits_after (fun _ _ h => h.pixRead hr ho hx hy) (emits_outBytes hb _)

theorem emits_bmpEncodeBody : emits s bmpEncodeBody (bmpOutput s) := by
  refine emits_readState (.seq (emits_forUpTo fun i hi => ?_) ?_) fun _ => rfl
  · have hy : height s - 1 - i < height s := by omega
    unfold bmpRowOutput
    split
    · exact emits_bmpEncodeRowRle hr ho hy
    · exact emits_bmpEncodeRowRaw hr ho hy
  · split
    · exact emits_outBytes (hr.outFits ho) _
    · exact emits_nothing s

theorem emits_tgaEncodeBody : emits s tgaEncodeBody (tgaOutput s) := by
  have hb := hr.outFits ho
  refine emits_readState (emits_forUpTo fun i hi => ?_) fun _ => rfl
  have hy : height s - 1 - i < height s := by omega
  refine emits_readState (emits_row hr ho hy ?_) fun _ => rfl
  unfold tgaRowOutput
  split
  · exact emits_outBytes hb _
  · rw [← List.flatMap_def]
    exact emits_outBytes hb _

end Encoders

/-- The end of an encoder, in the registers of the state it started from (R145). -/
theorem Emitted.endCommand {op : Op} {s u : State} {bs : List Byte} (h : Emitted s u bs) (ho : usesOut op = true) (c : Code) :
    Machine.endCommand op true c u = { ended s c with
      outN := bs.length
      outLen := if c = .success then BitVec.ofNat 32 bs.length else 0
      mem := u.mem
      history := u.history } := by
  have e : Machine.endCommand op true c u = (u.setOutLen c).goIdle c := by
    cases op with
    | bmpEncode | tgaEncode => rfl
    | _ => cases ho
  rw [e, State.setOutLen, h.outN, h.state]
  rfl

/-- An encoder that is ready and puts out more than OUT_CAP bytes ends with Generic (R80, R145). -/
theorem exec_encoder_full {i : Instr} {s : State} {out : List Byte} (hi : i.stream = .command) (ho : usesOut (opOf i) = true)
    (hr : ready (opOf i) (argOf i) s) (hbody : emits s (bodyOf i) out) (hlen : outCap s < out.length) :
    ∃ t, exec i s = .next t ∧
      t = { ended s .generic with outN := outCap s, outLen := 0, mem := t.mem, history := t.history } ∧
      outputIs s t (out.take (outCap s)) := by
  obtain ⟨u, hu, hdone⟩ := (hbody [] _ (.none s)).2 hlen
  rw [List.nil_append] at hdone
  have hend := hdone.endCommand ho .generic
  rw [List.length_take_of_le hlen.le, if_neg (by decide)] at hend
  rw [exec_command hi, runCommand_body hr.1 hr.2, hu, conclude_raised, hend]
  exact ⟨_, rfl, rfl, hdone.outputIs⟩

/-- Settles O38: the body of each encoder puts out its output until OUT is full. -/
theorem encoderOverflowEndsWithGeneric : Obligations.EncoderOverflowEndsWithGeneric := by
  rintro i op s out (⟨rfl, rfl, rfl⟩ | ⟨rfl, rfl, rfl⟩) hr hlen
  · exact exec_encoder_full rfl rfl hr (emits_bmpEncodeBody hr rfl) hlen
  · exact exec_encoder_full rfl rfl hr (emits_tgaEncodeBody hr rfl) hlen

end Sys2Proof.Machine
end

section
/-!
PROOFS. Decoding and encoding undo each other (30_encoding.md R100-R107): one rule per form of word, from the bytes of the
form to the instruction. Both directions are read off these rules, and a reserved opcode ends its command (R101).
-/

namespace Sys2Proof.Machine

/-! ### The command word (R100, R101) -/

/-- The opcodes of the table (R100). -/
def commandOps : List Byte := [0x01, 0x02, 0x10, 0x11, 0x12, 0x18, 0x20, 0x21, 0x28, 0x30]

/-- What a command word decodes to, by its byte OP: a command whose encoding has the word's OP, and its ARG for PAL_LOAD; or
the rejection of a reserved OP. -/
inductive CommandDecode (w : Word) : Except Reject Instr → Prop where
  | command (i : Instr) (hop : commandOps.contains (byteOf w 0) = true) (hs : i.stream = .command)
      (he : encode i = [byteOf w 0, if byteOf w 0 = 1 then byteOf w 1 else 0, 0, 0]) : CommandDecode w (.ok i)
  | reserved (hop : commandOps.contains (byteOf w 0) = false) : CommandDecode w (.error (.reservedOp (byteOf w 0)))

/-- A command of the table, from the number of its opcode. -/
theorem CommandDecode.ofOp {w : Word} {i : Instr} {n : Nat} (h : (byteOf w 0).toNat = n)
    (hop : commandOps.contains (BitVec.ofNat 8 n) = true) (hs : i.stream = .command)
    (he : encode i = [BitVec.ofNat 8 n, if BitVec.ofNat 8 n = 1 then byteOf w 1 else 0, 0, 0]) :
    CommandDecode w (.ok i) := by
  have hb : byteOf w 0 = BitVec.ofNat 8 n := by rw [← h, BitVec.ofNat_toNat, BitVec.setWidth_eq]
  rw [← hb] at hop he
  exact .command i hop hs he

theorem decodeCommand_cases (w : Word) : CommandDecode w (decodeCommand w) := by
  unfold decodeCommand
  split
  case h_11 =>
    refine .reserved ?_
    simp only [commandOps, List.contains_eq_mem, decide_eq_false_iff_not, List.mem_cons, List.not_mem_nil, or_false,
      BitVec.toNat_eq]
    tauto
  all_goals
    rename_i h
    exact .ofOp h (by decide) rfl rfl

theorem decodeCommand_reserved {w : Word} (h : commandOps.contains (byteOf w 0) = false) :
    decodeCommand w = .error (.reservedOp (byteOf w 0)) := by
  have hc := decodeCommand_cases w
  generalize decodeCommand w = r at hc
  cases hc with
  | command i hop => rw [h] at hop; cases hop
  | reserved => rfl

theorem byteOf_zero_wordOfBytes (b0 b1 b2 b3 : Byte) : byteOf (wordOfBytes b0 b1 b2 b3) 0 = b0 := by
  apply BitVec.eq_of_toNat_eq
  simp only [byteOf, wordOfBytes, BitVec.extractLsb'_toNat, BitVec.toNat_ofNat]
  omega

theorem byteOf_one_wordOfBytes (b0 b1 b2 b3 : Byte) : byteOf (wordOfBytes b0 b1 b2 b3) 1 = b1 := by
  apply BitVec.eq_of_toNat_eq
  simp only [byteOf, wordOfBytes, BitVec.extractLsb'_toNat, BitVec.toNat_ofNat, Nat.shiftRight_eq_div_pow]
  omega

theorem decodeCommand_palLoad {w : Word} (h : byteOf w 0 = 1) : decodeCommand w = .ok (.palLoad (byteOf w 1)) := by
  have h1 : (w.extractLsb' 0 8).toNat = 1 := congrArg BitVec.toNat h
  simp only [decodeCommand, h1]
  rfl

/-! ### The pairs of the BMP RLE streams (R102-R105) -/

/-- A pair of bytes is an escape, an absolute run or a run (R102). -/
theorem pair_cases (b0 b1 : Byte) :
    b0 = 0 ∧ (b1 = 0 ∨ b1 = 1 ∨ b1 = 2 ∨ wfAbsCount b1 = true) ∨ wfRunCount b0 = true := by
  simp only [wfAbsCount, wfRunCount, decide_eq_true_eq, bne_iff_ne, BitVec.toNat_eq, ne_eq, BitVec.ofNat_eq_ofNat,
    BitVec.toNat_ofNat]
  omega

theorem decodeRle8_run8 {c : Byte} (h : wfRunCount c = true) (v : Byte) : decodeRle8 c v = .run8 c v :=
  if_neg (bne_iff_ne.mp h)

theorem decodeRle4_run4 {c : Byte} (h : wfRunCount c = true) (v : Byte) :
    decodeRle4 c v = .run4 c (v.extractLsb' 4 4) (v.extractLsb' 0 4) :=
  if_neg (bne_iff_ne.mp h)

theorem decodeRle8_abs8 {n : Byte} (h : wfAbsCount n = true) : decodeRle8 0 n = .abs8 n := by
  have h3 : 3 ≤ n.toNat := of_decide_eq_true h
  rw [decodeRle8, if_pos rfl]
  split
  case h_4 => rfl
  all_goals omega

theorem decodeRle4_abs4 {n : Byte} (h : wfAbsCount n = true) : decodeRle4 0 n = .abs4 n := by
  have h3 : 3 ≤ n.toNat := of_decide_eq_true h
  rw [decodeRle4, if_pos rfl]
  split
  case h_4 => rfl
  all_goals omega

/-! ### The bytes of the PCX and TGA streams (R106, R107) -/

/-- The two top bits of a literal are not both 1 (R106). -/
theorem wfLiteral_iff (b : Byte) : wfLiteral b = true ↔ b.extractLsb' 6 2 ≠ 3 := by
  simp only [wfLiteral, decide_eq_true_eq, ne_eq, BitVec.toNat_eq, BitVec.extractLsb'_toNat,
    BitVec.ofNat_eq_ofNat, BitVec.toNat_ofNat, Nat.shiftRight_eq_div_pow]
  omega

theorem decodePcx_pcxRep (k : BitVec 6) : decodePcx ((3 : BitVec 2) ++ k) = .pcxRep k := by
  rw [decodePcx, if_pos BitVec.extractLsb'_append_eq_left, BitVec.extractLsb'_append_eq_right]

theorem decodePcx_pcxLit {b : Byte} (h : wfLiteral b = true) : decodePcx b = .pcxLit b :=
  if_neg ((wfLiteral_iff b).1 h)

theorem decodeTga_tgaRun (n : BitVec 7) : decodeTga ((1 : BitVec 1) ++ n) = .tgaRun n := by
  rw [decodeTga, if_pos BitVec.extractLsb'_append_eq_left, BitVec.extractLsb'_append_eq_right]

theorem decodeTga_tgaRaw (n : BitVec 7) : decodeTga ((0 : BitVec 1) ++ n) = .tgaRaw n := by
  rw [decodeTga, BitVec.extractLsb'_append_eq_left, if_neg (by decide), BitVec.extractLsb'_append_eq_right]

/-- A byte of a PCX scanline is a repeat or a literal (R106). -/
theorem pcxByte_cases (b : Byte) : (∃ k : BitVec 6, b = (3 : BitVec 2) ++ k) ∨ wfLiteral b = true := by
  have hb : b.extractLsb' 6 2 ++ b.extractLsb' 0 6 = b := BitVec.extractLsb'_append_extractLsb'
  by_cases h : b.extractLsb' 6 2 = 3
  · rw [h] at hb
    exact .inl ⟨_, hb.symm⟩
  · exact .inr ((wfLiteral_iff b).2 h)

/-- A TGA header is the header of a run or of a raw packet (R107). -/
theorem tgaHeader_cases (h : Byte) : ∃ n : BitVec 7, h = (1 : BitVec 1) ++ n ∨ h = (0 : BitVec 1) ++ n := by
  have hb : h.extractLsb' 7 1 ++ h.extractLsb' 0 7 = h := BitVec.extractLsb'_append_extractLsb'
  rcases BitVec.eq_zero_or_eq_one (h.extractLsb' 7 1) with h7 | h7 <;> rw [h7] at hb
  · exact ⟨_, .inr hb.symm⟩
  · exact ⟨_, .inl hb.symm⟩

/-! ### From an instruction to its bytes and back -/

/-- An instruction comes back from `decode` when it is the one that its stream's own decoder makes of its first bytes. -/
theorem decode_of_token {i token : Instr} {rest : List Byte} (hd : decode i.stream (encode i ++ rest) = .ok (token, rest))
    (h : token = i) : decode i.stream (encode i ++ rest) = .ok (i, rest) := by
  rw [hd, h]

/-- Settles O1, by the rule of each instruction's form; the words and pairs with no operand evaluate. -/
theorem decodeOfEncodeIsTheInstruction : Obligations.DecodeOfEncodeIsTheInstruction := by
  intro i rest hwf
  cases i with
  | palLoad arg =>
    simp only [Instr.stream, encode, List.cons_append, List.nil_append, decode]
    rw [decodeCommand_palLoad (byteOf_zero_wordOfBytes _ _ _ _), byteOf_one_wordOfBytes]
  | abs8 n => exact decode_of_token rfl (decodeRle8_abs8 hwf)
  | run8 c v => exact decode_of_token rfl (decodeRle8_run8 hwf v)
  | abs4 n => exact decode_of_token rfl (decodeRle4_abs4 hwf)
  | run4 c hi lo =>
    have h : decodeRle4 c (hi ++ lo) = .run4 c hi lo := by
      rw [decodeRle4_run4 hwf, BitVec.extractLsb'_append_eq_left, BitVec.extractLsb'_append_eq_right]
    exact decode_of_token rfl h
  | pcxRep k => exact decode_of_token rfl (decodePcx_pcxRep k)
  | pcxLit b => exact decode_of_token rfl (decodePcx_pcxLit hwf)
  | tgaRun n => exact decode_of_token rfl (decodeTga_tgaRun n)
  | tgaRaw n => exact decode_of_token rfl (decodeTga_tgaRaw n)
  | _ => rfl

/-! ### From stream bytes to a token and back -/

theorem decodeRle8_bytes (b0 b1 : Byte) :
    (decodeRle8 b0 b1).wf = true ∧ encode (decodeRle8 b0 b1) = [b0, b1] := by
  rcases pair_cases b0 b1 with ⟨rfl, rfl | rfl | rfl | h⟩ | h
  · exact ⟨rfl, rfl⟩
  · exact ⟨rfl, rfl⟩
  · exact ⟨rfl, rfl⟩
  · rw [decodeRle8_abs8 h]
    exact ⟨h, rfl⟩
  · rw [decodeRle8_run8 h]
    exact ⟨h, rfl⟩

theorem decodeRle4_bytes (b0 b1 : Byte) :
    (decodeRle4 b0 b1).wf = true ∧ encode (decodeRle4 b0 b1) = [b0, b1] := by
  rcases pair_cases b0 b1 with ⟨rfl, rfl | rfl | rfl | h⟩ | h
  · exact ⟨rfl, rfl⟩
  · exact ⟨rfl, rfl⟩
  · exact ⟨rfl, rfl⟩
  · rw [decodeRle4_abs4 h]
    exact ⟨h, rfl⟩
  · have hb1 : b1.extractLsb' 4 4 ++ b1.extractLsb' 0 4 = b1 := BitVec.extractLsb'_append_extractLsb'
    rw [decodeRle4_run4 h, encode, hb1]
    exact ⟨h, rfl⟩

theorem decodePcx_bytes (b : Byte) : (decodePcx b).wf = true ∧ encode (decodePcx b) = [b] := by
  rcases pcxByte_cases b with ⟨k, rfl⟩ | h
  · rw [decodePcx_pcxRep]
    exact ⟨rfl, rfl⟩
  · rw [decodePcx_pcxLit h]
    exact ⟨h, rfl⟩

theorem decodeTga_bytes (h : Byte) : (decodeTga h).wf = true ∧ encode (decodeTga h) = [h] := by
  obtain ⟨n, rfl | rfl⟩ := tgaHeader_cases h
  · rw [decodeTga_tgaRun]
    exact ⟨rfl, rfl⟩
  · rw [decodeTga_tgaRaw]
    exact ⟨rfl, rfl⟩

/-- Settles O2, stream by stream. -/
theorem everyStreamByteIsPartOfAToken : Obligations.EveryStreamByteIsPartOfAToken := by
  intro b0 b1
  obtain ⟨wf8, enc8⟩ := decodeRle8_bytes b0 b1
  obtain ⟨wf4, enc4⟩ := decodeRle4_bytes b0 b1
  obtain ⟨wfPcx, encPcx⟩ := decodePcx_bytes b0
  obtain ⟨wfTga, encTga⟩ := decodeTga_bytes b0
  exact ⟨⟨wf8, (decodeRle8_token b0 b1).1, enc8⟩, ⟨wf4, (decodeRle4_token b0 b1).1, enc4⟩,
    ⟨wfPcx, (decodePcx_token b0).1, encPcx⟩, ⟨wfTga, (decodeTga_token b0).1, encTga⟩⟩

/-! ### Words, opcodes and reserved opcodes -/

/-- Settles O3: each word is a literal, so its decoding evaluates. -/
theorem wordsOfTheSpecDecode : Obligations.WordsOfTheSpecDecode := by
  unfold Obligations.WordsOfTheSpecDecode
  decide

/-- Settles O4: each clause is read off what the word decodes to. -/
theorem tenOpcodesDecode : Obligations.TenOpcodesDecode := by
  intro w
  have hc := decodeCommand_cases w
  generalize decodeCommand w = r at hc
  cases hc with
  | command i hop hs he => exact ⟨⟨fun _ => hop, fun _ => ⟨i, rfl⟩⟩, by rintro _ ⟨⟩; exact ⟨hs, he⟩⟩
  | reserved hop =>
    refine ⟨⟨fun ⟨_, h⟩ => (by cases h), fun h => ?_⟩, fun _ h => (by cases h)⟩
    rw [commandOps, h] at hop
    cases hop

/-- Settles O43: a reserved OP is rejected, and the engine's step on a rejected word is the end with Generic. -/
theorem reservedOpcodeEndsWithGeneric : Obligations.ReservedOpcodeEndsWithGeneric := by
  intro s hturns hphase hop
  rw [step_engine hturns, engineStep_reserved hphase (decodeCommand_reserved hop)]
  rfl

end Sys2Proof.Machine
end

section
/-!
PROOFS. The start of a command (40_commands.md R140-R154): which move a step is, when each list of gates passes, and how a
command ends whose gate fails.
-/

namespace Sys2Proof.Machine

/-! ### The move of a step (log 1) -/

/-- With a script a step is its next move, on the state without that move (log 1). -/
theorem step_scripted {s : State} {m : Turn} {rest : List Turn} (h : s.turns = m :: rest) :
    step s = turnStep engineStep m { s with turns := rest } := by
  simp only [step, nextTurn, h]

/-- Settles O5, by the rules of a move and of an engine step. -/
theorem stepRunsTheStartedCommand : Obligations.StepRunsTheStartedCommand :=
  fun _ _ _ _ => ⟨step_scripted, step_engine, engineStep_start, engineStep_idle⟩

/-! ### A gate that fails (R143, R145, R341) -/

/-- The code of a list of gates is that of one of them. -/
theorem mem_of_firstFailing {gs : List (Bool × Code)} {c : Code} (h : firstFailing gs = some c) : ∃ g ∈ gs, g.2 = c := by
  induction gs with
  | nil => cases h
  | cons g gs ih =>
    obtain ⟨b, d⟩ := g
    cases b with
    | true => exact ⟨_, List.mem_cons_self, Option.some.inj h⟩
    | false =>
      obtain ⟨g, hg, hc⟩ := ih h
      exact ⟨g, List.mem_cons_of_mem _ hg, hc⟩

theorem commonGates_error {op : Op} {arg : Byte} {s : State} : ∀ g ∈ commonGates op arg s, g.2 ≠ .success := by
  simp [commonGates]

theorem formatGates_error {op : Op} {s : State} : ∀ g ∈ formatGates op s, g.2 ≠ .success := by
  cases op <;> simp [formatGates, bmpGates, tgaGates, pcxGates, encodeGates]

theorem check_error {op : Op} {arg : Byte} {s : State} {c : Code} (h : check op arg s = some c) : c ≠ .success := by
  obtain ⟨g, hg, rfl⟩ := mem_of_firstFailing h
  rcases List.mem_append.mp hg with hg | hg
  · exact commonGates_error g hg
  · exact formatGates_error g hg

/-- The end at a failed gate: of the result registers only an encoder's OUT_LEN is written (R145). -/
theorem endCommand_gate (op : Op) {c : Code} (hc : c ≠ .success) (s : State) :
    endCommand op false c s = { ended s c with outLen := if usesOut op = true then 0 else s.outLen } := by
  cases op with
  | bmpEncode | tgaEncode => simp only [endCommand, State.setOutLen, if_neg hc]; rfl
  | _ => rfl

/-- Settles O42: every gate's code is an error, so an encoder's end sets OUT_LEN to 0. -/
theorem failedGateEndsTheCommand : Obligations.FailedGateEndsTheCommand := by
  intro i c s hi hr hgate
  have hc := check_error hgate
  refine ⟨hc, ?_⟩
  rw [exec_command hi, runCommand_gate hgate hr, endCommand_gate _ hc]
  rfl

/-! ### When the gates pass (R143, R151-R154) -/

@[simp] theorem firstFailing_cons_none {b : Bool} {c : Code} {gs : List (Bool × Code)} :
    firstFailing ((b, c) :: gs) = none ↔ b = false ∧ firstFailing gs = none := by
  cases b <;> simp [firstFailing]

@[simp] theorem firstFailing_nil : firstFailing [] = none := rfl

theorem check_none {op : Op} {arg : Byte} {s : State} :
    check op arg s = none ↔ firstFailing (commonGates op arg s) = none ∧ firstFailing (formatGates op s) = none := by
  rw [check, firstFailing_none, firstFailing_none, firstFailing_none, List.forall_mem_append]

theorem bits_lt {n : Nat} (v : BitVec n) (lo len : Nat) : bits v lo len < 2 ^ len :=
  Nat.mod_lt _ (Nat.two_pow_pos len)

/-- The regions that a command uses are well formed (R71, R150). -/
theorem regionsOf_fit {op : Op} {s : State} : (regionsOf op s).any (fun r => !regionFits r) = false ↔
    (usesSrc op = true → sourceFits s) ∧ (usesPix op = true → pixBase s + pixCap s ≤ 2 ^ Config.addrBits) ∧
    (usesOut op = true → outBase s + outCap s ≤ 2 ^ Config.addrBits) := by
  have region (u : Bool) (r : Nat × Nat) : (∀ q ∈ (if u = true then [r] else []), regionFits q = true) ↔
      (u = true → r.1 + r.2 ≤ 2 ^ Config.addrBits) := by
    cases u <;> simp [regionFits]
  simp only [List.any_eq_false, Bool.not_eq_true, Bool.not_eq_false', regionsOf, List.forall_mem_append, region, and_assoc]
  rfl

/-- Gates 2 to 7 pass (R143). -/
theorem commonGates_pass {op : Op} {arg : Byte} {s : State} : firstFailing (commonGates op arg s) = none ↔
    (op = .palLoad → arg.toNat ≤ 6) ∧ (usesSrc op = true → sourceReady s) ∧ (usesPix op = true → imageReady s) ∧
    (usesOut op = true → outBase s + outCap s ≤ 2 ^ Config.addrBits ∧ width s ≠ 0 ∧ height s ≠ 0) ∧
    (op = .palLoad → palEntries s ≤ 65536) := by
  simp only [commonGates, firstFailing_cons_none, firstFailing_nil, regionsOf_fit, Bool.and_eq_false_imp,
    Bool.or_eq_false_iff, decide_eq_true_eq, decide_eq_false_iff_not, not_lt, gt_iff_lt, and_true, sourceReady, imageReady]
  tauto

/-- When a decoder passes its gates (R143). -/
theorem check_decoder {op : Op} {arg : Byte} {s : State} (hs : usesSrc op = true) (hp : usesPix op = true) :
    check op arg s = none ↔ sourceReady s ∧ imageReady s ∧ firstFailing (formatGates op s) = none := by
  have ho : usesOut op = false := Bool.eq_false_iff.mpr fun ho => by
    rw [(usesOut_regions ho).1] at hs
    cases hs
  have hl : op ≠ .palLoad := by rintro rfl; cases hp
  simp only [check_none, commonGates_pass, hs, hp, ho, hl, false_implies, forall_const, Bool.false_eq_true, true_and,
    and_true, and_assoc]

/-- When an encoder passes its gates (R143). -/
theorem check_encoder {op : Op} {arg : Byte} {s : State} (ho : usesOut op = true) :
    check op arg s = none ↔ imageReady s ∧ outBase s + outCap s ≤ 2 ^ Config.addrBits ∧ width s ≠ 0 ∧ height s ≠ 0 ∧
      firstFailing (formatGates op s) = none := by
  obtain ⟨hs, hp⟩ := usesOut_regions ho
  have hl : op ≠ .palLoad := by rintro rfl; cases ho
  simp only [check_none, commonGates_pass, hs, hp, ho, hl, false_implies, forall_const, Bool.false_eq_true, true_and,
    and_true, and_assoc]

/-- A gate that asks for one of the listed values passes. -/
theorem listed_iff {α : Type} [BEq α] [LawfulBEq α] {l : List α} {x : α} : (!l.contains x) = false ↔ x ∈ l := by
  rw [Bool.not_eq_false', List.contains_iff_mem]

/-- The BMP decode gates pass (R151). -/
theorem bmpGates_pass {op : Op} {s : State} : firstFailing (bmpGates op s) = none ↔
    depth s ∈ [1, 4, 8, 16, 24, 32] ∧ (op = .bmpDecodeRle8 → depth s = 8) ∧ (op = .bmpDecodeRle4 → depth s = 4) ∧
    (op = .bmpDecodeRaw → bitfields s = true → depth s ∈ [16, 32]) ∧ width s ≠ 0 ∧ height s ≠ 0 ∧
    (depth s ≤ 8 → 1 ≤ palEntries s ∧ palEntries s ≤ 2 ^ depth s) := by
  simp only [bmpGates, firstFailing_cons_none, firstFailing_nil, listed_iff, Bool.and_eq_false_imp, Bool.and_eq_true,
    Bool.or_eq_false_iff, decide_eq_true_eq, decide_eq_false_iff_not, not_not, not_lt, gt_iff_lt, and_true,
    and_imp, and_assoc, Nat.one_le_iff_ne_zero, ne_eq]

theorem bmpGates_raw {s : State} : firstFailing (bmpGates .bmpDecodeRaw s) = none ↔
    depth s ∈ [1, 4, 8, 16, 24, 32] ∧ (bitfields s = true → depth s = 16 ∨ depth s = 32) ∧ width s ≠ 0 ∧ height s ≠ 0 ∧
    (depth s ≤ 8 → 1 ≤ palEntries s ∧ palEntries s ≤ 2 ^ depth s) := by
  rw [bmpGates_pass]
  simp only [reduceCtorEq, false_implies, forall_const, true_and, List.mem_pair]

/-- An RLE stream has one depth, which makes the gates on other depths pass (R151). -/
theorem bmpGates_rle {op : Op} {d : Nat} {s : State} (h : (op = .bmpDecodeRle8 ∧ d = 8) ∨ (op = .bmpDecodeRle4 ∧ d = 4)) :
    firstFailing (bmpGates op s) = none ↔
      depth s = d ∧ width s ≠ 0 ∧ height s ≠ 0 ∧ 1 ≤ palEntries s ∧ palEntries s ≤ 2 ^ d := by
  rw [bmpGates_pass]
  constructor
  · rintro ⟨-, h8, h4, -, hw, hh, hpal⟩
    have hd : depth s = d := by
      rcases h with ⟨rfl, rfl⟩ | ⟨rfl, rfl⟩
      · exact h8 rfl
      · exact h4 rfl
    subst hd
    exact ⟨rfl, hw, hh, hpal (by omega)⟩
  · rintro ⟨rfl, hw, hh, hpal⟩
    rcases h with ⟨rfl, h⟩ | ⟨rfl, h⟩ <;> simpa [hw, hh, h] using hpal

/-- The TGA decode gates pass (R152). -/
theorem tgaGates_pass {s : State} : firstFailing (tgaGates s) = none ↔
    interleave s ≤ 2 ∧ width s ≠ 0 ∧ height s ≠ 0 ∧
    ((kind s = 0 ∧ depth s ∈ [15, 16, 24, 32]) ∨
      (kind s = 1 ∧ depth s ∈ [8, 16] ∧ cmapDepth s ∈ [15, 16, 24, 32]) ∨
      (kind s = 2 ∧ depth s ∈ [8, 16])) := by
  have hi : interleave s ≠ 3 ↔ interleave s ≤ 2 := by
    have : interleave s < 4 := bits_lt _ _ _
    omega
  have hk : kind s = 0 ∨ kind s = 1 ∨ kind s = 2 ∨ kind s = 3 := by
    have : kind s < 4 := bits_lt _ _ _
    omega
  simp only [tgaGates, firstFailing_cons_none, firstFailing_nil, listed_iff, Bool.and_eq_false_imp,
    Bool.or_eq_false_iff, decide_eq_true_eq, decide_eq_false_iff_not, and_true, ← ne_eq, hi]
  rcases hk with h | h | h | h
  all_goals
    simp only [h]
    tauto

/-- No listed pair has a zero DEPTH or NPLANES, so gate c of R153 adds only that BPL is not 0. -/
theorem pcxPairs_ne_zero : ∀ p ∈ pcxPairs, p.1 ≠ 0 ∧ p.2 ≠ 0 := by decide

/-- The PCX decode gates pass (R153). -/
theorem pcxGates_pass {s : State} : firstFailing (pcxGates s) = none ↔
    pcxEncoding s ≤ 1 ∧ 1 ≤ width s ∧ width s ≤ 32768 ∧ 1 ≤ height s ∧ height s ≤ 32768 ∧ pcxBpl s ≠ 0 ∧
    (depth s, pcxPlanes s) ∈ pcxPairs := by
  have he : pcxEncoding s ∈ [0, 1] ↔ pcxEncoding s ≤ 1 := by rw [List.mem_pair]; omega
  have hp := pcxPairs_ne_zero (depth s, pcxPlanes s)
  simp only [pcxGates, firstFailing_cons_none, firstFailing_nil, listed_iff, he,
    Bool.or_eq_false_iff, decide_eq_false_iff_not, not_lt, gt_iff_lt, and_true, Nat.one_le_iff_ne_zero]
  tauto

/-- The encoder gates pass (R154). -/
theorem encodeGates_pass {op : Op} {depths : List Nat} {s : State}
    (h : (op = .bmpEncode ∧ depths = [8, 24, 32]) ∨ (op = .tgaEncode ∧ depths = [24, 32])) :
    firstFailing (encodeGates op s) = none ↔
      outDepth s ∈ depths ∧ (op = .bmpEncode → encRle s = true → outDepth s = 8) := by
  rcases h with ⟨rfl, rfl⟩ | ⟨rfl, rfl⟩ <;>
    simp only [encodeGates, firstFailing_cons_none, firstFailing_nil, listed_iff, Bool.and_eq_false_imp,
      decide_eq_false_iff_not, not_not, and_true, reduceCtorEq, false_implies, forall_const, ne_eq]

/-- Settles O44, family by family. -/
theorem gatesPassExactlyWhenLegal : Obligations.GatesPassExactlyWhenLegal := by
  intro arg s
  refine ⟨?_, ?_, ?_, ?_, ?_, ?_, ?_⟩
  · simp [check_none, commonGates_pass, formatGates, usesSrc, usesPix, usesOut]
  · simp [check_none, commonGates_pass, formatGates, usesSrc, usesPix, usesOut]
  · rw [check_decoder rfl rfl, formatGates, bmpGates_raw]
  · intro op d h
    rw [← bmpGates_rle h]
    rcases h with ⟨rfl, -⟩ | ⟨rfl, -⟩ <;> exact check_decoder rfl rfl
  · rintro op (rfl | rfl) <;> rw [check_decoder rfl rfl, formatGates, tgaGates_pass]
  · rw [check_decoder rfl rfl, formatGates, pcxGates_pass, pcxPairs]
  · intro op depths h
    rw [← encodeGates_pass h]
    rcases h with ⟨rfl, -⟩ | ⟨rfl, -⟩ <;> exact check_encoder rfl

end Sys2Proof.Machine
end

section
/-!
PROOFS. The BMP RLE decompressor (41_bmp_rle_decode.md R180-R194): how it starts, what each token places, reads and moves, and
how a token loop ends where no token is left (with 43 R251, R255 and 44 R299 for TGA).
-/

namespace Sys2Proof.Machine

/-! ### How a token ends -/

section Token
variable {i : Instr} {s t : State} {c : Code}

theorem exec_token_ok (hi : i.stream ≠ .command) (h : tokenOf i s = .ok () t) : exec i s = .next (tokenAfter i t) := by
  rw [exec_token hi, h, conclude_ok]

/-- A token that raises ends its command (R341); for an RLE stream that end is `rleEnded`, by computation (R145, R194). -/
theorem exec_token_raised (hi : i.stream ≠ .command) (h : tokenOf i s = .error (.raised c) t) :
    exec i s = .next (endCommand (opOf i) true c t) := by
  rw [exec_token hi, h, conclude_raised]

/-- R190: a source that ends raises ReadError, and nothing is read. -/
theorem readSrc_readError {n : Nat} (h : ¬ sourceHolds s n) : readSrc n s = .error (.raised .readError) s :=
  readSrc_short (Nat.not_le.mp h)

end Token

/-! ### Tokens that place indices (R183, R184, R188, R189) -/

section Placing
variable {s : State} {n m : Nat}

/-- Indices placed that the source gives: `placeIndices_ok` after a fetch of `m` bytes. -/
theorem fetchThenPlace_ok {index : List Byte → Nat → Nat} (hs : sourceFits s) (hn : sourceHolds s m) (hf : imageFits s)
    (hw : indicesWritten s n (index (srcBytes s m))) :
    ∃ t, (do
        let data ← readSrc m
        placeIndices n (index data) : Eng Unit) s = .ok () t ∧
      t = { s with
        srcPos := s.srcPos + BitVec.ofNat 32 m
        x := s.x + BitVec.ofNat 64 n
        mem := t.mem
        history := t.history } ∧
      painted s t (underCursor s n) (fun x _ => bmpColor s (index (srcBytes s m) (cursorStep s x))) := by
  rw [run_bind_ok (readSrc_afterFetch hs hn)]
  exact placeIndices_ok (s := afterFetch s m) hf hw

theorem fetchThenPlace_short {index : List Byte → Nat → Nat} (hn : ¬ sourceHolds s m) :
    (do
      let data ← readSrc m
      placeIndices n (index data) : Eng Unit) s = .error (.raised .readError) s :=
  run_bind_error (readSrc_readError hn)

end Placing

/-- Settles O8: RUN8 places the constant index. -/
theorem run8PlacesOneIndex : Obligations.Run8PlacesOneIndex := by
  intro c v s hf hw
  obtain ⟨t, ht, hframe, hpaint⟩ := placeIndices_ok hf hw
  exact ⟨t, exec_token_ok nofun ht, hframe, hpaint⟩

/-- Settles O9: RUN4 places the high nibble at even steps and the low one at odd steps. -/
theorem run4AlternatesTwoIndices : Obligations.Run4AlternatesTwoIndices := by
  intro c hi lo s hf hw
  obtain ⟨t, ht, hframe, hpaint⟩ := placeIndices_ok hf hw
  exact ⟨t, exec_token_ok nofun ht, hframe, hpaint⟩

/-- Settles O10: ABS8 places the bytes of its fetch, or ends at the fetch. -/
theorem abs8PlacesItsBytes : Obligations.Abs8PlacesItsBytes := by
  intro n s hs
  refine ⟨fun hn hf hw => ?_, fun hn => ?_⟩
  · obtain ⟨t, ht, hframe, hpaint⟩ := fetchThenPlace_ok (index := fun data k => (data.getD k 0).toNat) hs hn hf hw
    exact ⟨t, exec_token_ok nofun ht, hframe, hpaint⟩
  · exact exec_token_raised nofun (fetchThenPlace_short hn)

/-- Settles O11: ABS4 places the nibbles of its fetch, or ends at the fetch. -/
theorem abs4PlacesItsNibbles : Obligations.Abs4PlacesItsNibbles := by
  intro n s hs
  refine ⟨fun hn hf hw => ?_, fun hn => ?_⟩
  · obtain ⟨t, ht, hframe, hpaint⟩ :=
      fetchThenPlace_ok (index := fun data k => nibbleIndex (data.getD (k / 2) 0) k) hs hn hf hw
    exact ⟨t, exec_token_ok nofun ht, hframe, hpaint⟩
  · exact exec_token_raised nofun (fetchThenPlace_short hn)

/-! ### Tokens that move the cursor or end the stream (R185, R186, R187) -/

/-- R187 under TOWARD_TOP: Y decreases, however the image is stored. -/
theorem moveDeltaY_towardTop (top : Bool) (y : Cursor) (dy : Byte) :
    moveDeltaY .towardTop top y dy = y - dy.setWidth 64 := if_neg (fun h => nomatch h.2)

theorem rleDelta_ok {s : State} (hs : sourceFits s) (hn : sourceHolds s 2) :
    rleDelta s = .ok () { afterFetch s 2 with
      x := s.x + ((srcBytes s 2).getD 0 0).setWidth 64
      y := s.y - ((srcBytes s 2).getD 1 0).setWidth 64 } := by
  rw [rleDelta, run_bind_ok (readSrc_afterFetch hs hn), run_update, Config.deltaTopdown]
  simp only [moveDeltaY_towardTop]
  rfl

theorem rleDelta_short {s : State} (hn : ¬ sourceHolds s 2) : rleDelta s = .error (.raised .readError) s :=
  run_bind_error (readSrc_readError hn)

/-- Settles O14: both streams run `rleDelta`. -/
theorem deltaMovesTheCursor : Obligations.DeltaMovesTheCursor := by
  rintro i s (rfl | rfl) hs
  all_goals
    exact ⟨fun hn => ⟨_, exec_token_ok nofun (rleDelta_ok hs hn), rfl⟩,
      fun hn => exec_token_raised nofun (rleDelta_short hn)⟩

theorem rleEol_ok (s : State) :
    rleEol s = .ok () { s with x := 0, y := if topdown s = true then s.y + 1 else s.y - 1 } := rfl

/-- Settles O12: both streams run `rleEol`. -/
theorem eolStartsTheNextRow : Obligations.EolStartsTheNextRow := by
  rintro i s (rfl | rfl) <;> exact exec_token_ok nofun (rleEol_ok s)

/-- Settles O13: EOB has no operation but the end of its command. -/
theorem eobEndsWithSuccess : Obligations.EobEndsWithSuccess := by
  rintro i s (rfl | rfl)
  all_goals exact exec_token_ok nofun (run_pure () s)

/-! ### The start of a decode (R180, R181, R192) -/

/-- Y at the start of a token loop (R51). -/
def startRow (s : State) : Cursor := if topdown s then 0 else s.csr.height.setWidth 64 - 1

/-- R51: the start row as a number; a 32-bit height less one does not wrap in 64 bits. -/
theorem startRow_toInt (s : State) : (startRow s).toInt = if topdown s = true then 0 else (height s : Int) - 1 := by
  unfold startRow
  split
  · rfl
  · have hlt := s.csr.height.isLt
    have hone : (1 : Cursor).toInt = 1 := by decide
    rw [BitVec.toInt_sub, BitVec.toInt_setWidth, hone, Int.bmod_sub_bmod]
    exact Int.bmod_eq_of_le (by omega) (by omega)

/-- The set-up of a token loop fills the image and puts the cursor at the start row. -/
theorem bmpRleSetup_ok {s : State} (hf : imageFits s) :
    ∃ t, bmpRleSetup s = .ok () t ∧ t = { s with x := 0, y := startRow s, mem := t.mem, history := t.history } ∧
      painted s t (fun _ _ => True) (fun _ _ => s.csr.fill) := by
  obtain ⟨t, ht, hm, hp⟩ := prefill_ok hf
  refine ⟨{ t with x := 0, y := startRow t }, by rw [bmpRleSetup, run_bind_ok ht]; rfl, ?_, hp⟩
  rw [hm]
  rfl

/-- Settles O15: both commands run `bmpRleSetup`, and the phase of their loop follows. -/
theorem rleDecodeStartsWithTheFill : Obligations.RleDecodeStartsWithTheFill := by
  intro i op ph s hcase hr
  have hexec : exec i s = runStream op bmpRleSetup ph s := by
    rcases hcase with ⟨rfl, rfl, rfl⟩ | ⟨rfl, rfl, rfl⟩ <;> rfl
  have hpix : usesPix op = true := by rcases hcase with ⟨-, rfl, -⟩ | ⟨-, rfl, -⟩ <;> rfl
  obtain ⟨t, ht, hframe, hpaint⟩ := bmpRleSetup_ok (s := { s with outN := 0 }) (hr.imageFits hpix)
  refine ⟨{ t with phase := ph }, ?_, ?_, ?_, hpaint⟩
  · rw [hexec, runStream, runCommand_body hr.1 hr.2, ht, conclude_ok]
  · rw [hframe]
  · rw [hframe]
    exact startRow_toInt s

/-! ### A loop that is short of a token (R190, R251, R255), and a complete TGA image (R299) -/

/-- A fetch that raises ends the loop's command. -/
theorem engineStep_fetch_raised {α : Type} (op : Op) (token : α → Instr) {fetch : Eng α} {s : State} {c : Code}
    (h : engineAction s = fetched op fetch token s) (hf : fetch s = .error (.raised c) s) :
    engineStep s = .next (endCommand op true c s) := by
  simp only [engineStep, h, fetched, hf, conclude_raised]

theorem fetchPair_short {s : State} (hn : ¬ sourceHolds s 2) : fetchPair s = .error (.raised .readError) s :=
  run_bind_error (readSrc_readError hn)

theorem fetchHeader_short {s : State} (hn : ¬ sourceHolds s 1) : fetchHeader s = .error (.raised .fileCorrupted) s := by
  rw [fetchHeader, run_readState_bind, run_ite, if_pos (by unfold sourceHolds at hn; omega), run_raise]

/-- R299: the formats that keep an alpha channel, as one condition. -/
theorem alphaDepth_eq (s : State) :
    alphaDepth s = if (kind s = 0 ∧ depth s = 32) ∨ (kind s = 0 ∧ depth s = 16 ∧ 0 < alphaBits s) ∨
      (kind s = 2 ∧ depth s = 16 ∧ 0 < alphaBits s) ∨ (kind s = 1 ∧ cmapDepth s = 32) then 32 else 24 := by
  simp only [alphaDepth, ite_or, gt_iff_lt]

/-- R145: a TGA decode of `k` pixels that ends with Success writes RESULT_DEPTH. -/
theorem endCommand_tga_success (s : State) : endCommand .tgaDecodeRle true .success s =
    { tgaEnded s s.pixK .success with resultDepth := alphaDepth s } := rfl

/-- Settles O7, by what each loop's fetch raises, and by the end of a complete image. -/
theorem streamEndsWithoutAToken : Obligations.StreamEndsWithoutAToken := by
  intro s ht
  rw [step_engine ht]
  refine ⟨fun hp hn => ?_, fun hp hk hn => ?_, fun hp hk => ?_⟩
  · rcases hp with hp | hp
    · exact engineStep_fetch_raised .bmpDecodeRle8 (fun p => decodeRle8 p.1 p.2) (by simp only [engineAction, hp])
        (fetchPair_short hn)
    · exact engineStep_fetch_raised .bmpDecodeRle4 (fun p => decodeRle4 p.1 p.2) (by simp only [engineAction, hp])
        (fetchPair_short hn)
  · exact engineStep_fetch_raised .tgaDecodeRle decodeTga (by simp only [engineAction, hp, hk, if_true])
      (fetchHeader_short hn)
  · rw [← alphaDepth_eq, ← endCommand_tga_success]
    simp only [engineStep, engineAction, hp, if_neg (Nat.not_lt.mpr hk)]

end Sys2Proof.Machine
end

section
/-!
PROOFS. An encoder whose output OUT holds puts out all of it and ends with Success (42_bmp_rle8_encode.md R220;
43_scanline_codec.md R260; 40_commands.md R145).
-/

namespace Sys2Proof.Machine

/-- An encoder that is ready and puts out at most OUT_CAP bytes ends with Success and their number (R145). -/
theorem exec_encoder_fits {i : Instr} {s : State} {out : List Byte} (hi : i.stream = .command) (ho : usesOut (opOf i) = true)
    (hafter : afterOf i = endCommand (opOf i) true .success) (hr : ready (opOf i) (argOf i) s)
    (hbody : emits s (bodyOf i) out) (hlen : out.length ≤ outCap s) :
    ∃ t, exec i s = .next t ∧
      t = { ended s .success with
        outN := out.length
        outLen := BitVec.ofNat 32 out.length
        mem := t.mem
        history := t.history } ∧
      outputIs s t out := by
  obtain ⟨u, hu, hdone⟩ := (hbody [] _ (.none s)).1 hlen
  rw [List.nil_append] at hdone
  have hend := hdone.endCommand ho .success
  rw [if_pos rfl] at hend
  rw [exec_command hi, runCommand_body hr.1 hr.2, hu, conclude_ok, hafter, hend]
  exact ⟨_, rfl, rfl, hdone.outputIs⟩

/-- Settles O37: the body of each encoder puts out exactly its output when OUT holds it. -/
theorem encodersWriteTheirOutput : Obligations.EncodersWriteTheirOutput := by
  rintro i op s out (⟨rfl, rfl, rfl⟩ | ⟨rfl, rfl, rfl⟩) hr hlen
  · exact exec_encoder_fits rfl rfl rfl hr (emits_bmpEncodeBody hr rfl) hlen
  · exact exec_encoder_fits rfl rfl rfl hr (emits_tgaEncodeBody hr rfl) hlen

end Sys2Proof.Machine
end

section
/-!
PROOFS. The RLE8 tokens of a row say that row (42_bmp_rle8_encode.md R223-R226): one rule per kind of token, from a stream's
reading to its reading with the token in front.
-/

namespace Sys2Proof.Machine

/-! ### The lengths an encoder takes off a row (R223, R262) -/

section Leading
variable {α : Type} [DecidableEq α]

theorem leading_le (v : α) (cap : Nat) (ws : List α) : leading v cap ws ≤ cap := by
  induction cap generalizing ws with
  | zero => exact Nat.le_refl 0
  | succ cap ih =>
    cases ws with
    | nil => exact Nat.zero_le _
    | cons w ws =>
      have := ih ws
      rw [leading]
      split <;> omega

theorem take_leading (v : α) (cap : Nat) (ws : List α) :
    ws.take (leading v cap ws) = List.replicate (leading v cap ws) v := by
  induction cap generalizing ws with
  | zero => rfl
  | succ cap ih =>
    cases ws with
    | nil => rfl
    | cons w ws =>
      rw [leading]
      split
      · next h => rw [Nat.add_comm, List.take_succ_cons, List.replicate_succ, ih, h]
      · rfl

/-- A row is the run at its head and what follows the run. -/
theorem run_append_drop (v : α) (cap : Nat) (ws : List α) :
    List.replicate (1 + leading v cap ws) v ++ (v :: ws).drop (1 + leading v cap ws) = v :: ws := by
  rw [Nat.add_comm, List.replicate_succ, List.drop_succ_cons, List.cons_append, ← take_leading, List.take_append_drop]

end Leading

theorem literalLength8_le (cap : Nat) (row : List Byte) : literalLength8 cap row ≤ cap := by
  fun_induction literalLength8 cap row <;> omega

/-- A row whose first two bytes differ, or of one byte, starts with a literal. -/
theorem literalLength8_pos {v : Byte} {rest : List Byte} {m n : Nat} (h : leading v (m + 1) rest = 0) :
    0 < literalLength8 (n + 1) (v :: rest) := by
  cases rest with
  | nil => exact Nat.one_pos
  | cons w rest =>
    have hne : v ≠ w := by
      rintro rfl
      rw [leading, if_pos rfl] at h
      omega
    rw [literalLength8, if_neg hne]
    omega

/-! ### The tokens of a row, read back (R226) -/

/-- With fuel enough, the RLE8 stream `bytes` says `row` up to an EOL or EOB, which `rest` follows. -/
def reads8 (bytes row rest : List Byte) : Prop :=
  ∀ fuel, bytes.length ≤ fuel → expandRow8 fuel bytes = some (row, rest)

/-- A stream with a first byte needs fuel, and its first token takes one unit of it. -/
theorem reads8_cons {b : Byte} {bytes row rest : List Byte}
    (h : ∀ fuel, bytes.length ≤ fuel → expandRow8 (fuel + 1) (b :: bytes) = some (row, rest)) :
    reads8 (b :: bytes) row rest
  | 0, hf => absurd hf (Nat.not_succ_le_zero _)
  | fuel + 1, hf => h fuel (Nat.le_of_succ_le_succ hf)

theorem reads8_eol (rest : List Byte) : reads8 (0 :: 0 :: rest) [] rest := reads8_cons fun _ _ => rfl

theorem toNat_ofNat_count {n : Nat} (h : n ≤ 255) : (BitVec.ofNat 8 n).toNat = n :=
  Nat.mod_eq_of_lt (by omega)

section Tokens
variable {tail row rest : List Byte} (h : reads8 tail row rest)
include h

/-- A run in front of a stream puts its bytes in front of the row (R183). -/
theorem reads8.run8 {c : Byte} (hc : wfRunCount c = true) (v : Byte) :
    reads8 (c :: v :: tail) (List.replicate c.toNat v ++ row) rest := by
  refine reads8_cons fun fuel hf => ?_
  have htail := h fuel (Nat.le_of_succ_le hf)
  simp only [expandRow8, decodeRle8_run8 hc, htail, Option.map_some]

/-- An absolute run in front of a stream, its data `d` padded to an even length (R188). -/
theorem reads8.abs8 {n : Byte} (hn : wfAbsCount n = true) {d pad : List Byte} (hd : d.length = n.toNat)
    (hpad : (d ++ pad).length = evenUp n.toNat) : reads8 (0 :: n :: (d ++ pad ++ tail)) (d ++ row) rest := by
  refine reads8_cons fun fuel hf => ?_
  have htail := h fuel (by rw [List.length_cons, List.length_append] at hf; omega)
  have hlong : ¬ (d ++ pad ++ tail).length < evenUp n.toNat := by rw [List.length_append, hpad]; omega
  have hdrop : (d ++ pad ++ tail).drop (evenUp n.toNat) = tail := List.drop_left' hpad
  have htake : (d ++ pad ++ tail).take n.toNat = d := by rw [List.append_assoc]; exact List.take_left' hd
  simp only [expandRow8, decodeRle8_abs8 hn, if_neg hlong, hdrop, htake, htail, Option.map_some]

theorem reads8.emitRun {r : Nat} (h0 : 0 < r) (hr : r ≤ 255) (v : Byte) :
    reads8 (emitRun r v ++ tail) (List.replicate r v ++ row) rest := by
  have hn := toNat_ofNat_count hr
  have hc : wfRunCount (BitVec.ofNat 8 r) = true :=
    bne_iff_ne.mpr fun e => by rw [e] at hn; exact absurd hn h0.ne
  have hrun := h.run8 hc v
  rwa [hn] at hrun

/-- Bytes put out one by one, each as a run of one (R225). -/
theorem reads8.singles (d : List Byte) : reads8 (d.flatMap (fun b => [1, b]) ++ tail) (d ++ row) rest := by
  induction d with
  | nil => exact h
  | cons b d ih => exact ih.run8 (c := 1) rfl b

theorem reads8.emitLiteral {d : List Byte} (hd : d.length ≤ 255) : reads8 (emitLiteral d ++ tail) (d ++ row) rest := by
  unfold Machine.emitLiteral
  split
  · next h3 =>
    have hn := toNat_ofNat_count hd
    refine h.abs8 (n := BitVec.ofNat 8 d.length) (decide_eq_true (by rw [hn]; exact h3)) hn.symm ?_
    rw [hn, List.length_append, evenUp]
    split
    · next hodd => rw [hodd]; rfl
    · next heven => rw [Nat.mod_two_ne_one.mp heven]; rfl
  · exact h.singles d

end Tokens

/-- The tokens of a row in front of an EOL say that row; the row's length is fuel enough for the encoder. -/
theorem reads8_encodeRow8 (rest : List Byte) {fuel : Nat} {row : List Byte} (hf : row.length ≤ fuel) :
    reads8 (encodeRow8 fuel row ++ 0 :: 0 :: rest) row rest := by
  induction fuel generalizing row with
  | zero =>
    obtain rfl := List.length_eq_zero_iff.mp (Nat.le_zero.mp hf)
    exact reads8_eol rest
  | succ fuel ih =>
    cases row with
    | nil => exact reads8_eol rest
    | cons v ws =>
      have hshorter : ∀ k, 0 < k → ((v :: ws).drop k).length ≤ fuel := by
        intro k hk
        rw [List.length_drop]
        omega
      simp only [encodeRow8]
      split
      · have hrun := (ih (hshorter (1 + leading v 254 ws) (by omega))).emitRun (r := 1 + leading v 254 ws)
          (by omega) (by have := leading_le v 254 ws; omega) v
        rwa [run_append_drop, ← List.append_assoc] at hrun
      · next hr =>
        have hpos : 0 < literalLength8 255 (v :: ws) := literalLength8_pos (show leading v 254 ws = 0 by omega)
        have hlit := (ih (hshorter _ hpos)).emitLiteral (d := (v :: ws).take (literalLength8 255 (v :: ws)))
          ((List.length_take_le _ _).trans (literalLength8_le _ _))
        rwa [List.take_append_drop, ← List.append_assoc] at hlit

/-- Settles O39: by induction over the encoder's rounds, each of which puts one run or one literal in front. -/
theorem rle8RowRoundTrip : Obligations.Rle8RowRoundTrip := by
  intro row rest
  rw [List.append_assoc]
  exact reads8_encodeRow8 rest (Nat.le_refl _) _ (Nat.le_refl _)

end Sys2Proof.Machine
end

section
/-!
PROOFS. The TGA packets of a row say that row (43_scanline_codec.md R262-R265): one rule per kind of packet, from a stream's
reading to its reading with the packet in front.
-/

namespace Sys2Proof.Machine

/-! ### The length of a raw packet (R262) -/

theorem literalLengthTga_le (cap : Nat) (row : List (List Byte)) : literalLengthTga cap row ≤ cap := by
  fun_induction literalLengthTga cap row <;> omega

/-- A row that does not start with three equal samples starts with a raw packet. -/
theorem literalLengthTga_pos {v : List Byte} {rest : List (List Byte)} {m n : Nat} (h : leading v (m + 2) rest < 2) :
    0 < literalLengthTga (n + 1) (v :: rest) := by
  match rest with
  | [] => exact Nat.one_pos
  | [_] =>
    rw [literalLengthTga]
    omega
  | b :: c :: rest =>
    have hne : ¬ (v = b ∧ v = c) := by
      rintro ⟨rfl, rfl⟩
      simp only [leading, if_true] at h
      omega
    rw [literalLengthTga, if_neg hne]
    omega

/-! ### The samples of a packet -/

theorem length_flatten_samples {size : Nat} {q : List (List Byte)} (hq : ∀ b ∈ q, b.length = size) :
    q.flatten.length = q.length * size := by
  rw [List.length_flatten, List.sum_eq_card_nsmul _ size (by simpa using hq), List.length_map, smul_eq_mul]

/-- The samples of a raw packet, cut out of the bytes that begin with them. -/
theorem chunks_flatten {size : Nat} (tail : List Byte) {q : List (List Byte)} (hq : ∀ b ∈ q, b.length = size) :
    (List.range q.length).map (chunk (q.flatten ++ tail) size) = q := by
  induction q with
  | nil => rfl
  | cons b q ih =>
    have hb : b.length = size := hq b List.mem_cons_self
    have hfirst : chunk ((b :: q).flatten ++ tail) size 0 = b := by
      rw [chunk, Nat.zero_mul, List.drop_zero, List.flatten_cons, List.append_assoc, List.take_left' hb]
    have hnext : ∀ i, chunk ((b :: q).flatten ++ tail) size (i + 1) = chunk (q.flatten ++ tail) size i := by
      intro i
      rw [chunk, Nat.succ_mul, Nat.add_comm, ← List.drop_drop, List.flatten_cons, List.append_assoc, List.drop_left' hb,
        chunk]
    rw [List.length_cons, List.range_succ_eq_map, List.map_cons, List.map_map, hfirst]
    exact congrArg (b :: ·) ((List.map_congr_left fun i _ => hnext i).trans
      (ih fun c hc => hq c (List.mem_cons_of_mem b hc)))

/-- The header of a run of `n + 1` samples (R107, R263). -/
theorem runHeader_eq {n : Nat} (h : n < 128) : BitVec.ofNat 8 (0x80 + n) = (1 : BitVec 1) ++ BitVec.ofNat 7 n := by
  apply BitVec.eq_of_toNat_eq
  rw [BitVec.toNat_append, ← Nat.shiftLeft_add_eq_or_of_lt (BitVec.isLt _), BitVec.toNat_ofNat, BitVec.toNat_ofNat,
    Nat.mod_eq_of_lt (a := 0x80 + n) (by omega), Nat.mod_eq_of_lt (a := n) h]
  rfl

/-- The header of a raw packet of `n + 1` samples (R107, R264). -/
theorem rawHeader_eq {n : Nat} (h : n < 128) : BitVec.ofNat 8 n = (0 : BitVec 1) ++ BitVec.ofNat 7 n := by
  apply BitVec.eq_of_toNat_eq
  rw [BitVec.toNat_append, ← Nat.shiftLeft_add_eq_or_of_lt (BitVec.isLt _), BitVec.toNat_ofNat, BitVec.toNat_ofNat,
    Nat.mod_eq_of_lt (a := n) (by omega), Nat.mod_eq_of_lt (a := n) h]
  exact (Nat.zero_add n).symm

/-! ### The packets of a row, read back (R265) -/

/-- With fuel enough, the stream `bytes` of packets of `size`-byte samples says `row`. -/
def readsTga (size : Nat) (bytes : List Byte) (row : List (List Byte)) : Prop :=
  ∀ fuel, bytes.length ≤ fuel → expandTga size fuel bytes = some row

theorem readsTga_nil (size : Nat) : readsTga size [] [] := by
  intro fuel _
  cases fuel <;> rfl

section Packets
variable {size : Nat} {tail : List Byte} {row : List (List Byte)} (h : readsTga size tail row)
include h

/-- A run packet in front of a stream puts its copies in front of the row (R253). -/
theorem readsTga.emitTgaRun {r : Nat} (h0 : 0 < r) (hr : r ≤ 128) {v : List Byte} (hv : v.length = size) :
    readsTga size (emitTgaRun r v ++ tail) (List.replicate r v ++ row)
  | 0, hf => absurd hf (Nat.not_succ_le_zero _)
  | fuel + 1, hf => by
    have hlen : (v ++ tail).length ≤ fuel := Nat.le_of_succ_le_succ hf
    rw [List.length_append] at hlen
    have hcount : (BitVec.ofNat 7 (r - 1)).toNat + 1 = r := by
      rw [BitVec.toNat_ofNat]
      omega
    have hlong : ¬ (v ++ tail).length < size := by rw [List.length_append]; omega
    simp only [Machine.emitTgaRun, List.cons_append, expandTga, runHeader_eq (n := r - 1) (by omega), decodeTga_tgaRun,
      if_neg hlong, List.drop_left' hv, List.take_left' hv, h fuel (by omega), Option.map_some, hcount]

/-- A raw packet in front of a stream puts its samples in front of the row (R254). -/
theorem readsTga.emitTgaRaw {q : List (List Byte)} (h0 : 0 < q.length) (hq : q.length ≤ 128) (hv : ∀ b ∈ q, b.length = size) :
    readsTga size (emitTgaRaw q ++ tail) (q ++ row)
  | 0, hf => absurd hf (Nat.not_succ_le_zero _)
  | fuel + 1, hf => by
    have hlen : (q.flatten ++ tail).length ≤ fuel := Nat.le_of_succ_le_succ hf
    rw [List.length_append] at hlen
    have hcount : (BitVec.ofNat 7 (q.length - 1)).toNat + 1 = q.length := by
      rw [BitVec.toNat_ofNat]
      omega
    have hflat := length_flatten_samples hv
    have hlong : ¬ (q.flatten ++ tail).length < q.length * size := by rw [List.length_append]; omega
    simp only [Machine.emitTgaRaw, List.cons_append, expandTga, rawHeader_eq (n := q.length - 1) (by omega),
      decodeTga_tgaRaw, hcount, if_neg hlong, List.drop_left' hflat, chunks_flatten tail hv, h fuel (by omega),
      Option.map_some]

end Packets

/-- The packets of a row say that row; the row's length is fuel enough for the encoder. -/
theorem readsTga_encodeRowTga {size fuel : Nat} {row : List (List Byte)} (hf : row.length ≤ fuel)
    (hv : ∀ b ∈ row, b.length = size) : readsTga size (encodeRowTga fuel row) row := by
  induction fuel generalizing row with
  | zero =>
    obtain rfl := List.length_eq_zero_iff.mp (Nat.le_zero.mp hf)
    exact readsTga_nil size
  | succ fuel ih =>
    cases row with
    | nil => exact readsTga_nil size
    | cons v ws =>
      have hafter : ∀ k, 0 < k → readsTga size (encodeRowTga fuel ((v :: ws).drop k)) ((v :: ws).drop k) := by
        intro k hk
        refine ih ?_ fun b hb => hv b (List.mem_of_mem_drop hb)
        rw [List.length_drop]
        omega
      simp only [encodeRowTga]
      split
      · have hle := leading_le v 127 ws
        have hrun := (hafter (1 + leading v 127 ws) (by omega)).emitTgaRun (r := 1 + leading v 127 ws) (by omega)
          (by omega) (hv v List.mem_cons_self)
        rwa [run_append_drop] at hrun
      · next hr =>
        have hpos : 0 < literalLengthTga 128 (v :: ws) := literalLengthTga_pos (show leading v 127 ws < 2 by omega)
        have hraw := (hafter _ hpos).emitTgaRaw (q := (v :: ws).take (literalLengthTga 128 (v :: ws)))
          (by rw [List.length_take, List.length_cons]; omega)
          ((List.length_take_le _ _).trans (literalLengthTga_le _ _)) fun b hb => hv b (List.mem_of_mem_take hb)
        rwa [List.take_append_drop] at hraw

/-- Settles O40: by induction over the encoder's rounds, each of which puts one run or one raw packet in front. -/
theorem tgaRowRoundTrip : Obligations.TgaRowRoundTrip := by
  intro size row _ hv
  exact readsTga_encodeRowTga (Nat.le_refl _) hv _ (Nat.le_refl _)

end Sys2Proof.Machine
end

section
/-!
PROOFS. The TGA decoders (43_scanline_codec.md R250-R255): where the decoded pixels go, what a loop over samples places, and
the loops that TGA_DECODE_RLE and PCX_DECODE start.
-/

namespace Sys2Proof.Machine

/-! ### The positions of the decoded pixels are distinct (R252, R298) -/

theorem logicalRow_inj {mode h fy gy : Nat} (_ : fy < h) (_ : gy < h) (e : logicalRow mode h fy = logicalRow mode h gy) :
    fy = gy := by
  match mode with
  | 0 => exact e
  | 1 =>
    rw [logicalRow_one, logicalRow_one] at e
    split_ifs at e <;> omega
  | m + 2 =>
    rw [logicalRow_two, logicalRow_two] at e
    split_ifs at e <;> omega

theorem tgaMap_inj {s : State} {fx fy gx gy : Nat} (hx : fx < width s) (hy : fy < height s) (hx' : gx < width s)
    (hy' : gy < height s) (e : tgaMap s fx fy = tgaMap s gx gy) : fx = gx ∧ fy = gy := by
  have hlf := logicalRow_lt (mode := interleave s) hy
  have hlg := logicalRow_lt (mode := interleave s) hy'
  simp only [tgaMap, Prod.mk.injEq] at e
  obtain ⟨ex, ey⟩ := e
  constructor
  · split at ex <;> omega
  · refine logicalRow_inj (mode := interleave s) hy hy' ?_
    split at ey <;> omega

theorem tgaPlace_inj {s : State} {j k : Nat} (hj : j < pixelTotal s) (hk : k < pixelTotal s)
    (e : tgaPlace s j = tgaPlace s k) : j = k := by
  have hw : 0 < width s := Nat.pos_of_ne_zero (by rintro h; simp [pixelTotal, h] at hj)
  obtain ⟨hmod, hdiv⟩ := tgaMap_inj (Nat.mod_lt _ hw) (Nat.div_lt_of_lt_mul hj) (Nat.mod_lt _ hw)
    (Nat.div_lt_of_lt_mul hk) e
  rw [← Nat.div_add_mod j (width s), ← Nat.div_add_mod k (width s), hmod, hdiv]

/-! ### Pixels placed one after the other (R252) -/

theorem untouched_mono {s t : State} {hit hit' : Nat → Nat → Prop} (h : untouched s t hit) (hh : ∀ x y, hit x y → hit' x y) :
    untouched s t hit' :=
  fun a ha => h a fun x y hx hy hxy => ha x y hx hy (hh x y hxy)

/-- The pixels `color 0 .. color (n-1)` stand in `t` at the canonical positions from the `k`-th on, and no other byte
differs from `s`. -/
def placed (s t : State) (k n : Nat) (color : Nat → Pixel) : Prop :=
  (∀ j, j < n → pixelAt t (tgaPlace s (k + j)).1 (tgaPlace s (k + j)).2 = color j) ∧ untouched s t (tgaPlaced s k n)

theorem placed_zero (s : State) (k : Nat) (color : Nat → Pixel) : placed s s k 0 color :=
  ⟨fun j hj => absurd hj (Nat.not_lt_zero j), fun _ _ => rfl⟩

/-- One more pixel, at the next position. -/
theorem placed_pixPut {s t : State} {k n : Nat} {color : Nat → Pixel} (h : placed s t k n color) (hc : t.csr = s.csr)
    (hk : k + n < pixelTotal s) :
    placed s (t.pixPut (tgaPlace s (k + n)).1 (tgaPlace s (k + n)).2 (color n)) k (n + 1) color := by
  have haddr : ∀ x y, pixAddr t x y = pixAddr s x y := by
    intro x y
    have e : pixAddr t x y = pixAddr { s with csr := t.csr } x y := rfl
    rw [e, hc]
  have hin := tgaPlace_lt hk
  refine ⟨fun j hj => ?_, fun a ha => ?_⟩
  · rw [pixelAt_eq_word]
    show (t.mem.writeBytes (pixAddr t _ _) (wordBytes (color n))).word (pixAddr t _ _) = color j
    rcases Nat.lt_succ_iff_lt_or_eq.mp hj with hlt | rfl
    · have hne : tgaPlace s (k + j) ≠ tgaPlace s (k + n) := fun e => by
        have := tgaPlace_inj (by omega) hk e
        omega
      have hin' := tgaPlace_lt (s := s) (k := k + j) (by omega)
      rw [haddr, haddr, Memory.word_write_disjoint _ _ (pixAddr_disjoint hin'.1 hin.1
        (not_and_or.mp fun e => hne (Prod.ext e.1 e.2))), ← haddr]
      exact h.1 j hlt
    · exact Memory.word_write_self _ _ _
  · have hbefore := h.2 a fun x y hx hy ⟨j, hj, e⟩ => ha x y hx hy ⟨j, Nat.lt_succ_of_lt hj, e⟩
    have hout := ha _ _ hin.1 hin.2 ⟨n, Nat.lt_succ_self n, rfl⟩
    rw [← hbefore]
    refine Memory.read_writeBytes_outside _ _ _ ?_
    rw [wordBytes_length, haddr]
    unfold inPixel at hout
    omega

/-- Pixels of one color are a painting. -/
theorem placed.painted {s t : State} {k n : Nat} {p : Pixel} (h : placed s t k n fun _ => p) :
    painted s t (tgaPlaced s k n) (fun _ _ => p) := by
  refine ⟨fun x y _ _ ⟨j, hj, e⟩ => ?_, h.2⟩
  have := h.1 j hj
  rwa [e] at this

/-! ### The samples of a loop (R250, R254) -/

/-- The pixel that sample `j` gives. -/
def samplePixel (s : State) (j : Nat) : Pixel :=
  match tgaSample (tgaSampleBytes s j) s with
  | .ok p _ => p
  | .error _ _ => 0

theorem samplePixel_of_gives {s : State} {j : Nat} {p : Pixel} (h : gives (tgaSample (tgaSampleBytes s j)) s p) :
    samplePixel s j = p := by
  rw [samplePixel, h]

/-- `t` is `s` after `i` more samples, and their pixels are placed. -/
structure SamplesPlaced (s : State) (i : Nat) (t : State) : Prop where
  read : SamplesDone s s.pixK i t
  state : t = { s with
    srcPos := s.srcPos + BitVec.ofNat 32 (i * sampleSize s)
    pixK := s.pixK + i
    mem := t.mem
    history := t.history }
  pixels : placed s t s.pixK i (samplePixel s)

theorem samplesPlaced_zero (s : State) : SamplesPlaced s 0 s :=
  ⟨samplesDone_zero s, by simp, placed_zero ..⟩

section Samples
variable {op : Op} {s t : State} {i n : Nat} (hr : ready op 0 s) (hsrc : usesSrc op = true) (hpix : usesPix op = true)
include hr hsrc hpix

/-- What reading and placing the next sample leaves. -/
theorem SamplesPlaced.tgaReadSample (h : SamplesPlaced s i t) (hn : sourceHolds s ((i + 1) * sampleSize s))
    (hk : s.pixK + i < pixelTotal s) (hg : ∃ p, gives (tgaSample (tgaSampleBytes s i)) s p) :
    Machine.tgaReadSample t = .ok () { (afterFetch t (sampleSize s)).pixPut (tgaPlace s (s.pixK + i)).1
      (tgaPlace s (s.pixK + i)).2 (samplePixel s i) with pixK := t.pixK + 1 } := by
  obtain ⟨p, hp⟩ := hg
  have hread := readSrc_afterFetch (h.read.kept.sourceFits (hr.sourceFits hsrc)) (h.read.sourceHolds hn)
  have hsame := h.read.same.trans (sameSources_afterFetch t (sampleSize t))
  have hplace := placeNext_ok p (hsame.imageFits (hr.imageFits hpix))
    (show t.pixK < pixelTotal t by rw [h.read.pixK, h.read.kept.pixelTotal]; exact hk)
  have hwhere : tgaPlace (afterFetch t (sampleSize t)) (afterFetch t (sampleSize t)).pixK = tgaPlace s (s.pixK + i) := by
    rw [h.state]
    rfl
  rw [h.read.sampleBytes hr hsrc hpix hn] at hread
  rw [Machine.tgaReadSample, run_readState_bind, run_bind_ok hread,
    run_bind_ok (looksOnly_tgaSample _ s _ p hsame hp), hplace, hwhere, samplePixel_of_gives hp, h.read.sampleSize]
  rfl

theorem SamplesPlaced.next (h : SamplesPlaced s i t) (hn : sourceHolds s ((i + 1) * sampleSize s))
    (hk : s.pixK + i < pixelTotal s) (hg : ∃ p, gives (tgaSample (tgaSampleBytes s i)) s p) :
    ∃ u, Machine.tgaReadSample t = .ok () u ∧ SamplesPlaced s (i + 1) u := by
  have hrun := h.tgaReadSample hr hsrc hpix hn hk hg
  obtain ⟨p, hp⟩ := hg
  obtain ⟨u, hu, hread⟩ := h.read.next hr hsrc hpix hn hk hp
  rw [hrun] at hu
  cases hu
  refine ⟨_, hrun, hread, ?_, placed_pixPut (t := afterFetch t (sampleSize s)) h.pixels h.read.same.csr hk⟩
  rw [h.state, Nat.succ_mul, BitVec.ofNat_add, ← BitVec.add_assoc]
  rfl

/-- A loop that reads one sample a round places the samples that the source holds. -/
theorem samplesPlaced_loop {body : Nat → Eng Unit} (hk : s.pixK + n ≤ pixelTotal s) (hn : sourceHolds s (n * sampleSize s))
    (hbody : ∀ i u, sourceHolds u (sampleSize u) → body i u = Machine.tgaReadSample u)
    (hg : ∀ j, j < n → ∃ p, gives (tgaSample (tgaSampleBytes s j)) s p) :
    ∃ t, forUpTo n body s = .ok () t ∧ SamplesPlaced s n t := by
  refine forUpTo_ok (SamplesPlaced s) (samplesPlaced_zero s) fun i hi t h => ?_
  have hi' := sourceHolds_mono hn hi
  rw [hbody i t (h.read.sourceHolds hi')]
  exact h.next hr hsrc hpix hi' (by omega) (hg i hi)

end Samples

/-- The source of `s` ends inside the sample after those placed. -/
theorem SamplesPlaced.sourceCut {s t : State} {i : Nat} (h : SamplesPlaced s i t)
    (hcut : ¬ sourceHolds s ((i + 1) * sampleSize s)) : ¬ sourceHolds t (sampleSize t) := by
  obtain ⟨-, hl, -⟩ := h.read.kept.values
  unfold sourceHolds at *
  rw [h.read.sampleSize, h.read.source, hl]
  rw [Nat.succ_mul] at hcut
  omega

/-- A loop ends with an error in the round that does, when the rounds before succeed. -/
theorem forUpTo_error {k n : Nat} {body : Nat → Eng Unit} {s t u : State} {e : Stop} (hk : k < n)
    (hs : forUpTo k body s = .ok () t) (he : body k t = .error e u) : forUpTo n body s = .error e u := by
  induction n with
  | zero => exact absurd hk (Nat.not_lt_zero k)
  | succ n ih =>
    rw [forUpTo]
    rcases Nat.lt_succ_iff_lt_or_eq.mp hk with h | rfl
    · exact run_bind_error (ih h)
    · rw [run_bind_ok hs, he]

/-- R250: a sample that is cut off raises ReadError. -/
theorem tgaReadSample_short {s : State} (h : ¬ sourceHolds s (sampleSize s)) :
    tgaReadSample s = .error (.raised .readError) s := by
  rw [tgaReadSample, run_readState_bind]
  exact run_bind_error (readSrc_readError h)

/-- R253, R254: a sample of a packet that is cut off raises FileCorrupted. -/
theorem sampleCut_short {s : State} (h : ¬ sourceHolds s (sampleSize s)) :
    sampleCut s = .error (.raised .fileCorrupted) s := by
  rw [sampleCut, run_readState_bind, run_ite, if_pos (Nat.lt_of_not_le h), run_raise]

/-- R251: a count past the image raises FileCorrupted. -/
theorem packetTooLong_raises {n : Nat} {s : State} (h : pixelTotal s < s.pixK + n) :
    packetTooLong n s = .error (.raised .fileCorrupted) s := by
  rw [packetTooLong, run_readState_bind, run_ite, if_pos h, run_raise]

/-! ### The two ends of a decode, and what was placed before them -/

/-- What the samples placed leave, in the terms of the statements. -/
theorem SamplesPlaced.pixelAt {s t : State} {n j : Nat} {p : Pixel} (h : SamplesPlaced s n t) (hj : j < n)
    (hg : gives (tgaSample (tgaSampleBytes s j)) s p) :
    Machine.pixelAt t (tgaPlace s (s.pixK + j)).1 (tgaPlace s (s.pixK + j)).2 = p :=
  (h.pixels.1 j hj).trans (samplePixel_of_gives hg)

/-- R145: a TGA decode that ends with an error leaves RESULT_DEPTH. -/
theorem endCommand_tga_error {op : Op} {c : Code} (hop : op = .tgaDecodeRaw ∨ op = .tgaDecodeRle) (hc : c ≠ .success)
    (s : State) : endCommand op true c s = tgaEnded s s.pixK c := by
  rcases hop with rfl | rfl <;>
  · simp only [endCommand, if_true, State.setTgaRegs, if_neg hc]
    rfl

/-! ### TGA_DECODE_RAW (R250) -/

/-- The state in which the loop of TGA_DECODE_RAW starts. -/
def rawStart (s : State) : State := { s with outN := 0, pixK := 0 }

theorem exec_tgaDecodeRaw {s : State} (hr : ready .tgaDecodeRaw 0 s) : exec .tgaDecodeRaw s =
    conclude .tgaDecodeRaw (endCommand .tgaDecodeRaw true .success)
      (forUpTo (pixelTotal s) (fun _ => tgaReadSample) (rawStart s)) := by
  rw [exec_command rfl]
  exact runCommand_body hr.1 hr.2

/-- A sample gives in the loop of TGA_DECODE_RAW what it gives at its start. -/
theorem gives_rawStart {s : State} {m : Eng Pixel} {p : Pixel} (hm : looksOnly m) (h : gives m s p) : gives m (rawStart s) p :=
  hm s (rawStart s) p ⟨rfl, rfl, rfl, rfl⟩ h

theorem rawSamples_loop {s : State} {n : Nat} (hr : ready .tgaDecodeRaw 0 s) (hk : n ≤ pixelTotal s)
    (hn : sourceHolds s (n * sampleSize s)) (hg : ∀ k, k < n → ∃ p, gives (tgaSample (tgaSampleBytes s k)) s p) :
    ∃ t, forUpTo n (fun _ => tgaReadSample) (rawStart s) = .ok () t ∧ SamplesPlaced (rawStart s) n t :=
  samplesPlaced_loop (s := rawStart s) hr rfl rfl (by show 0 + n ≤ pixelTotal s; omega) hn (fun _ _ _ => rfl) fun j hj =>
    (hg j hj).imp fun _ hp => gives_rawStart (looksOnly_tgaSample _) hp

theorem SamplesPlaced.rawPixelAt {s t : State} {n j : Nat} {p : Pixel} (h : SamplesPlaced (rawStart s) n t) (hj : j < n)
    (hg : gives (tgaSample (tgaSampleBytes s j)) s p) : Machine.pixelAt t (tgaPlace s j).1 (tgaPlace s j).2 = p := by
  have hp := h.pixelAt hj (gives_rawStart (looksOnly_tgaSample _) hg)
  rwa [show (rawStart s).pixK + j = j from Nat.zero_add j] at hp

theorem SamplesPlaced.rawState {s t : State} {n : Nat} (h : SamplesPlaced (rawStart s) n t) : t = { s with
    srcPos := s.srcPos + BitVec.ofNat 32 (n * sampleSize s)
    outN := 0
    pixK := n
    mem := t.mem
    history := t.history } := by
  have e := h.state
  rwa [show (rawStart s).pixK + n = n from Nat.zero_add n] at e

/-- Settles O25: every sample is read and placed, and the end follows. -/
theorem tgaRawDecodesEveryPixel : Obligations.TgaRawDecodesEveryPixel := by
  rintro s n hr rfl hn hg
  obtain ⟨t, ht, h⟩ := rawSamples_loop hr (Nat.le_refl _) hn hg
  refine ⟨endCommand .tgaDecodeRaw true .success t, by rw [exec_tgaDecodeRaw hr, ht, conclude_ok], ?_,
    fun k p hk hp => h.rawPixelAt hk hp, untouched_mono h.pixels.2 fun _ _ _ => trivial⟩
  rw [← alphaDepth_eq, h.rawState]
  rfl

/-- Settles O26: the round of the sample that is cut off raises ReadError. -/
theorem tgaRawShortPayload : Obligations.TgaRawShortPayload := by
  intro s n hr hlt hn hcut hg
  obtain ⟨t, ht, h⟩ := rawSamples_loop hr (Nat.le_of_lt hlt) hn hg
  have hrun := forUpTo_error hlt ht (tgaReadSample_short (h.sourceCut hcut))
  refine ⟨endCommand .tgaDecodeRaw true .readError t, by rw [exec_tgaDecodeRaw hr, hrun, conclude_raised], ?_,
    fun k p hk hp => h.rawPixelAt hk hp, h.pixels.2⟩
  rw [endCommand_tga_error (c := .readError) (.inl rfl) nofun, h.rawState]
  rfl

/-! ### The packets (R253, R254) -/

/-- A packet that raises FileCorrupted where nothing of it was placed. -/
theorem exec_packet_corrupted {i : Instr} {s t : State} (hi : i.stream = .tga)
    (h : tokenOf i s = .error (.raised .fileCorrupted) t) : exec i s = .next (tgaEnded t t.pixK .fileCorrupted) := by
  have hop : opOf i = .tgaDecodeRle := by cases i <;> first | rfl | cases hi
  rw [exec_token_raised (by rw [hi]; nofun) h, hop, endCommand_tga_error (c := .fileCorrupted) (.inr rfl) nofun]

/-- R253: `n` placements of one pixel. -/
theorem placeNext_loop {s : State} {n : Nat} (p : Pixel) (hf : imageFits s) (hk : s.pixK + n ≤ pixelTotal s) :
    ∃ t, forUpTo n (fun _ => placeNext p) s = .ok () t ∧
      t = { s with pixK := s.pixK + n, mem := t.mem, history := t.history } ∧ placed s t s.pixK n (fun _ => p) := by
  refine forUpTo_ok (fun i t => t = { s with pixK := s.pixK + i, mem := t.mem, history := t.history } ∧
    placed s t s.pixK i (fun _ => p)) ⟨rfl, placed_zero ..⟩ fun i hi t ⟨hstate, hp⟩ => ?_
  have hsame : SameSources s t := by
    rw [hstate]
    exact ⟨rfl, rfl, rfl, rfl⟩
  have htotal : t.pixK < pixelTotal t := by
    rw [pixelTotal, hsame.width, hsame.height, hstate]
    exact Nat.lt_of_lt_of_le (Nat.add_lt_add_left hi _) hk
  have hwhere : tgaPlace t t.pixK = tgaPlace s (s.pixK + i) := by
    rw [hstate]
    rfl
  have hrun := placeNext_ok p (hsame.imageFits hf) htotal
  rw [hwhere] at hrun
  refine ⟨_, hrun, ?_, placed_pixPut (color := fun _ => p) hp hsame.csr (by omega)⟩
  rw [hstate]
  rfl

theorem tgaRun_ok {s : State} {n : Nat} {p : Pixel} (hr : ready .tgaDecodeRle 0 s) (hk : s.pixK + n ≤ pixelTotal s)
    (hn : sourceHolds s (sampleSize s)) (hg : gives (tgaSample (tgaSampleBytes s 0)) s p) :
    ∃ t, tgaRun n s = .ok () t ∧
      t = { s with
        srcPos := s.srcPos + BitVec.ofNat 32 (sampleSize s)
        pixK := s.pixK + n
        mem := t.mem
        history := t.history } ∧
      placed s t s.pixK n (fun _ => p) := by
  have hread := readSrc_afterFetch (hr.sourceFits rfl) hn
  rw [(samplesDone_zero s).sampleBytes hr rfl rfl (by simpa using hn)] at hread
  have hsample := looksOnly_tgaSample _ s _ p (sameSources_afterFetch s (sampleSize s)) hg
  rw [tgaRun, run_bind_ok (packetTooLong_fits hk), run_bind_ok (sampleCut_fits hn), run_readState_bind,
    run_bind_ok hread, run_bind_ok hsample]
  exact placeNext_loop (s := afterFetch s (sampleSize s)) p (hr.imageFits rfl) hk

/-- Settles O28: one sample is read and its pixel placed `n` times, unless one of the packet's two tests raises first. -/
theorem tgaRunRepeatsOnePixel : Obligations.TgaRunRepeatsOnePixel := by
  rintro h s n hr rfl
  refine ⟨fun hk hn p hg => ?_, fun hbad => ?_⟩
  · obtain ⟨t, ht, hstate, hp⟩ := tgaRun_ok hr hk hn hg
    exact ⟨t, exec_token_ok nofun ht, hstate, hp.painted⟩
  · refine exec_packet_corrupted rfl (show tgaRun _ s = _ from ?_)
    by_cases hk : pixelTotal s < s.pixK + (h.toNat + 1)
    · exact run_bind_error (packetTooLong_raises hk)
    · rw [tgaRun, run_bind_ok (packetTooLong_fits (Nat.not_lt.mp hk))]
      exact run_bind_error (sampleCut_short (hbad.resolve_left hk))

/-- A round of TGA.RAW, when its sample is there. -/
theorem rawRound_eq {s : State} (h : sourceHolds s (sampleSize s)) :
    (do
      sampleCut
      tgaReadSample : Eng Unit) s = tgaReadSample s := run_bind_ok (sampleCut_fits h)

/-- Settles O29: every sample is placed, or the round of the sample that is cut off raises FileCorrupted. -/
theorem tgaRawPacketPlacesItsSamples : Obligations.TgaRawPacketPlacesItsSamples := by
  rintro h s n hr rfl
  refine ⟨fun hk hn hg => ?_, fun hk => ?_, fun hk m hm hn hcut hg => ?_⟩
  · obtain ⟨t, ht, hp⟩ := samplesPlaced_loop hr rfl rfl hk hn (fun _ _ => rawRound_eq) hg
    refine ⟨t, exec_token_ok nofun ?_, hp.state, fun j p hj => hp.pixelAt hj, hp.pixels.2⟩
    exact (run_bind_ok (packetTooLong_fits hk)).trans ht
  · exact exec_packet_corrupted rfl (run_bind_error (packetTooLong_raises hk))
  · obtain ⟨t, ht, hp⟩ := samplesPlaced_loop hr rfl rfl (by omega) hn (fun _ _ => rawRound_eq) hg
    have hrun := forUpTo_error hm ht (run_bind_error (sampleCut_short (hp.sourceCut hcut)))
    refine ⟨_, exec_packet_corrupted rfl ((run_bind_ok (packetTooLong_fits hk)).trans hrun), ?_,
      fun j p hj => hp.pixelAt hj, hp.pixels.2⟩
    rw [hp.state]
    rfl

/-! ### The start of the packet and scanline loops (R251, R240) -/

/-- Settles O27: the body of each command sets the counters of its loop, and the phase of the loop follows. -/
theorem packetAndScanlineLoopsStart : Obligations.PacketAndScanlineLoopsStart := by
  intro s
  exact ⟨fun hr => (exec_command rfl s).trans (runCommand_body hr.1 hr.2),
    fun hr => (exec_command rfl s).trans (runCommand_body hr.1 hr.2)⟩

end Sys2Proof.Machine
end

section
/-!
PROOFS. The PCX scanlines (43_scanline_codec.md R240-R245): what a token adds to LINE, and how a scanline of either encoding
is written to its row.
-/

namespace Sys2Proof.Machine

/-! ### Tokens (R243, R244) -/

/-- R243: with a value byte left, its copies are appended as far as the scanline reaches. -/
theorem pcxRep_ok {s : State} (k : Nat) (hs : sourceFits s) (hn : sourceHolds s 1) :
    pcxRep k s = .ok () { s with
      srcPos := s.srcPos + 1
      line := s.line ++ List.replicate (min (if k = 0 then 1 else k) (pcxStride s - s.line.length))
        (sourceByte s (srcOff s))
      history := (s.logRead (srcBase s + srcOff s)).history } := by
  have hlt : srcOff s < srcLen s := hn
  rw [pcxRep, run_readState_bind, run_ite, if_neg (Nat.not_le.mpr hlt), run_bind_ok (srcByte_ok hlt hs), run_update_bind,
    run_update]
  simp only [State.advance, State.logRead_srcPos, srcPos_add]
  rfl

/-- R243: with no value byte left, the source is exhausted. -/
theorem pcxRep_exhausted {s : State} (k : Nat) (hn : ¬ sourceHolds s 1) :
    pcxRep k s = .ok () { s with exhausted := true } := by
  rw [pcxRep, run_readState_bind, run_ite, if_pos (Nat.not_lt.mp hn), run_update]

/-- Settles O32, one clause per lemma above; PCX.LIT appends its byte by definition. -/
theorem pcxTokensExtendTheLine : Obligations.PcxTokensExtendTheLine := by
  intro k b s hs
  have hzero : (if k = 0 then 1 else k.toNat) = if k.toNat = 0 then 1 else k.toNat :=
    if_congr (BitVec.toNat_eq (x := k) (y := 0)) rfl rfl
  refine ⟨fun hn => ⟨_, exec_token_ok nofun (pcxRep_ok k.toNat hs hn), ?_⟩,
    fun hn => exec_token_ok nofun (pcxRep_exhausted k.toNat hn), rfl⟩
  rw [hzero]
  rfl

/-! ### The end of a scanline (R240, R242, R245) -/

/-- `t` shows in row `s.row` the pixels of the line of `z`, and no other byte differs from `s`. -/
def rowWritten (s z t : State) : Prop :=
  (∀ x p, x < width s → gives (pcxPixel x) z p → pixelAt t x s.row = p) ∧ untouched s t (fun _ y => y = s.row)

theorem assembleRow_ok {s : State} (hf : imageFits s) (hrow : s.row < height s)
    (hg : ∀ x, x < width s → ∃ p, gives (pcxPixel x) s p) :
    ∃ t, assembleRow s = .ok () t ∧ onlyMemory s t ∧ rowWritten s s t := by
  choose! pixel hpixel using hg
  obtain ⟨t, ht, hm, hshown, hrest⟩ := rowCopy_ok (y := s.row) (hit := fun _ _ => False) (value := fun x _ => pixel x)
    (.refl s) (painted_none s _ fun _ _ _ _ h => h) hf hrow looksOnly_pcxPixel hpixel
  refine ⟨t, ht, hm, fun x p hx hp => ?_, untouched_mono hrest fun x y h => h.resolve_left id⟩
  have e := hpixel x hx
  rw [gives, hp] at e
  rw [hshown x s.row hx hrow (.inr rfl)]
  injection e with e
  exact e.symm

/-- A scanline that is not the last one of an image with a second pass is zero-filled and written to its row. -/
theorem finishScanline_ok {s : State} (hf : imageFits s) (hrow : s.row < height s)
    (hlast : s.row + 1 < height s ∨ pcxMode (depth s) (pcxPlanes s) ≠ .indexed8)
    (hg : ∀ x, x < width s → ∃ p, gives (pcxPixel x) (withLine s s.line) p) :
    ∃ t, finishScanline s = .ok () t ∧
      t = { s with row := s.row + 1, line := [], mem := t.mem, history := t.history } ∧
      rowWritten s (withLine s s.line) t := by
  obtain ⟨t, ht, hm, hw⟩ := assembleRow_ok (s := withLine s s.line) hf hrow hg
  have hstate : { t with row := t.row + 1, line := [] } =
      { s with row := s.row + 1, line := [], mem := t.mem, history := t.history } := by
    rw [hm]
    rfl
  refine ⟨{ t with row := t.row + 1, line := [] }, ?_, hstate, hw⟩
  have hsecond : ¬ (s.row + 1 ≥ height s ∧ pcxMode (depth s) (pcxPlanes s) = .indexed8) := by
    rintro ⟨hge, hmode⟩
    exact hlast.elim (fun h => absurd hge (Nat.not_le.mpr h)) fun h => h hmode
  rw [finishScanline, zeroFillLine, run_update_bind, ← withLine, run_bind_ok ht, run_update_bind, run_readState_bind, hstate]
  exact congrFun (if_neg hsecond) _

/-- The step that ends a scanline goes on with the next one, or ends the command with Success after the last. -/
theorem conclude_finishScanline {s : State} (hf : imageFits s) (hrow : s.row < height s)
    (hlast : s.row + 1 < height s ∨ pcxMode (depth s) (pcxPlanes s) ≠ .indexed8)
    (hg : ∀ x, x < width s → ∃ p, gives (pcxPixel x) (withLine s s.line) p) :
    ∃ t, conclude .pcxDecode afterScanline (finishScanline s) = .next t ∧
      t = { (if s.row + 1 < height s then s else ended s .success) with
        row := s.row + 1
        line := []
        mem := t.mem
        history := t.history } ∧
      rowWritten s (withLine s s.line) t := by
  obtain ⟨t, ht, hstate, hw⟩ := finishScanline_ok hf hrow hlast hg
  have hgoes : t.row = s.row + 1 ∧ height t = height s := by
    rw [hstate]
    exact ⟨rfl, rfl⟩
  refine ⟨afterScanline t, by rw [ht, conclude_ok], ?_⟩
  rw [afterScanline, hgoes.1, hgoes.2]
  split
  · exact ⟨hstate, hw⟩
  · refine ⟨?_, hw⟩
    rw [hstate]
    rfl

theorem engineStep_lineEnd {s : State} (hp : s.phase = .pcx) (henc : pcxEncoding s = 1) (hover : scanlineOver s = true) :
    engineStep s = conclude .pcxDecode afterScanline (finishScanline s) := by
  simp [engineStep, engineAction, hp, henc, hover, pcxLineEnd]

theorem engineStep_rawLine {s : State} (hp : s.phase = .pcx) (henc : pcxEncoding s = 0) :
    engineStep s = conclude .pcxDecode afterScanline
      ((do
        scanRaw
        finishScanline : Eng Unit) s) := by
  simp [engineStep, engineAction, hp, henc, pcxRawLine]

/-- Settles O33: the step is the end of the scanline whose tokens are over. -/
theorem pcxScanlineIsAssembled : Obligations.PcxScanlineIsAssembled := by
  intro s hp hr hrow henc hover _ hlast hg
  rw [engineStep_lineEnd hp henc hover]
  exact conclude_finishScanline (hr.imageFits rfl) hrow hlast hg

/-- `s` after an uncompressed scanline took `n` bytes of the source (R241). -/
def scanned (s : State) (n : Nat) : State := { afterFetch s n with line := (withLine s (srcBytes s n)).line }

section Scanned
variable (s : State) {n : Nat}

theorem scanned_row (n : Nat) : (scanned s n).row = s.row := rfl

theorem scanned_height (n : Nat) : height (scanned s n) = height s := rfl

/-- The line that an uncompressed scanline takes is full: its end adds no zeros. -/
theorem withLine_scanned (hn : n ≤ pcxStride s) : withLine (scanned s n) (scanned s n).line = scanned s n := by
  have hlen : (scanned s n).line.length = pcxStride (scanned s n) :=
    withLine_full (by rw [srcBytes, Memory.bytesAt_length]; exact hn)
  rw [withLine, hlen, Nat.sub_self, List.replicate_zero, List.append_nil]

/-- The pixels of that line, in the terms of the statements. -/
theorem gives_scanned (hn : n ≤ pcxStride s) {x : Nat} {p : Pixel} (h : gives (pcxPixel x) (withLine s (srcBytes s n)) p) :
    gives (pcxPixel x) (withLine (scanned s n) (scanned s n).line) p := by
  rw [withLine_scanned s hn]
  exact looksOnly_pcxPixel x (withLine s (srcBytes s n)) (scanned s n) p ⟨rfl, rfl, rfl, rfl⟩ h

end Scanned

/-- Settles O34: the line that the source gives is taken, and the scanline ends as one whose tokens are over. -/
theorem pcxRawScanlineIsAssembled : Obligations.PcxRawScanlineIsAssembled := by
  rintro s z n hp hr hrow henc hn rfl hlast hg
  have hscan : scanRaw s = .ok () (scanned s n) := scanRaw_ok (hr.sourceFits rfl) (hr.source rfl) hn
  have hle : n ≤ pcxStride s := hn ▸ Nat.min_le_left _ _
  obtain ⟨t, ht, hstate, hshown, hrest⟩ := conclude_finishScanline (s := scanned s n) (hr.imageFits rfl) hrow hlast
    fun x hx => (hg x hx).imp fun _ => gives_scanned s hle
  refine ⟨t, by rw [engineStep_rawLine hp henc, run_bind_ok hscan, ht], hstate.trans ?_,
    fun x p hx h => hshown x p hx (gives_scanned s hle h), hrest⟩
  rw [scanned_row, scanned_height]
  split <;> rfl

end Sys2Proof.Machine
end

section
/-!
PROOFS. The conversions between samples and canonical pixels (44_convert.md R284-R288, R291-R297, R301, R310-R317,
R320-R322): mask channels, the bytes of a pixel, the palette lookups, and what each format gives of its sample.
-/

namespace Sys2Proof.Machine

/-! ### Mask channels (R284) -/

theorem two_pow_trailingZeros_dvd (fuel m : Nat) : 2 ^ trailingZeros fuel m ∣ m := by
  induction fuel generalizing m with
  | zero => exact Nat.one_dvd m
  | succ fuel ih =>
    rw [trailingZeros]
    split
    · exact Nat.one_dvd m
    · rw [Nat.pow_add, Nat.pow_one]
      exact Nat.mul_dvd_of_dvd_div (Nat.dvd_of_mod_eq_zero (by omega)) (ih (m / 2))

/-- A nonzero mask is still nonzero when its trailing zeros are shifted out. -/
theorem shifted_mask_pos {m : Word} (h : m ≠ 0) : 0 < m.toNat >>> trailingZeros 32 m.toNat := by
  have hpos : 0 < m.toNat := Nat.pos_of_ne_zero fun e => h (BitVec.eq_of_toNat_eq e)
  rw [Nat.shiftRight_eq_div_pow]
  exact Nat.div_pos (Nat.le_of_dvd hpos (two_pow_trailingZeros_dvd 32 _)) (Nat.two_pow_pos _)

theorem chan_le (v m : Word) : chan v m ≤ 255 := by
  refine Nat.div_le_of_le_mul (Nat.mul_le_mul_right 255 ?_)
  rw [Nat.shiftRight_eq_div_pow, Nat.shiftRight_eq_div_pow, BitVec.toNat_and]
  exact Nat.div_le_div_right Nat.and_le_right

theorem chan_full {v m : Word} (h : m ≠ 0) (hv : v &&& m = m) : chan v m = 255 := by
  rw [chan, hv]
  exact Nat.mul_div_cancel_left 255 (shifted_mask_pos h)

theorem chan_empty {v m : Word} (hv : v &&& m = 0) : chan v m = 0 := by
  simp [chan, hv]

/-- Settles O20. -/
theorem maskChannelIsAByte : Obligations.MaskChannelIsAByte :=
  fun v m hm => ⟨chan_le v m, chan_full hm, chan_empty⟩

/-- The channel of a mask of `len` bits from bit `lo` on scales that field of the value. -/
theorem chan_field {m : Word} {lo len : Nat} (v : Word) (hlo : trailingZeros 32 m.toNat = lo)
    (hlen : m.toNat >>> lo = 2 ^ len - 1) : chan v m = bits v lo len * 255 / (2 ^ len - 1) := by
  simp only [chan, hlo, BitVec.toNat_and, Nat.shiftRight_and_distrib, hlen, Nat.and_two_pow_sub_one_eq_mod]
  rw [Nat.shiftRight_eq_div_pow, bits]

/-- R285: the masks of a 16-bit sample are the fields of R291. -/
theorem bmp555_eq (v : BitVec 16) : bmp555 v = rgb555 v 255 := by
  have field : ∀ {m : Word} {lo : Nat}, trailingZeros 32 m.toNat = lo → m.toNat >>> lo = 31 →
      chan (v.setWidth 32) m = bits v lo 5 * 255 / 31 := fun {m lo} hlo hlen => by
    have hbits : bits v lo 5 = bits (v.setWidth 32) lo 5 := by rw [bits, bits, BitVec.toNat_setWidth_of_le (by decide)]
    rw [hbits]
    exact chan_field (len := 5) _ hlo hlen
  have hb : chan (v.setWidth 32) 0x001F = bits v 0 5 * 255 / 31 := field (by decide) (by decide)
  have hg : chan (v.setWidth 32) 0x03E0 = bits v 5 5 * 255 / 31 := field (by decide) (by decide)
  have hr : chan (v.setWidth 32) 0x7C00 = bits v 10 5 * 255 / 31 := field (by decide) (by decide)
  simp only [bmp555, bitfield, chanOr, hb, hg, hr]
  rfl

/-! ### The bytes of a pixel (R10, R320-R322) -/

theorem bits_bgra (b g r a : Byte) : bits (bgra b g r a) 0 8 = b.toNat ∧ bits (bgra b g r a) 8 8 = g.toNat ∧
    bits (bgra b g r a) 16 8 = r.toNat ∧ bits (bgra b g r a) 24 8 = a.toNat := by
  simp only [bits, bgra, BitVec.toNat_ofNat]
  omega

theorem byteOf_eq_bits (v : Word) (i : Nat) : byteOf v i = BitVec.ofNat 8 (bits v (8 * i) 8) := by
  apply BitVec.eq_of_toNat_eq
  rw [byteOf, BitVec.extractLsb'_toNat, BitVec.toNat_ofNat, bits, Nat.mod_mod, Nat.shiftRight_eq_div_pow]

theorem wordBytes_bgra (b g r a : Byte) : wordBytes (bgra b g r a) = [b, g, r, a] := by
  obtain ⟨hb, hg, hr, ha⟩ := bits_bgra b g r a
  simp [wordBytes, byteOf_eq_bits, hb, hg, hr, ha]

theorem pack24_bgra (b g r a : Byte) : pack24 (bgra b g r a) = [b, g, r] :=
  congrArg (List.take 3) (wordBytes_bgra b g r a)

theorem luma_bgra (b g r a : Byte) :
    luma (bgra b g r a) = BitVec.ofNat 8 ((r.toNat * 299 + g.toNat * 587 + b.toNat * 114) / 1000) := by
  obtain ⟨hb, hg, hr, -⟩ := bits_bgra b g r a
  rw [luma, hb, hg, hr]

/-- The three weights of R320 add up to 1000. -/
theorem luma_gray (b a : Byte) : luma (bgra b b b a) = b := by
  rw [luma_bgra, show (b.toNat * 299 + b.toNat * 587 + b.toNat * 114) / 1000 = b.toNat by omega, BitVec.ofNat_toNat,
    BitVec.setWidth_eq]

theorem tgaDirect_24 {s : State} (h : depth s = 24) (bs : List Byte) :
    tgaDirect s bs = bgra (bs.getD 0 0) (bs.getD 1 0) (bs.getD 2 0) 255 := by
  simp [tgaDirect, h]

theorem tgaDirect_32 {s : State} (h : depth s = 32) (bs : List Byte) :
    tgaDirect s bs = bgra (bs.getD 0 0) (bs.getD 1 0) (bs.getD 2 0) (bs.getD 3 0) := by
  simp [tgaDirect, h]

/-- Settles O41: the bytes that are packed are those of the pixel. -/
theorem packedSamplesReadBack : Obligations.PackedSamplesReadBack := by
  intro b g r a p s
  exact ⟨luma_gray b a, luma_bgra b g r a, pack24_bgra b g r a, wordBytes_bgra b g r a, fun h => tgaDirect_24 h _,
    fun h => (tgaDirect_32 h _).trans (wordFromBytes_wordBytes p)⟩

/-! ### Palette lookups (R294-R296) -/

theorem lookupBmp_run (i : Nat) (s : State) : lookupBmp i s = palLookup (bmpEntry s i) s := rfl

theorem lookupPcx_empty {s : State} (i : Nat) (h : palEntries s = 0) : lookupPcx i s = .ok opaqueBlack s := by
  rw [lookupPcx, run_readState_bind, if_pos h, run_pure]

/-- R295: with a palette, as R294. -/
theorem lookupPcx_loaded {s : State} (i : Nat) (h : palEntries s ≠ 0) : lookupPcx i s = palLookup (bmpEntry s i) s := by
  rw [lookupPcx, run_readState_bind, if_neg h, bmpEntry]

theorem lookupTga_outside {s : State} {i : Nat} (h : i < palOrigin s ∨ palOrigin s + palEntries s ≤ i) :
    lookupTga i s = .ok opaqueBlack s := by
  rw [lookupTga, run_readState_bind, if_neg (by omega), run_pure]

theorem lookupTga_inside {s : State} {j : Nat} (h : j < palEntries s) : lookupTga (palOrigin s + j) s = palLookup j s := by
  rw [lookupTga, run_readState_bind, Nat.add_sub_cancel_left, if_pos ⟨Nat.le_add_right _ _, h⟩]

/-- Settles O24: each lookup is one of the entry that its index resolves to, or opaque black. -/
theorem paletteLookups : Obligations.PaletteLookups := by
  intro s i
  refine ⟨fun p h => ?_, ?_, lookupPcx_empty i, fun hn p h => ?_, ?_, lookupTga_outside, ?_, ?_⟩
  · exact (lookupBmp_run i s).trans (palLookup_ok h)
  · rintro _ rfl h
    exact (lookupBmp_run i s).trans (palLookup_unwritten h)
  · exact (lookupPcx_loaded i hn).trans (palLookup_ok h)
  · rintro hn _ rfl h
    exact (lookupPcx_loaded i hn).trans (palLookup_unwritten h)
  · rintro j p rfl hj h
    exact (lookupTga_inside hj).trans (palLookup_ok h)
  · rintro j rfl hj h
    exact (lookupTga_inside hj).trans (palLookup_unwritten h)

/-! ### Palette entries (R301) -/

/-- Settles O22, one format a line; formats 2 and 3 are one rule. -/
theorem paletteEntryFormats : Obligations.PaletteEntryFormats := by
  intro e0 e1 e2 e3
  exact ⟨⟨rfl, rfl⟩, ⟨rfl, rfl⟩, ⟨rfl, rfl⟩, ⟨rfl, rfl⟩, ⟨rfl, rfl⟩, ⟨rfl, rfl⟩, rfl, rfl⟩

/-! ### BMP samples (R285-R288) -/

/-- Settles O19, one clause per depth; at 16 without masks by `bmp555_eq`. -/
theorem bmpPixelFormats : Obligations.BmpPixelFormats := by
  intro s row x
  refine ⟨fun h p hp => ?_, fun h => ?_, fun h => ?_, fun h => ?_⟩ <;>
    rw [gives, bmpPixel, run_readState_bind]
  · rw [if_pos h]
    exact lookupBmp_ok hp
  · simp only [h, bmp555_eq, Nat.reduceLeDiff, if_false, if_true]
    rfl
  · simp only [h, Nat.reduceLeDiff, Nat.reduceEqDiff, if_false, if_true]
    rfl
  · simp only [h, Nat.reduceLeDiff, Nat.reduceEqDiff, if_false]
    rfl

/-! ### TGA samples (R291-R293, R297) -/

section TgaSample
variable {s : State} (bs : List Byte)

theorem tgaSample_direct (h : kind s = 0) : tgaSample bs s = .ok (tgaDirect s bs) s := by
  rw [tgaSample, run_readState_bind, if_pos h, run_pure]

theorem tgaSample_gray (h : kind s = 2) : tgaSample bs s = .ok (tgaGray s bs) s := by
  rw [tgaSample, run_readState_bind, if_neg (by omega), if_pos h, run_pure]

theorem tgaSample_indexed (h : kind s = 1) : tgaSample bs s = lookupTga (tgaIndex s bs) s := by
  rw [tgaSample, run_readState_bind, if_neg (by omega), if_neg (by omega)]

end TgaSample

/-- R291: bit 15 is an alpha bit at 16 bits with alpha bits, and the alpha is 255 otherwise. -/
theorem tgaDirect_16 {s : State} (h : depth s = 15 ∨ depth s = 16) (b0 b1 : Byte) : tgaDirect s [b0, b1] =
    rgb555 (le16 b0 b1) (if depth s = 16 ∧ 0 < alphaBits s ∧ bits (le16 b0 b1) 15 1 = 0 then 0 else 255) := by
  have hbit : bits (le16 b0 b1) 15 1 = 0 ∨ bits (le16 b0 b1) 15 1 = 1 := by
    have := bits_lt (le16 b0 b1) 15 1
    omega
  rw [tgaDirect, if_pos (by omega), tgaDirect16]
  refine congrArg _ ?_
  rcases hbit with hbit | hbit <;> simp [hbit]

theorem le16_toNat (b0 b1 : Byte) : (le16 b0 b1).toNat = b0.toNat + 256 * b1.toNat := by
  rw [le16, BitVec.toNat_ofNat]
  omega

/-- Settles O30, by the kind of the sample and then by its depth. -/
theorem tgaSampleFormats : Obligations.TgaSampleFormats := by
  intro s b0 b1 b2 b3
  refine ⟨fun hk hd => ?_, fun hk hd => ?_, fun hk hd => ?_, fun hk hd => ?_, fun hk hd => ?_, fun hk hd => ?_,
    fun hk hd => ?_⟩
  · exact (tgaSample_direct _ hk).trans (by rw [tgaDirect_16 hd]; rfl)
  · exact (tgaSample_direct _ hk).trans (by rw [tgaDirect_24 hd]; rfl)
  · exact (tgaSample_direct _ hk).trans (by rw [tgaDirect_32 hd]; rfl)
  · exact (tgaSample_gray _ hk).trans (by rw [tgaGray, if_pos hd]; rfl)
  · exact (tgaSample_gray _ hk).trans (by rw [tgaGray, if_neg (by omega)]; rfl)
  · exact (tgaSample_indexed _ hk).trans (by rw [tgaIndex, if_pos hd]; rfl)
  · refine (tgaSample_indexed _ hk).trans ?_
    rw [tgaIndex, if_neg (by omega), ← le16_toNat]
    rfl

/-! ### PCX columns (R310-R317) -/

theorem planarIndex_eq_sum (s : State) (x np : Nat) :
    planarIndex s x np = ((List.range np).map fun p => planeBit s p x * 2 ^ p).sum := by
  induction np with
  | zero => rfl
  | succ np ih => rw [planarIndex, ih, List.range_succ, List.map_append, List.sum_append, List.map_singleton,
      List.sum_singleton]

/-- R125: `n` fields of `d` bits fill a byte, the first one at the top. -/
theorem packedIndex_eq {d n : Nat} (h : n * d = 8) (byte : Byte) (x : Nat) :
    packedIndex byte d x = byte.toNat / (2 ^ d) ^ (n - 1 - x % n) % 2 ^ d := by
  have hshift : 8 - d - x * d % 8 = d * (n - 1 - x % n) := by
    rw [← h, Nat.mul_mod_mul_right, Nat.mul_comm d, Nat.sub_mul, Nat.sub_mul, Nat.one_mul]
  rw [packedIndex, hshift, Nat.shiftRight_eq_div_pow, Nat.pow_mul]

/-- R314: the scratch word of an index has it in its blue byte. -/
theorem setWidth_eq_bgra (b : Byte) : b.setWidth 32 = bgra b 0 0 0 := by
  apply BitVec.eq_of_toNat_eq
  simp [bgra]

section PcxMode
variable {s : State} (x : Nat)

theorem pcxPixel_packed2 (h : depth s = 2) :
    pcxPixel x s = lookupPcx (packedIndex (planeByte s 0 (x / 4)) 2 x) s := by
  rw [pcxPixel, run_readState_bind, h, show x * 2 / 8 = x / 4 by omega]
  rfl

theorem pcxPixel_packed4 (h : depth s = 4) :
    pcxPixel x s = lookupPcx (packedIndex (planeByte s 0 (x / 2)) 4 x) s := by
  rw [pcxPixel, run_readState_bind, h, show x * 4 / 8 = x / 2 by omega]
  rfl

theorem pcxPixel_planar1 (h : depth s = 1) : pcxPixel x s =
    if pcxPlanes s = 1 ∧ palInfo s = 2 then .ok (if planeBit s 0 x = 1 then opaqueWhite else opaqueBlack) s
    else lookupPcx (planarIndex s x (pcxPlanes s)) s := by
  rw [pcxPixel, run_readState_bind, h]
  exact run_ite ..

/-- R314: in INDEXED8 the pixel is the scratch word. -/
theorem pcxPixel_indexed8 (h : pcxMode (depth s) (pcxPlanes s) = .indexed8) :
    pcxPixel x s = .ok (bgra (planeByte s 0 x) 0 0 0) s := by
  rw [pcxPixel, run_readState_bind, h, ← setWidth_eq_bgra]
  rfl

end PcxMode

/-- Settles O35, one clause per mode. -/
theorem pcxPixelModes : Obligations.PcxPixelModes := by
  intro s x
  refine ⟨fun hd hp hi => ?_, fun hd hn => ?_, fun hd => ?_, fun hd => ?_, fun hd hp => ?_, fun hd hp => ?_,
    fun hd hp => ?_⟩
  · exact (pcxPixel_planar1 x hd).trans (if_pos ⟨hp, hi⟩)
  · rw [pcxPixel_planar1 x hd, if_neg hn, planarIndex_eq_sum]
  · exact (pcxPixel_packed2 x hd).trans (congrArg (lookupPcx · s) (packedIndex_eq (n := 4) rfl _ x))
  · exact (pcxPixel_packed4 x hd).trans (congrArg (lookupPcx · s) (packedIndex_eq (n := 2) rfl _ x))
  · exact pcxPixel_indexed8 x (by rw [hd, hp]; rfl)
  · rw [gives, pcxPixel, run_readState_bind, hd, hp]
    rfl
  · rw [gives, pcxPixel, run_readState_bind, hd, hp]
    rfl

end Sys2Proof.Machine
end

section
/-!
PROOFS. The commands of 44_convert.md that run to their end in one step: the palette loaders (R300, R304) and BMP_DECODE_RAW
(R289); and the canonical positions of a TGA image (R298).
-/

namespace Sys2Proof.Machine

/-! ### A command whose end only writes STATUS (R145) -/

section Whole
variable {i : Instr} {s t : State} (hi : i.stream = .command) (hend : ∀ c u, endCommand (opOf i) true c u = ended u c)
  (hr : ready (opOf i) (argOf i) s)
include hi hend hr

theorem exec_whole_ok (hafter : afterOf i = endCommand (opOf i) true .success)
    (h : bodyOf i { s with outN := 0 } = .ok () t) : exec i s = .next (ended t .success) := by
  rw [exec_command hi, runCommand_body hr.1 hr.2, h, conclude_ok, hafter, hend]

theorem exec_whole_raised {c : Code} (h : bodyOf i { s with outN := 0 } = .error (.raised c) t) :
    exec i s = .next (ended t c) := by
  rw [exec_command hi, runCommand_body hr.1 hr.2, h, conclude_raised, hend]

end Whole

/-- R76: a body that first reads bytes that are not all there raises ReadError, and has done nothing. -/
theorem fetchFirst_short {n : State → Nat} {rest : State → List Byte → Eng Unit} {s : State} (hn : ¬ sourceHolds s (n s)) :
    (do
      let s ← readState
      let data ← readSrc (n s)
      rest s data : Eng Unit) s = .error (.raised .readError) s := by
  rw [run_readState_bind]
  exact run_bind_error (readSrc_readError hn)

/-! ### The palette loaders (R300, R304) -/

theorem palLoadBody_ok {s : State} (arg : Byte) (hs : sourceFits s) (hn : sourceHolds s (palEntries s * entrySize arg)) :
    ∃ t, palLoadBody arg s = .ok () t ∧ t = { afterFetch s (palEntries s * entrySize arg) with pal := t.pal } ∧
      ∀ i, cellGet? t.pal i = if i < palEntries s
        then some (paletteEntry arg (chunk (srcBytes s (palEntries s * entrySize arg)) (entrySize arg) i))
        else cellGet? s.pal i := by
  rw [palLoadBody, run_readState_bind, run_bind_ok (readSrc_afterFetch hs hn)]
  exact palWrites_ok _ _ (afterFetch s _)

/-- Settles O21: the entries are written in order, unless their bytes are not all there. -/
theorem palLoadWritesItsEntries : Obligations.PalLoadWritesItsEntries := by
  rintro arg s n hr rfl
  refine ⟨fun hn => ?_, fun hn => ?_⟩
  · obtain ⟨t, ht, hstate, hpal⟩ := palLoadBody_ok (s := { s with outN := 0 }) arg (hr.sourceFits rfl) hn
    refine ⟨_, exec_whole_ok rfl (fun _ _ => rfl) hr rfl ht, ?_, hpal⟩
    rw [hstate]
    rfl
  · exact exec_whole_raised (i := .palLoad arg) rfl (fun _ _ => rfl) hr (fetchFirst_short hn)

theorem all_zero_iff {h : List Byte} {n : Nat} (hlen : h.length = n) :
    h.all (· == 0) = true ↔ ∀ j, j < n → h.getD j 0 = 0 := by
  subst hlen
  simp only [List.all_eq_true, beq_iff_eq, List.forall_mem_iff_forall_getElem]
  exact forall₂_congr fun j hj => by rw [List.getD_eq_getElem _ _ hj]

/-- R304: which palette the header selects, as one condition. -/
theorem egaEntry_eq (s : State) {h : List Byte} (hlen : h.length = 48) (i : Nat) : egaEntry s h i =
    if pcxVersion s = 0 ∨ pcxVersion s = 3 ∨ (∀ j, j < 48 → h.getD j 0 = 0) then egaDefault.getD i 0
    else bgra (h.getD (3 * i + 2) 0) (h.getD (3 * i + 1) 0) (h.getD (3 * i) 0) 255 := by
  refine if_congr ?_ rfl rfl
  simp only [usesEgaDefault, Bool.or_eq_true, decide_eq_true_eq, all_zero_iff hlen, or_assoc]

theorem pcxEgaLoadBody_ok {s : State} (hs : sourceFits s) (hn : sourceHolds s 48) :
    ∃ t, pcxEgaLoadBody s = .ok () t ∧ t = { afterFetch s 48 with pal := t.pal, palCount := 16 } ∧
      ∀ i, cellGet? t.pal i = if i < 16 then some (egaEntry s (srcBytes s 48) i) else cellGet? s.pal i := by
  obtain ⟨t, ht, hstate, hpal⟩ := palWrites_ok 16 (egaEntry s (srcBytes s 48)) (afterFetch s 48)
  refine ⟨{ t with palCount := 16 }, ?_, ?_, hpal⟩
  · rw [pcxEgaLoadBody, run_readState_bind, run_bind_ok (readSrc_afterFetch hs hn), run_bind_ok ht, run_update]
  · rw [hstate]

/-- Settles O23, as O21; `egaEntry_eq` says which palette is written. -/
theorem egaLoadWritesSixteenEntries : Obligations.EgaLoadWritesSixteenEntries := by
  rintro s h hr rfl
  refine ⟨fun hn => ?_, fun hn => ?_⟩
  · obtain ⟨t, ht, hstate, hpal⟩ := pcxEgaLoadBody_ok (s := { s with outN := 0 }) (hr.sourceFits rfl) hn
    refine ⟨_, exec_whole_ok rfl (fun _ _ => rfl) hr rfl ht, ?_, fun i => ?_⟩
    · rw [hstate]
      rfl
    · rw [← egaEntry_eq s (show (srcBytes s 48).length = 48 from Memory.bytesAt_length ..)]
      exact hpal i
  · exact exec_whole_raised (i := .pcxEgaLoad) rfl (fun _ _ => rfl) hr (fetchFirst_short hn)

/-! ### BMP_DECODE_RAW (R289) -/

/-- R289: the canonical row of a stored row is stored in that canonical row's place. -/
theorem bmpRow_bmpRow {s : State} {r : Nat} (hr : r < height s) : bmpRow s (bmpRow s r) = r := by
  unfold bmpRow
  split <;> omega

/-- The rows written after stored row `r` are those written before it and its own. -/
theorem bmpRow_lt_succ {s : State} {r y : Nat} (hr : r < height s) (hy : y < height s) :
    (bmpRow s y < r ∨ y = bmpRow s r) ↔ bmpRow s y < r + 1 := by
  unfold bmpRow
  split <;> omega

/-- Stored rows copied in order, each to its canonical row: `color r x` is what column `x` of stored row `r` gives. -/
theorem bmpRows_ok {s : State} {pixel : Nat → Nat → Eng Pixel} {color : Nat → Nat → Pixel} (hf : imageFits s)
    (hlook : ∀ r x, looksOnly (pixel r x))
    (hcolor : ∀ r x, r < height s → x < width s → gives (pixel r x) s (color r x)) :
    ∃ t, forUpTo (height s) (fun r => forUpTo (width s) (fun x => do
        let p ← pixel r x
        pixWrite x (bmpRow s r) p)) s = .ok () t ∧ onlyMemory s t ∧
      painted s t (fun _ _ => True) (fun x y => color (bmpRow s y) x) := by
  obtain ⟨t, ht, hm, hp⟩ := forUpTo_ok
    (fun r t => onlyMemory s t ∧ painted s t (fun _ y => bmpRow s y < r) (fun x y => color (bmpRow s y) x))
    (n := height s)
    ⟨.refl s, painted_none s _ fun _ _ _ _ h => Nat.not_lt_zero _ h⟩ (by
      rintro r hr t ⟨hm, hp⟩
      obtain ⟨u, hu, hmu, hpu⟩ := rowCopy_ok hm hp hf (bmpRow_lt hr) (hlook r) fun x hx => by
        rw [bmpRow_bmpRow hr]
        exact hcolor r x hr hx
      exact ⟨u, hu, hmu, painted_congr hpu (fun _ _ _ hy => bmpRow_lt_succ hr hy) fun _ _ _ _ _ => rfl⟩)
  exact ⟨t, ht, hm, painted_congr hp (fun _ _ _ hy => iff_true_intro (bmpRow_lt hy)) fun _ _ _ _ _ => rfl⟩

theorem bmpDecodeRawBody_ok {s : State} {n : Nat} {color : Nat → Nat → Pixel} (hs : sourceFits s) (hf : imageFits s)
    (hn : n = bmpStride (width s) (depth s) * height s) (hold : sourceHolds s n)
    (hcolor : ∀ r x, r < height s → x < width s →
      gives (bmpPixel (chunk (srcBytes s n) (bmpStride (width s) (depth s)) r) x) s (color r x)) :
    ∃ t, bmpDecodeRawBody s = .ok () t ∧ onlyMemory (afterFetch s n) t ∧
      painted s t (fun _ _ => True) (fun x y => color (bmpRow s y) x) := by
  subst hn
  rw [bmpDecodeRawBody, run_readState_bind, run_bind_ok (readSrc_afterFetch hs hold)]
  exact bmpRows_ok (s := afterFetch s _) hf (fun r => looksOnly_bmpPixel _) fun r x hr hx =>
    looksOnly_bmpPixel _ x s _ _ (sameSources_afterFetch s _) (hcolor r x hr hx)

theorem gives_unique {m : Eng Pixel} {s : State} {p q : Pixel} (hp : gives m s p) (hq : gives m s q) : p = q := by
  rw [gives, hp] at hq
  injection hq

/-- Settles O18: the stored rows are copied after the fetch of the payload, unless it is short. -/
theorem bmpRawDecodesEveryPixel : Obligations.BmpRawDecodesEveryPixel := by
  rintro s stride hr rfl
  refine ⟨fun hn hg => ?_, fun hn => ?_⟩
  · choose! color hcolor using hg
    have hstart : ∀ r x, r < height s → x < width s → gives _ { s with outN := 0 } (color r x) := fun r x hrow hx =>
      looksOnly_bmpPixel _ x s { s with outN := 0 } _ ⟨rfl, rfl, rfl, rfl⟩ (hcolor r x hrow hx)
    obtain ⟨t, ht, hm, hshown, hrest⟩ := bmpDecodeRawBody_ok (s := { s with outN := 0 }) (hr.sourceFits rfl)
      (hr.imageFits rfl) rfl hn hstart
    refine ⟨_, exec_whole_ok rfl (fun _ _ => rfl) hr rfl ht, ?_, fun r x p hrow hx hp => ?_, hrest⟩
    · rw [hm]
      rfl
    · have h : pixelAt t x (bmpRow s r) = color (bmpRow s (bmpRow s r)) x := hshown x _ hx (bmpRow_lt hrow) trivial
      rw [bmpRow_bmpRow hrow] at h
      exact h.trans (gives_unique (hcolor r x hrow hx) hp)
  · exact exec_whole_raised (i := .bmpDecodeRaw) rfl (fun _ _ => rfl) hr (fetchFirst_short hn)

/-! ### The canonical positions of a TGA image (R298) -/

/-- The logical row is determined by the canonical row that it is taken to. -/
theorem eq_logicalRow {s : State} {fx fy ly : Nat} (hfy : fy < height s) (hly : ly < height s)
    (h : (tgaMap s fx fy).2 = if topdown s = true then ly else height s - 1 - ly) :
    ly = logicalRow (interleave s) (height s) fy := by
  have hlt := logicalRow_lt (mode := interleave s) hfy
  simp only [tgaMap] at h
  split at h <;> omega

/-- Settles O31: the position is the logical row's, which each mode gives; `tgaPlace_lt` and `tgaPlace_inj` say the rest. -/
theorem tgaPlacesAreDistinct : Obligations.TgaPlacesAreDistinct := by
  rintro s k _ _ _ hk rfl rfl rfl
  obtain ⟨hx, hy⟩ := tgaPlace_lt hk
  refine ⟨rfl, fun ly hplace hly => ?_, hx, hy, fun j hj => tgaPlace_inj hj hk⟩
  have hrow := eq_logicalRow (Nat.div_lt_of_lt_mul hk) hly hplace
  refine ⟨fun hi => ?_, fun hi => ?_, fun hi g hg => ?_⟩
  · rw [hrow, hi]
    rfl
  · rw [hrow, hi]
    exact logicalRow_one ..
  · rw [hi, logicalRow_two] at hrow
    subst hg
    simp only [Nat.sub_zero]
    refine ⟨fun h0 => ?_, fun h0 h1 => ?_, fun h1 h2 => ?_, fun h2 => ?_⟩
    · rw [hrow, if_pos h0]
    · rw [hrow, if_neg (by omega), if_pos h1]
    · rw [hrow, if_neg (by omega), if_neg (by omega), if_pos h2]
    · rw [hrow, if_neg (by omega), if_neg (by omega), if_neg (by omega)]

end Sys2Proof.Machine
end

section
/-!
PROOFS. The second pass of an 8-bit PCX image (44_convert.md R306, R307) and the engine's step on its last scanline
(43_scanline_codec.md R240, R241, R245; 44_convert.md R314).
-/

namespace Sys2Proof.Machine

/-! ### What a painting leaves -/

/-- A pixel that is not among those written is as it was. -/
theorem untouched.pixelAt {s t : State} {hit : Nat → Nat → Prop} {x y : Nat} (h : untouched s t hit) (hc : t.csr = s.csr)
    (hx : x < width s) (hxy : ¬ hit x y) : Machine.pixelAt t x y = Machine.pixelAt s x y := by
  have haddr : pixAddr t x y = pixAddr { s with csr := t.csr } x y := rfl
  rw [Machine.pixelAt, haddr, hc, Machine.pixelAt]
  refine congrArg wordFromBytes (List.map_congr_left fun i hi => h _ fun u v hu _ huv hin => ?_)
  have hi := List.mem_range.mp hi
  have hne : x ≠ u ∨ y ≠ v := not_and_or.mp fun e => hxy (e.1 ▸ e.2 ▸ huv)
  have hdisj := pixAddr_disjoint hx hu hne
  change pixAddr s u v ≤ pixAddr s x y + i ∧ pixAddr s x y + i < pixAddr s u v + 4 at hin
  omega

/-- R77: what is written inside the image leaves the source, when the two are disjoint. -/
theorem untouched.sourceByte {s t : State} {hit : Nat → Nat → Prop} (h : untouched s t hit) (hc : t.csr = s.csr)
    (hd : ∀ a, inRegion a (srcRegion s) = true → ¬ inRegion a (imageRegion s) = true) {off : Nat} (hoff : off < srcLen s) :
    Machine.sourceByte t off = Machine.sourceByte s off := by
  have hbase : srcBase t = srcBase s := congrArg (fun r : HostRegs => r.srcBase.toNat) hc
  rw [Machine.sourceByte, hbase]
  refine h _ fun u v hu hv _ hin => hd _ ((inRegion_iff ..).2 ⟨Nat.le_add_right .., Nat.add_lt_add_left hoff _⟩)
    ((inRegion_iff ..).2 ?_)
  have hlt := pixAddr_lt hu hv
  have hge : pixBase s ≤ pixAddr s u v := (Nat.le_add_right ..).trans (Nat.le_add_right ..)
  change pixAddr s u v ≤ srcBase s + off ∧ srcBase s + off < pixAddr s u v + 4 at hin
  change pixBase s ≤ srcBase s + off ∧ srcBase s + off < pixBase s + width s * height s * 4
  omega

/-! ### Every pixel of the image converted in place -/

/-- Pixel `(a, b)` comes before pixel `(x, y)`, row by row. -/
def earlier (x y a b : Nat) : Prop := b < y ∨ b = y ∧ a < x

/-- A loop over the image whose round `(x, y)` paints pixel `(x, y)` paints the image. -/
theorem raster_ok {s : State} {body : Nat → Nat → Eng Unit} {value : Nat → Nat → Pixel}
    (hbody : ∀ x y t, x < width s → y < height s → onlyMemory s t → painted s t (earlier x y) value →
      ∃ u, body y x t = .ok () u ∧ onlyMemory s u ∧ painted s u (earlier (x + 1) y) value) :
    ∃ t, forUpTo (height s) (fun y => forUpTo (width s) (body y)) s = .ok () t ∧ onlyMemory s t ∧
      painted s t (fun _ _ => True) value := by
  obtain ⟨t, ht, hm, hp⟩ := forUpTo_ok (fun y t => onlyMemory s t ∧ painted s t (earlier 0 y) value)
    (n := height s)
    ⟨.refl s, painted_none s _ fun _ _ _ _ h => by unfold earlier at h; omega⟩ (by
      rintro y hy t ⟨hm, hp⟩
      obtain ⟨u, hu, hmu, hpu⟩ := forUpTo_ok (fun x u => onlyMemory s u ∧ painted s u (earlier x y) value)
        (body := body y) ⟨hm, hp⟩ fun x hx u ⟨hmu, hpu⟩ => hbody x y u hx hy hmu hpu
      refine ⟨u, hu, hmu, painted_congr hpu (fun a b ha _ => ?_) fun _ _ _ _ _ => rfl⟩
      unfold earlier
      omega)
  exact ⟨t, ht, hm, painted_congr hp (fun _ _ _ hb => iff_true_intro (.inl hb)) fun _ _ _ _ _ => rfl⟩

/-- A conversion of the blue byte of one pixel, in place. -/
def convertPixel (conv : Byte → Eng Pixel) (y x : Nat) : Eng Unit := do
  let w ← pixRead x y
  let p ← conv (byteOf w 0)
  pixWrite x y p

theorem pixRead_inImage {s : State} {x y : Nat} (hf : imageFits s) (hx : x < width s) (hy : y < height s) :
    ∃ t, pixRead x y s = .ok (pixelAt s x y) t ∧ onlyMemory s t ∧ t.mem = s.mem :=
  ⟨_, pixRead_ok ((pixAddr_lt hx hy).trans hf), rfl, rfl⟩

section Convert
variable {s : State} {conv : Byte → Eng Pixel} {color : Byte → Pixel} (hf : imageFits s) (hlook : ∀ i, looksOnly (conv i))
  (hcolor : ∀ i, gives (conv i) s (color i))
include hf hlook hcolor

theorem convertPixel_ok {t : State} {x y : Nat} (hm : onlyMemory s t) (hx : x < width s) (hy : y < height s) :
    ∃ u, onlyMemory t u ∧ u.mem = t.mem ∧
      convertPixel conv y x t = .ok () (u.pixPut x y (color (byteOf (pixelAt t x y) 0))) := by
  have hsame := hm.sameSources
  obtain ⟨u, hu, hmu, hmem⟩ := pixRead_inImage (hm.imageFits hf) (hsame.width ▸ hx) (hsame.height ▸ hy)
  have hconv := hlook _ s u _ (hm.trans hmu).sameSources (hcolor (byteOf (pixelAt t x y) 0))
  have hsame' := (hm.trans hmu).sameSources
  refine ⟨u, hmu, hmem, ?_⟩
  rw [convertPixel, run_bind_ok hu, run_bind_ok hconv]
  exact pixWrite_inImage _ ((hm.trans hmu).imageFits hf) (hsame'.width ▸ hx) (hsame'.height ▸ hy)

/-- Every pixel is converted once: its round finds it as it was. -/
theorem convertImage_ok : ∃ t, forUpTo (height s) (fun y => forUpTo (width s) (convertPixel conv y)) s = .ok () t ∧
    onlyMemory s t ∧ painted s t (fun _ _ => True) (fun x y => color (byteOf (pixelAt s x y) 0)) := by
  refine raster_ok fun x y t hx hy hm hp => ?_
  obtain ⟨u, hmu, hmem, hrun⟩ := convertPixel_ok hf hlook hcolor hm hx hy
  have hold : pixelAt t x y = pixelAt s x y := hp.2.pixelAt hm.csr hx (by unfold earlier; omega)
  have hpu : painted s u (earlier x y) (fun x y => color (byteOf (pixelAt s x y) 0)) := by
    rw [hmu, hmem]
    exact hp
  refine ⟨_, hrun, (hm.trans hmu).trans (onlyMemory_pixPut ..), painted_pixPut (hm.trans hmu) hpu hx hy ?_ ?_ ?_ ?_⟩
  · exact .inr ⟨rfl, Nat.lt_succ_self x⟩
  · intro a b h
    unfold earlier at *
    omega
  · intro a b h
    by_cases hab : a = x ∧ b = y
    · exact .inl hab
    · refine .inr ⟨?_, rfl⟩
      unfold earlier at *
      omega
  · rw [hold]

end Convert

/-! ### The trailer (R306) -/

/-- `t` is `s` but for the palette and the history. -/
def onlyPalette (s t : State) : Prop := t = { s with pal := t.pal, history := t.history }

theorem srcByte_onlyPalette {s t : State} {off : Nat} (hs : sourceFits s) (hoff : off < srcLen s) (ht : onlyPalette s t) :
    ∃ u, srcByte off t = .ok (sourceByte s off) u ∧ onlyPalette s u ∧ u.pal = t.pal := by
  refine ⟨t.logRead (srcBase t + off), ?_, ?_, rfl⟩
  · rw [ht]
    exact srcByte_ok (s := { s with pal := t.pal, history := t.history }) hoff hs
  · rw [onlyPalette, ht]
    rfl

/-- One entry of the trailer is read and written. -/
theorem loadVga_entry {s t : State} {o i : Nat} (hs : sourceFits s) (ho : o + 769 ≤ srcLen s) (hi : i < 256)
    (ht : onlyPalette s t) :
    ∃ u, (do
        let b ← srcByte (o + 1 + 3 * i + 2)
        let g ← srcByte (o + 1 + 3 * i + 1)
        let r ← srcByte (o + 1 + 3 * i)
        palWrite i (bgra b g r 255) : Eng Unit) t = .ok () u ∧
      onlyPalette s u ∧ u.pal = cellPut t.pal i (vgaEntry s o i) := by
  obtain ⟨t1, hb, ht1, hpal1⟩ := srcByte_onlyPalette (off := o + 1 + 3 * i + 2) hs (by omega) ht
  obtain ⟨t2, hg, ht2, hpal2⟩ := srcByte_onlyPalette (off := o + 1 + 3 * i + 1) hs (by omega) ht1
  obtain ⟨t3, hr, ht3, hpal3⟩ := srcByte_onlyPalette (off := o + 1 + 3 * i) hs (by omega) ht2
  refine ⟨t3.palPut i (vgaEntry s o i), ?_, ?_, ?_⟩
  · rw [run_bind_ok hb, run_bind_ok hg, run_bind_ok hr]
    rfl
  · rw [onlyPalette, ht3]
    rfl
  · rw [State.palPut_pal, hpal3, hpal2, hpal1]

theorem loadVga_ok {s : State} {o : Nat} (hs : sourceFits s) (ho : o + 769 ≤ srcLen s) :
    ∃ t, loadVga o s = .ok () t ∧ t = { s with pal := t.pal, palCount := 256, history := t.history } ∧
      ∀ i, cellGet? t.pal i = if i < 256 then some (vgaEntry s o i) else cellGet? s.pal i := by
  obtain ⟨t, ht, hstate, hpal⟩ := forUpTo_ok (s := s) (n := 256)
    (fun k t => onlyPalette s t ∧ ∀ i, cellGet? t.pal i = if i < k then some (vgaEntry s o i) else cellGet? s.pal i)
    ⟨rfl, fun _ => rfl⟩ (by
      rintro k hk t ⟨hstate, hpal⟩
      obtain ⟨u, hu, hustate, hentry⟩ := loadVga_entry hs ho hk hstate
      refine ⟨u, hu, hustate, fun i => ?_⟩
      rw [hentry, cellGet?_put, hpal]
      rcases Nat.lt_trichotomy i k with h | rfl | h
      · rw [if_neg (by omega), if_pos h, if_pos (by omega)]
      · rw [if_pos rfl, if_pos (Nat.lt_succ_self i)]
      · rw [if_neg (by omega), if_neg (by omega), if_neg (by omega)])
  refine ⟨{ t with palCount := 256 }, by rw [loadVga, run_bind_ok ht, run_update], ?_, hpal⟩
  rw [hstate]

theorem looksOnly_resolveIndex (found : Bool) (i : Byte) : looksOnly (resolveIndex found i) :=
  looksOnly_readState (fun _ => looksOnly_ite (looksOnly_palLookup _) (looksOnly_pure _)) (fun _ _ => rfl)

/-- R307: the pixel of an index, once the trailer of `s` is loaded. -/
theorem resolveIndex_gives {s v : State} (hc : v.csr = s.csr) (hpal : ∀ i, cellGet? v.pal i = vgaPalette s i) (i : Byte) :
    gives (resolveIndex (vgaTrailer s).isSome i) v (vgaPixel s i) := by
  have hinfo : palInfo v = palInfo s := congrArg (fun r : HostRegs => bits r.pcxAux 0 16) hc
  have hentry := hpal i.toNat
  rw [gives, resolveIndex, run_readState_bind, hinfo]
  unfold vgaPalette at hentry
  unfold vgaPixel
  cases htr : vgaTrailer s with
  | none => rfl
  | some o =>
    rw [htr] at hentry
    exact palLookup_ok (hentry.trans (if_pos i.isLt))

/-! ### The second pass (R306, R307) -/

/-- The trailer of `s` is loaded, if it has one; `t` is where the image is converted. -/
theorem vgaLoad_ok {s : State} (hs : sourceFits s) :
    ∃ t, resolveVga s = forUpTo (height t) (fun y => forUpTo (width t)
        (convertPixel (resolveIndex (vgaTrailer s).isSome) y)) t ∧
      t = { s with pal := t.pal, palCount := vgaCount s, history := t.history } ∧
      ∀ i, cellGet? t.pal i = vgaPalette s i := by
  obtain ⟨t, ht, hlog⟩ := findVga_ok hs
  have hstate : t = { s with history := t.history } := by rcases hlog with rfl | ⟨a, rfl⟩ | ⟨a, b, rfl⟩ <;> rfl
  rw [resolveVga, run_bind_ok ht]
  unfold vgaCount vgaPalette
  cases htr : vgaTrailer s with
  | none => exact ⟨t, rfl, by rw [hstate]; rfl, fun i => by rw [hstate]⟩
  | some o =>
    have hfits : sourceFits t := by
      rw [hstate]
      exact hs
    have hlen : o + 769 ≤ srcLen t := by
      rw [hstate]
      exact vgaTrailer_le htr
    obtain ⟨u, hu, hustate, hpal⟩ := loadVga_ok hfits hlen
    refine ⟨u, run_bind_ok hu, ?_, fun i => ?_⟩
    · rw [hustate, hstate]
      rfl
    · rw [hpal, hstate]
      rfl

/-- `t` is `s` after the second pass. -/
structure Resolved (s t : State) : Prop where
  run : resolveVga s = .ok () t
  state : t = { s with pal := t.pal, palCount := vgaCount s, mem := t.mem, history := t.history }
  palette : ∀ i, cellGet? t.pal i = vgaPalette s i
  pixels : painted s t (fun _ _ => True) (fun x y => vgaPixel s (byteOf (pixelAt s x y) 0))

theorem resolveVga_ok {s : State} (hs : sourceFits s) (hf : imageFits s) : ∃ t, Resolved s t := by
  obtain ⟨v, hrun, hv, hpal⟩ := vgaLoad_ok hs
  have hfits : imageFits v := by
    rw [hv]
    exact hf
  obtain ⟨t, ht, hm, hp⟩ := convertImage_ok hfits (looksOnly_resolveIndex _)
    (resolveIndex_gives (s := s) (by rw [hv]) hpal)
  refine ⟨t, hrun.trans ht, ?_, fun i => by rw [hm]; exact hpal i, ?_⟩
  · rw [hm, hv]
  · rw [hv] at hp
    exact hp

/-! ### The last scanline (R240, R314) -/

/-- `t` has the registers and the bytes of the source of `s`. -/
structure SameSource (s t : State) : Prop where
  csr : t.csr = s.csr
  srcPos : t.srcPos = s.srcPos
  bytes : ∀ off, off < srcLen s → sourceByte t off = sourceByte s off

section SameSource
variable {s t : State} (h : SameSource s t)
include h

theorem SameSource.vgaTrailer : Machine.vgaTrailer t = Machine.vgaTrailer s := by
  have hlen : srcLen t = srcLen s := congrArg (fun r : HostRegs => r.srcLen.toNat) h.csr
  have hoff : srcOff t = srcOff s := congrArg BitVec.toNat h.srcPos
  unfold Machine.vgaTrailer
  rw [hlen, hoff]
  refine if_congr (and_congr_right fun hpos => ?_) rfl (if_congr (and_congr_right fun hpos => ?_) rfl rfl) <;>
    rw [h.bytes _ (by omega)]

theorem SameSource.vgaEntry {o i : Nat} (ho : o + 769 ≤ srcLen s) (hi : i < 256) :
    Machine.vgaEntry t o i = Machine.vgaEntry s o i := by
  unfold Machine.vgaEntry
  rw [h.bytes _ (by omega), h.bytes _ (by omega), h.bytes _ (by omega)]

theorem SameSource.vgaPixel (i : Byte) : Machine.vgaPixel t i = Machine.vgaPixel s i := by
  have hinfo : palInfo t = palInfo s := congrArg (fun r : HostRegs => bits r.pcxAux 0 16) h.csr
  unfold Machine.vgaPixel
  rw [h.vgaTrailer, hinfo]
  cases htr : Machine.vgaTrailer s with
  | none => rfl
  | some o => exact h.vgaEntry (vgaTrailer_le htr) i.isLt

theorem SameSource.vgaPalette (hp : t.pal = s.pal) (i : Nat) : Machine.vgaPalette t i = Machine.vgaPalette s i := by
  unfold Machine.vgaPalette
  rw [h.vgaTrailer, hp]
  cases htr : Machine.vgaTrailer s with
  | none => rfl
  | some o =>
    by_cases hi : i < 256
    · simp only [if_pos hi, h.vgaEntry (vgaTrailer_le htr) hi]
    · simp only [if_neg hi]

theorem SameSource.vgaCount (hp : t.palCount = s.palCount) : Machine.vgaCount t = Machine.vgaCount s := by
  rw [Machine.vgaCount, Machine.vgaCount, h.vgaTrailer, hp]

end SameSource

section LastScanline
variable {s : State} (hf : imageFits s) (hlast : s.row + 1 = height s)
  (hmode : pcxMode (depth s) (pcxPlanes s) = .indexed8)
include hf hlast hmode

/-- The last scanline is written to its row, the indices in the blue bytes, and the second pass follows from there. -/
theorem finishScanline_last :
    ∃ v, finishScanline s = resolveVga v ∧
      v = { s with row := s.row + 1, line := [], mem := v.mem, history := v.history } ∧
      (∀ x y, x < width s → byteOf (pixelAt v x y) 0 =
        if y = s.row then planeByte (withLine s s.line) 0 x else byteOf (pixelAt s x y) 0) ∧
      untouched s v (fun _ y => y = s.row) := by
  have hscratch : ∀ x, gives (pcxPixel x) (withLine s s.line) (bgra (planeByte (withLine s s.line) 0 x) 0 0 0) :=
    fun x => pcxPixel_indexed8 x hmode
  have hrow : s.row < height s := by omega
  obtain ⟨t, ht, hm, hshown, hrest⟩ := assembleRow_ok (s := withLine s s.line) hf hrow fun x _ => ⟨_, hscratch x⟩
  have hstate : { t with row := t.row + 1, line := [] } =
      { s with row := s.row + 1, line := [], mem := t.mem, history := t.history } := by
    rw [hm]
    rfl
  refine ⟨{ t with row := t.row + 1, line := [] }, ?_, hstate, fun x y hx => ?_, hrest⟩
  · rw [finishScanline, zeroFillLine, run_update_bind, ← withLine, run_bind_ok ht, run_update_bind, run_readState_bind,
      hstate]
    exact congrFun (if_pos ⟨Nat.le_of_eq hlast.symm, hmode⟩) _
  · by_cases h : y = s.row
    · rw [if_pos h, h]
      exact (congrArg (byteOf · 0) (hshown x _ hx (hscratch x))).trans (List.cons.inj (wordBytes_bgra ..)).1
    · rw [if_neg h]
      exact congrArg (byteOf · 0) (hrest.pixelAt hm.csr hx h)

/-- The step on the last scanline, once its bytes are taken. -/
theorem conclude_lastScanline (hs : sourceFits s)
    (hd : ∀ a, inRegion a (srcRegion s) = true → ¬ inRegion a (imageRegion s) = true) :
    ∃ t, conclude .pcxDecode afterScanline (finishScanline s) = .next t ∧
      t = { ended s .success with
        row := s.row + 1
        line := []
        pal := t.pal
        palCount := vgaCount s
        mem := t.mem
        history := t.history } ∧
      (∀ i, cellGet? t.pal i = vgaPalette s i) ∧
      (∀ x y, x < width s → y < height s → pixelAt t x y =
        vgaPixel s (if y = s.row then planeByte (withLine s s.line) 0 x else byteOf (pixelAt s x y) 0)) ∧
      onlyImage s t := by
  obtain ⟨v, hrun, hv, hblue, hrest⟩ := finishScanline_last hf hlast hmode
  have hcsr : v.csr = s.csr := by rw [hv]
  have hfits : sourceFits v ∧ imageFits v := by
    rw [hv]
    exact ⟨hs, hf⟩
  obtain ⟨t, ht⟩ := resolveVga_ok hfits.1 hfits.2
  have hsame : SameSource s v := ⟨hcsr, by rw [hv], fun off => hrest.sourceByte hcsr hd⟩
  have hpixels := ht.pixels
  have hdone : t.row = s.row + 1 ∧ height t = height s := by
    rw [ht.state, hv]
    exact ⟨rfl, rfl⟩
  refine ⟨ended t .success, ?_, ?_, fun i => ?_, fun x y hx hy => ?_, ?_⟩
  · rw [hrun, ht.run, conclude_ok, afterScanline, hdone.1, hdone.2, if_neg (by omega)]
    rfl
  · rw [ht.state, hsame.vgaCount (by rw [hv]), hv]
    rfl
  · rw [← hsame.vgaPalette (by rw [hv])]
    exact ht.palette i
  · rw [← hsame.vgaPixel, ← hblue x y hx]
    have hwh : width v = width s ∧ height v = height s := by
      rw [hv]
      exact ⟨rfl, rfl⟩
    exact hpixels.1 x y (hwh.1 ▸ hx) (hwh.2 ▸ hy) trivial
  · intro a ha
    refine (hpixels.2 a ?_).trans (hrest a fun x y hx hy _ => ha x y hx hy trivial)
    rw [hv]
    exact ha

end LastScanline

/-- Settles O36: the second pass alone, and the last scanline of either encoding with the second pass after it. -/
theorem vgaPassResolvesIndices : Obligations.VgaPassResolvesIndices := by
  intro s hr
  have hs := hr.sourceFits rfl
  have hf := hr.imageFits rfl
  refine ⟨?_, ?_⟩
  · obtain ⟨t, ht⟩ := resolveVga_ok hs hf
    exact ⟨t, ht.run, ht.state, ht.palette, fun x y hx hy => ht.pixels.1 x y hx hy trivial, ht.pixels.2⟩
  · have hd : ∀ a, inRegion a (srcRegion s) = true → ¬ inRegion a (imageRegion s) = true := fun a h1 h2 =>
      hr.disjoint rfl rfl h1 (imageRegion_pix hr rfl h2)
    rintro z u n hp hlast hmode (⟨henc, hover, -, rfl, rfl⟩ | ⟨henc, hn, rfl⟩) rfl
    · rw [BitVec.add_zero, engineStep_lineEnd hp henc hover]
      exact conclude_lastScanline hf hlast hmode hs hd
    · have hscan : scanRaw s = .ok () (scanned s n) := scanRaw_ok hs (hr.source rfl) hn
      have hline := withLine_scanned s (n := n) (hn ▸ Nat.min_le_left _ _)
      rw [engineStep_rawLine hp henc, run_bind_ok hscan]
      have h := conclude_lastScanline (s := scanned s n) hf hlast hmode hs hd
      rw [hline] at h
      exact h

end Sys2Proof.Machine
end

section
/-!
PROOFS. The order of the gates (40_commands.md R143, R150-R154; 60_exceptions.md R344): each gate with its condition as the rules
state it, chained by `firstFailing_cons`.
-/

namespace Sys2Proof.Machine

/-! ### The conditions of the gates (R150-R154) -/

theorem usesSrc_eq (op : Op) : usesSrc op = !([.bmpEncode, .tgaEncode].contains op) := by cases op <;> rfl

theorem usesPix_eq (op : Op) : usesPix op = !([.palLoad, .pcxEgaLoad].contains op) := by cases op <;> rfl

theorem usesOut_eq (op : Op) : usesOut op = [.bmpEncode, .tgaEncode].contains op := by cases op <;> rfl

/-- A gate that asks for one of the listed values fails: the other side of `listed_iff`. -/
theorem not_listed_iff {α : Type} [BEq α] [LawfulBEq α] {l : List α} {x : α} : (!l.contains x) = true ↔ x ∉ l := by
  rw [← Bool.not_eq_false, listed_iff]

/-- Gate 3 fails: a region that the command uses wraps past the top of the bus (R71, R150). -/
theorem regionsOf_wrap {op : Op} {s : State} : (regionsOf op s).any (fun r => !regionFits r) = true ↔
    (usesSrc op = true ∧ 2 ^ 32 < srcBase s + srcLen s) ∨ (usesPix op = true ∧ 2 ^ 32 < pixBase s + pixCap s) ∨
    (usesOut op = true ∧ 2 ^ 32 < outBase s + outCap s) := by
  rw [← Bool.not_eq_false, regionsOf_fit]
  simp only [sourceFits, Config.addrBits, not_and_or, Classical.not_imp, not_le]

/-- Settles O45: gates 2 to 7, then those of the command's family (gate 8), each with its condition as the rules state it. -/
theorem firstFailingGateDecides : Obligations.FirstFailingGateDecides := by
  intro op arg s source image output hs hp ho
  obtain rfl := hs.trans (usesSrc_eq op).symm
  obtain rfl := hp.trans (usesPix_eq op).symm
  obtain rfl := ho.trans (usesOut_eq op).symm
  refine firstFailing_cons ?_ (firstFailing_cons regionsOf_wrap (firstFailing_cons ?_ (firstFailing_cons ?_
    (firstFailing_cons ?_ (firstFailing_cons ?_ ?format)))))
  case format =>
    cases op with
    | palLoad | pcxEgaLoad => rfl
    | bmpDecodeRaw | bmpDecodeRle8 | bmpDecodeRle4 =>
      refine firstFailing_cons not_listed_iff (firstFailing_cons ?_ (firstFailing_cons ?_ (firstFailing_cons ?_
        (firstFailing_cons ?_ rfl))))
      all_goals simp only [not_listed_iff, Bool.and_eq_true, Bool.or_eq_true, decide_eq_true_eq, gt_iff_lt, and_assoc]
    | tgaDecodeRaw | tgaDecodeRle =>
      refine firstFailing_cons ?_ (firstFailing_cons ?_ (firstFailing_cons ?_ (firstFailing_cons ?_
        (firstFailing_cons ?_ rfl))))
      all_goals simp only [not_listed_iff, Bool.and_eq_true, Bool.or_eq_true, decide_eq_true_eq, or_assoc]
    | pcxDecode =>
      refine firstFailing_cons not_listed_iff (firstFailing_cons ?_ (firstFailing_cons ?_
        (firstFailing_cons not_listed_iff rfl)))
      all_goals simp only [Bool.or_eq_true, decide_eq_true_eq, gt_iff_lt, or_assoc]
    | bmpEncode =>
      refine firstFailing_cons not_listed_iff (firstFailing_cons ?_ rfl)
      simp only [Bool.and_eq_true, decide_eq_true_eq]
    | tgaEncode => exact firstFailing_cons not_listed_iff rfl
  all_goals simp only [Bool.and_eq_true, Bool.or_eq_true, decide_eq_true_eq, gt_iff_lt]

end Sys2Proof.Machine
end

section
/-!
PROOFS. A BMP RLE loop consumes its source (10_state.md R52; 70_reset_and_hazards.md R386): the two bytes of the fetch, and
no byte given back by the token.
-/

namespace Sys2Proof.Machine

/-- The engine is idle after the end of a command, whatever else it writes (R145). -/
@[simp] theorem endCommand_phase (op : Op) (started : Bool) (c : Code) (s : State) :
    (endCommand op started c s).phase = .idle := by
  cases op <;> rfl

section Rle
variable {op : Op} {s t : State} (hop : op = .bmpDecodeRle8 ∨ op = .bmpDecodeRle4)
include hop

/-- An RLE token ends its command or stays in its loop, where SRC_POS has not gone back and is still within SRC_LEN. -/
theorem exec_rleToken_source {i : Instr} (hi : i.stream ≠ .command) (hio : opOf i = op) (hs : sourceFits s)
    (hf : imageFits s) (hsrc : srcOff s ≤ srcLen s) (h : exec i s = .next t) :
    t.phase = .idle ∨ (t.phase = s.phase ∧ srcOff s ≤ srcOff t ∧ srcOff t ≤ srcLen t ∧ t.csr = s.csr) := by
  subst hio
  have he : LoopEnd (opOf i) s (exec i s) := loopEnd_token hi hs hf (.refl ..)
    (fun _ e => by simp [e] at hop) (fun _ e => by simp [e] at hop)
  rw [h] at he
  cases he with
  | goes kc u hk => exact .inr ⟨hk.phase, (hk.source hsrc).1, (hk.source hsrc).2, hk.csr⟩
  | ends kc u c => exact .inl (endCommand_phase ..)

/-- An RLE loop that fetches a pair a token: a source with no pair left ends the command (R190), and a token follows a
fetch that has consumed two bytes. -/
theorem engineStep_pairLoop_source {token : Byte × Byte → Instr} (hr : ready op 0 s)
    (hfetch : engineAction s = fetched op fetchPair token s)
    (htoken : ∀ p, (token p).stream ≠ .command ∧ opOf (token p) = op) (h : engineStep s = .next t) :
    t.phase = .idle ∨ (t.phase = s.phase ∧ srcOff s + 2 ≤ srcOff t ∧ srcOff t ≤ srcLen t ∧ t.csr = s.csr) := by
  have hs : sourceFits s := hr.sourceFits (by rcases hop with rfl | rfl <;> rfl)
  have hf : imageFits s := hr.imageFits (by rcases hop with rfl | rfl <;> rfl)
  by_cases hn : sourceHolds s 2
  · have hoff := srcOff_afterFetch hn
    rw [engineStep_fetched op token hfetch (fetchPair_ok hs hn)] at h
    obtain ⟨hi, hio⟩ := htoken ((srcBytes s 2).getD 0 0, (srcBytes s 2).getD 1 0)
    rw [← hoff]
    exact exec_rleToken_source hop hi hio (s := afterFetch s 2) hs hf (hoff.trans_le hn) h
  · rw [engineStep_fetch_raised op token hfetch (fetchPair_short hn)] at h
    cases h
    exact .inl (endCommand_phase ..)

end Rle

/-- Settles O17: either loop fetches a pair a token. -/
theorem rleLoopConsumesTheSource : Obligations.RleLoopConsumesTheSource := by
  rintro s t hi (hp | hp) ht
  · have hr := (hi.running .bmpDecodeRle8 (by rw [hp]; rfl)).ready
    exact engineStep_pairLoop_source (.inl rfl) hr (token := fun p => decodeRle8 p.1 p.2)
      (by simp only [engineAction, hp]) (fun p => by simp [decodeRle8_token]) ht
  · have hr := (hi.running .bmpDecodeRle4 (by rw [hp]; rfl)).ready
    exact engineStep_pairLoop_source (.inr rfl) hr (token := fun p => decodeRle4 p.1 p.2)
      (by simp only [engineAction, hp]) (fun p => by simp [decodeRle4_token]) ht

end Sys2Proof.Machine
end

section
/-!
PROOFS. Reset (70_reset_and_hazards.md R370, R371; 40_commands.md R147), and the host's accesses of bus memory (R380;
60_exceptions.md R346).
-/

namespace Sys2Proof.Machine

/-! ### Reset -/

/-- What a reset around any memory leaves: the reset values of R370, and the script as it was. -/
theorem resetKeeping_values (s : State) (m : Memory) :
    (∀ r, regRaw r (s.resetKeeping m) = regRaw r State.reset) ∧ (∀ i, cellGet? (s.resetKeeping m).pal i = none) ∧
      (s.resetKeeping m).phase = .idle ∧ (s.resetKeeping m).turns = s.turns ∧ (s.resetKeeping m).mem = m :=
  ⟨regRaw_resetKeeping s m, cellGet?_nil, rfl, rfl, rfl⟩

theorem platformReset_idle {s : State} (next : Host.Outcome State Fault Refusal) (h : busy s = false) :
    platformReset s next = .next (s.resetKeeping s.mem) := by
  simp [platformReset, h]

theorem platformReset_busy {s : State} (next : Host.Outcome State Fault Refusal) (h : busy s = true) :
    platformReset s next =
      .next ({ s with draws := s.draws + 1 }.resetKeeping (abortedMemory s (eventsOf s next))) := by
  simp [platformReset, h]

/-- The writes that a reset leaves in memory are the oldest of the events, up to some number (R371, log 10). -/
theorem abortedMemory_oldestWrites (s : State) (evs : List BusEvent) :
    ∃ n, n ≤ (writesOf evs).length ∧ abortedMemory s evs = s.memStart.replay ((writesOf evs.reverse).take n) := by
  have hlen : (writesOf evs.reverse).length = (writesOf evs).length := by
    simp [writesOf, List.filter_reverse]
  refine ⟨Config.freeNat s.draws % ((writesOf evs.reverse).length + 1), ?_, rfl⟩
  rw [← hlen]
  exact Nat.le_of_lt_succ (Nat.mod_lt _ (Nat.succ_pos _))

/-- Settles O55: the events that the statement names are those of `eventsOf`, whatever the step that the reset cuts off. -/
theorem resetOfARunningCommand : Obligations.ResetOfARunningCommand := by
  intro s u rest evs hturns hbusy hu hevs
  have hub : busy u = true := by rw [hu]; exact hbusy
  have hstart : u.memStart = s.memStart := by rw [hu]
  have hscript : u.turns = rest := by rw [hu]
  have hev : eventsOf u (engineStep u) = evs := by
    rw [hevs]
    cases engineStep u with
    | next t => rfl
    | fault f => cases f <;> rfl
    | refused r => rw [eventsOf, hu]
  have hstep : step s = .next ({ u with draws := u.draws + 1 }.resetKeeping (abortedMemory u evs)) := by
    rw [step_scripted hturns, ← hu, turnStep, platformReset_busy _ hub, hev]
  obtain ⟨n, hn, hmem⟩ := abortedMemory_oldestWrites u evs
  obtain ⟨hreg, hpal, hphase, hrest, hkept⟩ := resetKeeping_values { u with draws := u.draws + 1 } (abortedMemory u evs)
  exact ⟨_, n, hstep, hreg, hpal, hphase, hrest.trans hscript, hn, by rw [hkept, hmem, hstart]⟩

/-- Settles O54. -/
theorem resetOfAnIdleMachine : Obligations.ResetOfAnIdleMachine := by
  intro s rest hturns hbusy
  have hstep : step s = .next ({ s with turns := rest }.resetKeeping s.mem) := by
    rw [step_scripted hturns]
    exact platformReset_idle _ hbusy
  obtain ⟨hreg, hpal, hphase, hrest, hmem⟩ := resetKeeping_values { s with turns := rest } s.mem
  exact ⟨_, hstep, rfl, hreg, hpal, hphase, hmem, hrest⟩

/-- Settles O53, register by register. -/
theorem resetLeavesTheResetValues : Obligations.ResetLeavesTheResetValues := by
  refine ⟨fun r => ?_, rfl, rfl, rfl, cellGet?_nil⟩
  cases r <;> rfl

/-- Settles O56: the reset state is a reset around empty memory. -/
theorem invariantHoldsAtReset : Obligations.InvariantHoldsAtReset :=
  inv_resetKeeping State.reset Memory.wf_nil

/-! ### The host and bus memory -/

/-- R380: the host is kept out exactly of the regions of the running command. -/
theorem hostMayTouch_eq_false_iff {a : Word} {s : State} : hostMayTouch a s = false ↔ busy s = true ∧
    ∃ i, decodeCommand s.csr.cmd = .ok i ∧ (regionsOf (opOf i) s).any (inRegion a.toNat) = true := by
  unfold hostMayTouch guardedRegions
  cases hb : busy s with
  | false => simp
  | true => cases hd : decodeCommand s.csr.cmd <;> simp

section Access
variable {a : Word} {s : State}

theorem hostPoke_refused (v : Byte) (h : hostMayTouch a s = false) : hostPoke a v s = .refused .hostTouchesRegion := by
  simp [hostPoke, h]

theorem hostPeek_refused (h : hostMayTouch a s = false) : hostPeek a s = .refused .hostTouchesRegion := by
  simp [hostPeek, h]

theorem hostPoke_ok (v : Byte) (h : hostMayTouch a s = true) : hostPoke a v s =
    .next { s with mem := s.mem.write a.toNat v, memStart := s.memStart.write a.toNat v } := by
  simp [hostPoke, h]

theorem hostPeek_ok (h : hostMayTouch a s = true) :
    hostPeek a s = .next { s with hostData := (s.mem.read a.toNat).setWidth 32 } := by
  simp [hostPeek, h, State.answer]

end Access

/-- Settles O52: an access is refused exactly where `hostMayTouch` says so, and is one of ordinary memory elsewhere. -/
theorem hostStaysOutOfBusyRegions : Obligations.HostStaysOutOfBusyRegions := by
  intro a v s touched htouched
  rw [← hostMayTouch_eq_false_iff] at htouched
  refine ⟨fun h => ?_, fun h => ?_⟩
  · have hmay := htouched.1 h
    exact ⟨hostPoke_refused v hmay, hostPeek_refused hmay⟩
  · have hmay : hostMayTouch a s = true := by rwa [htouched, Bool.not_eq_false] at h
    refine ⟨hostPeek_ok hmay, _, hostPoke_ok v hmay, rfl, fun b => ?_⟩
    simp only [Memory.read_write, eq_comm]

end Sys2Proof.Machine
end
